-- ==== Sys2Proof/Word.lean ====
section
/-! DEFINITION. The word types of the block: the host bus word, a word address, the frame register and a pulse count. -/

namespace Sys2Proof

/-- A 32-bit word of the host bus (20_memory.md R40). -/
abbrev Word := BitVec 32

/-- A 6-bit word address of the host register space (20_memory.md R40). -/
abbrev Addr := BitVec 6

/-- The 40-bit frame register (10_state.md R10). -/
abbrev Frame := BitVec 40

/-- A 16-bit pulse count (00_scope.md R5, `CW`). -/
abbrev Count := BitVec 16

end Sys2Proof
end

