-- ==== Sys2Proof/Config.lean ====
section
/-! DEFINITION. What is fixed for one block: the constants of 00_scope.md R5, the vocabulary of the line's port (40_line_and_pulse_counter.md R80), the OPEN parameters, and the free values. -/

namespace Sys2Proof

/-- A logic level of the line; LOW is encoded 0 and HIGH 1 (00_scope.md section 4). -/
inductive Level where
  | low
  | high
  deriving DecidableEq, Repr, Inhabited

/-- The two modes of `PortSetMode` (R80). -/
inductive PortMode where
  | input
  | output
  deriving DecidableEq, Repr, Inhabited

/-- One event of the port trace, one for each call of a port primitive (R80). -/
inductive PortEvent where
  | mode    (m : PortMode)
  | write   (l : Level)
  | read    (l : Level)
  | delayMs (n : Nat)
  | delayUs (n : Nat)
  deriving DecidableEq, Repr

/-- How a bit is classified while calibrating: the OPEN parameter `CAL_BIT_RULE` (R5, R86). -/
inductive CalBitRule where
  | threshold
  | self
  deriving DecidableEq, Repr, Inhabited

/-- The four OPEN parameters of R5, as one block has them. Every theorem about all states quantifies over them. -/
structure Params where
  /-- `TIMEOUT_INIT` -/
  timeoutInit : Count
  /-- `START_HIGH_US` -/
  startHighUs : Nat
  /-- `POLL_US` -/
  pollUs : Nat
  /-- `CAL_BIT_RULE` -/
  calBitRule : CalBitRule
  deriving DecidableEq, Repr

/-- R5's constraints: 1 ≤ `TIMEOUT_INIT` ≤ 65535 (the upper bound is the register's width) and 20 ≤ `START_HIGH_US` ≤ 40. -/
abbrev Params.wf (p : Params) : Prop :=
  1 ≤ p.timeoutInit.toNat ∧ 20 ≤ p.startHighUs ∧ p.startHighUs ≤ 40

namespace Config

/-- `CAL_ATTEMPTS` (R5). -/
def calAttempts : Nat := 5

/-- `THRESHOLD_DEFAULT` (R5). -/
def thresholdDefault : Count := 16

/-- `START_LOW_MS` (R5). -/
def startLowMs : Nat := 18

/-- `NMAX`, the largest buffer capacity (R5). -/
def nMax : Nat := 16

/-- `DEV_DEFAULT`, in per mille (R5). -/
def devDefault : BitVec 16 := 200

/-- `SENTINEL`, −100000 milli-units (R5, 10_state.md R20). -/
def sentinel : Word := BitVec.ofInt 32 (-100000)

/-- FREE VALUE: `TIMEOUT_INIT` less 1, so that every value of R5's range 1..65535 is left open (log 1). -/
opaque timeoutInitLess1 : Fin 65535

/-- FREE VALUE: `START_HIGH_US` less 20, so that every value of R5's range 20..40 is left open (log 1). -/
opaque startHighUsLess20 : Fin 21

/-- FREE VALUE: `POLL_US` (log 1). -/
opaque pollUs : Nat

/-- FREE VALUE: `CAL_BIT_RULE` (log 1). -/
opaque calBitRule : CalBitRule

/-- The block's OPEN parameters (R5, log 1). -/
def params : Params where
  timeoutInit := BitVec.ofNat 16 (timeoutInitLess1.val + 1)
  startHighUs := startHighUsLess20.val + 20
  pollUs := pollUs
  calBitRule := calBitRule

/-- FREE VALUE: the level of the line at a `PortRead`, given the trace so far, newest event first (R81, log 2). -/
opaque lineOracle : List PortEvent → Level

/-- FREE VALUE: the n-th word a host read of no defined value returns (20_memory.md R46, log 7). -/
opaque freeWord : Nat → Word

/-- FREE VALUE: whether `round` takes a value halfway between `n` and `n + 1` up to `n + 1` (30_encoding.md R72, log 20). -/
opaque roundTieUp : Int → Bool

end Config

end Sys2Proof
end

