-- ==== Sys2Proof/Syntax.lean ====
section
/-! DEFINITION. The five host commands of 30_encoding.md R60, one constructor for each row of the opcode table, operands as R65 assembles them. -/

namespace Sys2Proof

/-- The sensor variant: 0 is A, "11-style", 1 is B, "22-style" (R61). -/
inductive Variant where
  | a
  | b
  deriving DecidableEq, Repr, Inhabited

/-- The quantity of `SETDEV`: 0 is temperature, 1 is humidity (R64). -/
inductive Quantity where
  | temperature
  | humidity
  deriving DecidableEq, Repr, Inhabited

/-- A host command. `maxatt` is 8-bit two's complement; `cap`, `retryMs` and `permille` are unsigned (R65). -/
inductive Instr where
  /-- `INIT variant, cap` (format I, R61). -/
  | init (variant : Variant) (cap : BitVec 8)
  /-- `CALIBRATE` (format Z, R62). -/
  | calibrate
  /-- `ACQUIRE maxatt, retry_ms` (format A, R63). -/
  | acquire (maxatt : BitVec 8) (retryMs : BitVec 16)
  /-- `READ maxatt, retry_ms` (format A, R63). -/
  | read (maxatt : BitVec 8) (retryMs : BitVec 16)
  /-- `SETDEV q, permille` (format D, R64). -/
  | setdev (q : Quantity) (permille : BitVec 16)
  deriving DecidableEq, Repr

end Sys2Proof
end

