-- ==== Sys2Proof/WellFormed.lean ====
section
/-! DEFINITION. Which commands have operands in range (30_encoding.md R66 (c)). Every operand fits its field by its type, so these are the only checks; a command that fails one is still decoded, and completes with InvalidArgument. -/

namespace Sys2Proof

/-- R61: `CAP` is legal from 0 to `NMAX` = 16. -/
def capLegal (cap : BitVec 8) : Bool := decide (cap.toNat ≤ Config.nMax)

/-- R66 (c): "`maxAttempts < 0` is invalid input"; `maxatt` is `sext_8` of its field (R65). -/
def maxattLegal (maxatt : BitVec 8) : Bool := decide (0 ≤ maxatt.toInt)

/-- The operand checks of R66 (c). -/
def Instr.wellFormed : Instr → Bool
  | .init _ cap => capLegal cap
  | .calibrate => true
  | .acquire maxatt _ => maxattLegal maxatt
  | .read maxatt _ => maxattLegal maxatt
  | .setdev _ _ => true

end Sys2Proof
end

