-- ==== Sys2Proof/Decode.lean ====
section
/-! DEFINITION. From a command word to a command, or to the reason the word is illegal (30_encoding.md R60 to R66), and back (R69). -/

namespace Sys2Proof

/-- Why a word is no command (R66 (a), (b)). Both complete the command with IllegalCommand. -/
inductive DecodeError where
  /-- `OP` is 0x0 or 0x6..0xF (R66 (a)). -/
  | unassignedOpcode
  /-- `OP` is assigned and a must-be-zero bit of its format is 1 (R66 (b)). -/
  | mustBeZero
  deriving DecidableEq, Repr

/-- One row of the opcode table: R66 (b) compares `w & mask` with `match`. -/
structure Row where
  mask : Word
  pattern : Word
  deriving DecidableEq, Repr

/-- R66 (b): the word has the row's opcode and none of its must-be-zero bits. -/
def Row.fits (r : Row) (w : Word) : Bool := w &&& r.mask == r.pattern

/-- `INIT`: match 0x10000000, mask 0xFFFFFE00 (R61). -/
def rowInit : Row := { mask := 0xFFFFFE00, pattern := 0x10000000 }
/-- `CALIBRATE`: match 0x20000000, mask 0xFFFFFFFF (R62). -/
def rowCalibrate : Row := { mask := 0xFFFFFFFF, pattern := 0x20000000 }
/-- `ACQUIRE`: match 0x30000000, mask 0xFF000000 (R63). -/
def rowAcquire : Row := { mask := 0xFF000000, pattern := 0x30000000 }
/-- `READ`: match 0x40000000, mask 0xFF000000 (R63). -/
def rowRead : Row := { mask := 0xFF000000, pattern := 0x40000000 }
/-- `SETDEV`: match 0x50000000, mask 0xFFFE0000 (R64). -/
def rowSetdev : Row := { mask := 0xFFFE0000, pattern := 0x50000000 }

/-- The rows of the opcode table, in its order. -/
def rows : List Row := [rowInit, rowCalibrate, rowAcquire, rowRead, rowSetdev]

/-- The row a command's words are of. -/
def Instr.row : Instr → Row
  | .init _ _ => rowInit
  | .calibrate => rowCalibrate
  | .acquire _ _ => rowAcquire
  | .read _ _ => rowRead
  | .setdev _ _ => rowSetdev

/-- `OP = w[31:28]` (R60). -/
def fieldOp (w : Word) : BitVec 4 := w.extractLsb' 28 4
/-- `CAP = w[7:0]` (R61). -/
def fieldCap (w : Word) : BitVec 8 := w.extractLsb' 0 8
/-- `MAXATT = w[23:16]` (R63). -/
def fieldMaxatt (w : Word) : BitVec 8 := w.extractLsb' 16 8
/-- `RETRY_MS = w[15:0]` and `PERMILLE = w[15:0]` (R63, R64). -/
def fieldLow16 (w : Word) : BitVec 16 := w.extractLsb' 0 16
/-- `VARIANT = w[8]` (R61). -/
def fieldVariant (w : Word) : Variant := if w.getLsbD 8 then .b else .a
/-- `Q = w[16]` (R64). -/
def fieldQuantity (w : Word) : Quantity := if w.getLsbD 16 then .humidity else .temperature

/-- The command a word stands for, or why it stands for none: R66 (a), then R66 (b). -/
def decode (w : Word) : Except DecodeError Instr :=
  match (fieldOp w).toNat with
  | 1 => if rowInit.fits w then .ok (.init (fieldVariant w) (fieldCap w)) else .error .mustBeZero
  | 2 => if rowCalibrate.fits w then .ok .calibrate else .error .mustBeZero
  | 3 => if rowAcquire.fits w then .ok (.acquire (fieldMaxatt w) (fieldLow16 w)) else .error .mustBeZero
  | 4 => if rowRead.fits w then .ok (.read (fieldMaxatt w) (fieldLow16 w)) else .error .mustBeZero
  | 5 => if rowSetdev.fits w then .ok (.setdev (fieldQuantity w) (fieldLow16 w)) else .error .mustBeZero
  | _ => .error .unassignedOpcode

/-- The `VARIANT` bit (R61, R69: `A` is 0, `B` is 1). -/
def Variant.bit : Variant → BitVec 1
  | .a => 0
  | .b => 1

/-- The `Q` bit (R64, R69: `T` is 0, `H` is 1). -/
def Quantity.bit : Quantity → BitVec 1
  | .temperature => 0
  | .humidity => 1

/-- The word of a command (R61 to R64; the assembler's table R69), most significant field first. -/
def encode : Instr → Word
  | .init variant cap => 0x1#4 ++ 0#19 ++ variant.bit ++ cap
  | .calibrate => 0x2#4 ++ 0#28
  | .acquire maxatt retryMs => 0x3#4 ++ 0#4 ++ maxatt ++ retryMs
  | .read maxatt retryMs => 0x4#4 ++ 0#4 ++ maxatt ++ retryMs
  | .setdev q permille => 0x5#4 ++ 0#11 ++ q.bit ++ permille

/-- The assembler's table (R69), from a mnemonic and its operands, as the table writes it: `variant << 8 | cap`,
`(maxatt & 0xFF) << 16 | retry_ms`, `q << 16 | permille`. -/
def assemble (mnemonic : String) (operands : List Int) : Option Word :=
  match mnemonic, operands with
  | "INIT", [variant, cap] => some (0x10000000 ||| BitVec.ofInt 32 variant <<< 8 ||| BitVec.ofInt 32 cap)
  | "CALIBRATE", [] => some 0x20000000
  | "ACQUIRE", [maxatt, retryMs] =>
    some (0x30000000 ||| (BitVec.ofInt 32 maxatt &&& 0xFF) <<< 16 ||| BitVec.ofInt 32 retryMs)
  | "READ", [maxatt, retryMs] =>
    some (0x40000000 ||| (BitVec.ofInt 32 maxatt &&& 0xFF) <<< 16 ||| BitVec.ofInt 32 retryMs)
  | "SETDEV", [q, permille] => some (0x50000000 ||| BitVec.ofInt 32 q <<< 16 ||| BitVec.ofInt 32 permille)
  | _, _ => none

/-- How a command is written (R69): its mnemonic and its operands' values (R65). -/
def assemblyOf : Instr → String × List Int
  | .init variant cap => ("INIT", [(variant.bit.toNat : Int), (cap.toNat : Int)])
  | .calibrate => ("CALIBRATE", [])
  | .acquire maxatt retryMs => ("ACQUIRE", [maxatt.toInt, (retryMs.toNat : Int)])
  | .read maxatt retryMs => ("READ", [maxatt.toInt, (retryMs.toNat : Int)])
  | .setdev q permille => ("SETDEV", [(q.bit.toNat : Int), (permille.toNat : Int)])

/-- The command a row's `nbits`-bit word `w` decodes to. A command is one 32-bit word (R60), moved whole by the
bus (20_memory.md R45), so the word's bits are the table's bits. -/
def decodeTableWord (nbits w : Nat) : Option Instr :=
  if nbits ≤ 32 then (decode (BitVec.ofNat 32 (w % 2 ^ nbits))).toOption else none

end Sys2Proof
end

