-- ==== Sys2Proof/Machine/State.lean ====
section
/-! DEFINITION. The machine's state: every element of 10_state.md (R10 to R23) in plain data, what stands outside the block (host, environment, reset input), the reasons a step can stop, and reset. -/

namespace Sys2Proof.Machine

/-- The control states of the sequencer (45_sequencer.md R150). -/
inductive Seq where
  | idle | dispatch
  | hs0 | hs1 | hs2 | hs3 | hs4 | hs5
  | poll | pdelay | phaseEnd | attEnd | retry | filter
  deriving DecidableEq, Repr

/-- Which phase is being counted (10_state.md R22). -/
inductive Phase where
  | ackLow | ackHigh | bitLow | bitHigh
  deriving DecidableEq, Repr

/-- What a command can end with (60_exceptions.md R165); codes 8..15 are never produced. -/
inductive ErrorCode where
  | none | illegalCommand | invalidArgument | notInitialised
  | checksumMismatch | degenerateFrame | deviationReject | calibrationFallback
  deriving DecidableEq, Repr

/-- One operation of the host (20_memory.md R40), and the poll of 30_encoding.md R72. -/
inductive HostOp where
  /-- `MemRead(addr, 4)` -/
  | read (addr : Addr)
  /-- `MemWrite(addr, 4, data)` -/
  | write (addr : Addr) (data : Word)
  /-- `WAIT`: one `MemRead(0x01, 4)` a turn, over when it answers `BUSY = 0` (R72) -/
  | wait
  deriving DecidableEq, Repr

/-- Who moves next (45_sequencer.md R145, R149); the reset input can be asserted, and released, at any time
(70_reset_and_hazards.md R185). -/
inductive Agent where
  | host
  | sequencer
  /-- The reset input is driven to a level: `true` asserted, `false` released. -/
  | resetInput (asserted : Bool)
  deriving DecidableEq, Repr

/-- The flags of `STATUS` (10_state.md R15); the word is `Status.toWord`. -/
structure Status where
  busy : Bool
  done : Bool
  ok : Bool
  inited : Bool
  calOk : Bool
  frameOk : Bool
  tAcc : Bool
  hAcc : Bool
  overrun : Bool
  err : ErrorCode
  deriving DecidableEq, Repr

/-- One noise filter (10_state.md R17, R19, R20). `written` says which slots some `Insert` has written since the
last reset (20_memory.md R46 (b)). -/
structure Filter where
  buf : Vector Word 16
  written : Vector Bool 16
  wr : Fin 16
  fill : Fin 17
  dev : BitVec 16
  last : Word
  deriving DecidableEq, Repr

/-- The whole state. The first five groups are the block's; then the level of its reset input; the last group is the
model's own: what stands outside the block, the OPEN parameters, and the counter of free draws. -/
structure State where
  -- data registers (R10 to R13)
  frame : Frame
  threshold : Count
  timeout : Count
  rawT : Word
  rawH : Word
  -- sequencer (R14)
  seq : Seq
  bitIdx : Fin 40
  attN : Fin 128
  calN : Fin 6
  cmdW : Word
  -- flags and configuration (R15, R16)
  status : Status
  variant : Variant
  cap : Fin 17
  -- noise filters (R17, R19, R20)
  t : Filter
  h : Filter
  -- hidden state (R22) and port trace (40_line_and_pulse_counter.md R80), newest event first
  bitErr : Bool
  sumLow : BitVec 22
  maxHigh : Count
  count : Count
  loCnt : Count
  phase : Phase
  shreg : Frame
  cause : ErrorCode
  dqOe : Bool
  dqOut : Level
  trace : List PortEvent
  -- the level of the reset input (70_reset_and_hazards.md R185): it is held asserted
  resetAsserted : Bool
  -- the model's own: OPEN parameters (log 1), environment (log 2), host and interleaving (log 3, log 4), free draws (log 7)
  params : Params
  script : List Level
  tail : Option Level
  hostOps : List HostOp
  turns : List Agent
  answers : List (Addr × Word)
  draws : Nat
  deriving DecidableEq, Repr

/-- Why the machine stops. -/
inductive Fault where
  /-- The sequencer is in a control state that its command never enters: `SETDEV` or an illegal word past `DISPATCH`,
  `FILTER` outside `READ`, `RETRY` while calibrating. Raised by `controlStep` and `sequencerStep`. Safe: no run from
  reset gets there (`Inv`), and the spec gives no step there (log 9). -/
  | strayControl
  deriving DecidableEq, Repr

/-- Why a command has no meaning. -/
inductive Refusal where
  /-- The command is not modelled yet. Raised by `exec` only. Safe. -/
  | notModelled (mnemonic : String)
  deriving DecidableEq, Repr

/-- `STATUS` after reset (10_state.md R23). -/
def Status.reset : Status where
  busy := false
  done := false
  ok := false
  inited := false
  calOk := false
  frameOk := false
  tAcc := false
  hAcc := false
  overrun := false
  err := .none

/-- A noise filter after reset (10_state.md R23): empty, no slot written. DESIGN CHOICE (log 6): the slots hold 0. -/
def Filter.reset : Filter where
  buf := Vector.replicate 16 0
  written := Vector.replicate 16 false
  wr := 0
  fill := 0
  dev := Config.devDefault
  last := Config.sentinel

/-- The machine right after reset: the block as 10_state.md R23 and 70_reset_and_hazards.md R185 say, the OPEN
parameters open (log 1), the line unconstrained (log 2), no host operation and no turn pending (log 3, log 4). The reset
input has been released (log 8). -/
def State.reset : State where
  frame := 0
  threshold := Config.thresholdDefault
  timeout := Config.params.timeoutInit
  rawT := 0
  rawH := 0
  seq := .idle
  bitIdx := 0
  attN := 0
  calN := 0
  cmdW := 0
  status := Status.reset
  variant := .a
  cap := 0
  t := Filter.reset
  h := Filter.reset
  bitErr := false
  sumLow := 0
  maxHigh := 0
  count := 0
  loCnt := 0
  phase := .ackLow
  shreg := 0
  cause := .none
  dqOe := false
  dqOut := .high
  trace := []
  resetAsserted := false
  params := Config.params
  script := []
  tail := none
  hostOps := []
  turns := []
  answers := []
  draws := 0

end Sys2Proof.Machine
end

