-- ==== Sys2Proof/Machine/Flags.lean ====
section
/-! DEFINITION. The flags of STATUS (10_state.md R15): the word, what taking a command clears, what completing one sets; and the error codes (60_exceptions.md R165). -/

namespace Sys2Proof.Machine

/-- The code of an error in `STATUS.ERR` (R165). -/
def ErrorCode.code : ErrorCode → BitVec 4
  | .none => 0
  | .illegalCommand => 1
  | .invalidArgument => 2
  | .notInitialised => 3
  | .checksumMismatch => 4
  | .degenerateFrame => 5
  | .deviationReject => 6
  | .calibrationFallback => 7

/-- `STATUS` as one word, bit 31 first: 31:16 reserved, 15:12 `ERR`, 11:9 reserved, then `OVERRUN` (8) down to
`BUSY` (0) (R15). -/
def Status.toWord (f : Status) : Word :=
  0#16 ++ f.err.code ++ 0#3 ++ BitVec.ofBool f.overrun ++ BitVec.ofBool f.hAcc ++ BitVec.ofBool f.tAcc ++
    BitVec.ofBool f.frameOk ++ BitVec.ofBool f.calOk ++ BitVec.ofBool f.inited ++ BitVec.ofBool f.ok ++
    BitVec.ofBool f.done ++ BitVec.ofBool f.busy

/-- The flags when a command write is taken (R15, 45_sequencer.md R146): `DONE`, `OK`, `ERR`, `T_ACC`, `H_ACC` are
cleared and `BUSY` is set. -/
def Status.taken (f : Status) : Status :=
  { f with done := false, ok := false, err := .none, tAcc := false, hAcc := false, busy := true }

/-- The flags when a command completes (45_sequencer.md R148). -/
def Status.completed (ok : Bool) (err : ErrorCode) (f : Status) : Status :=
  { f with ok := ok, err := err, done := true, busy := false }

/-- The flags `INIT` writes before it calibrates (41_calibrator.md R104). -/
def Status.initStarted (f : Status) : Status :=
  { f with inited := true, calOk := false, frameOk := false, overrun := false }

end Sys2Proof.Machine
end

