-- ==== Sys2Proof/Machine/Operands.lean ====
section
/-! DEFINITION. Operand assembly (30_encoding.md R65): the value of each operand field. No operand is scaled or shifted. -/

namespace Sys2Proof.Machine

/-- `maxatt = sext_8(cmd_w[23:16])` (R65). -/
def maxattValue (maxatt : BitVec 8) : Int := maxatt.toInt

/-- `retry_ms = zext_16(cmd_w[15:0])` (R65). -/
def retryMsValue (retryMs : BitVec 16) : Nat := retryMs.toNat

/-- `cap = zext_8(cmd_w[7:0])` as the register field `CFG.CAP`, 0..16 (R65, 10_state.md R16). Only used when `cap ≤ 16`. -/
def capValue (cap : BitVec 8) : Fin 17 := Fin.ofNat 17 cap.toNat

/-- R66 (d): every command but `INIT` needs `STATUS.INITED = 1`. -/
def needsInit : Instr → Bool
  | .init _ _ => false
  | .calibrate => true
  | .acquire _ _ => true
  | .read _ _ => true
  | .setdev _ _ => true

end Sys2Proof.Machine
end

