-- ==== Sys2Proof/Machine/Ops.lean ====
section
/-! DEFINITION. The shared operations: the five port primitives (R80), moving and completing a command (R146, R148), raising an error (R166), reset (R185), and reading a register by its address (R41). -/

namespace Sys2Proof.Machine

/-- The outcome of a step of this machine. -/
abbrev Out := Host.Outcome State Fault Refusal

/-! ### The port primitives (40_line_and_pulse_counter.md R80) -/

/-- Each call of a primitive appends one event to the port trace (R80); newest first (log 18). -/
def emit (e : PortEvent) (s : State) : State := { s with trace := e :: s.trace }

/-- `PortSetMode(m)`: `dq_oe <- 1` if `m` is `output`, else 0 (R80). -/
def portSetMode (m : PortMode) (s : State) : State := emit (.mode m) { s with dqOe := decide (m = .output) }

/-- `PortWrite(l)`: `dq_out <- l` (R80). -/
def portWrite (l : Level) (s : State) : State := emit (.write l) { s with dqOut := l }

/-- The level the environment answers now: the next scripted sample, then the tail level, with neither the free
oracle given the trace so far (R81, log 2). -/
def lineLevel (s : State) : Level :=
  match s.script with
  | v :: _ => v
  | [] =>
    match s.tail with
    | some v => v
    | none => Config.lineOracle s.trace

/-- `PortRead()`: the state after it; the answer is `lineLevel` of the state before it. One sample is consumed (R80, R81). -/
def portRead (s : State) : State := emit (.read (lineLevel s)) { s with script := s.script.tail }

/-- `PortDelayMillis(n)`: a trace event, no state change (R80, R81). -/
def portDelayMillis (n : Nat) (s : State) : State := emit (.delayMs n) s

/-- `PortDelayMicros(n)`: a trace event, no state change (R80, R81). -/
def portDelayMicros (n : Nat) (s : State) : State := emit (.delayUs n) s

/-! ### Moving, taking and completing a command -/

/-- `pc <- q`: the sequencer moves to a control state (00_scope.md section 4). -/
def goto (q : Seq) (s : State) : State := { s with seq := q }

/-- A command write taken while `BUSY = 0` (45_sequencer.md R146). -/
def latchCommand (w : Word) (s : State) : State :=
  { s with cmdW := w, status := s.status.taken, seq := .dispatch }

/-- `complete(OK <- ok, ERR <- err)` (45_sequencer.md R148). -/
def complete (ok : Bool) (err : ErrorCode) (s : State) : State :=
  { s with status := s.status.completed ok err, seq := .idle }

/-- `raise <Err>`: TAKING AN EXCEPTION on this hardware. The command completes with `OK = 0` and the code; nothing is
saved and no control is transferred (60_exceptions.md R166, R170). There is no return from one (R171). -/
def raise (err : ErrorCode) (s : State) : State := complete false err s

/-- The checks (c) and (d) of 30_encoding.md R66, in that order, at `DISPATCH`; `go` is what the command does when
both pass. Checks (a) and (b) are `decode`'s. -/
def checked (i : Instr) (s : State) (go : Out) : Out :=
  if i.wellFormed = false then .next (raise .invalidArgument s)
  else if needsInit i = true ∧ s.status.inited = false then .next (raise .notInitialised s)
  else go

/-! ### Reset -/

/-- Every element of the block takes its reset value, and a running command is abandoned without a `complete` step
(70_reset_and_hazards.md R185). The level of the reset input, what stands outside the block, the record of the port trace
and of the host's reads stay (log 8). -/
def hardReset (s : State) : State :=
  { State.reset with
    timeout := s.params.timeoutInit
    trace := s.trace
    resetAsserted := s.resetAsserted
    params := s.params
    script := s.script
    tail := s.tail
    hostOps := s.hostOps
    turns := s.turns
    answers := s.answers
    draws := s.draws }

/-- The reset input is driven to a level. Every element holds its reset value while it is asserted and at the moment
it is released (R185). -/
def setResetInput (asserted : Bool) (s : State) : State := hardReset { s with resetAsserted := asserted }

/-- While the reset input is asserted every element holds its reset value, whatever has been done to the block (R185). -/
def holdReset (s : State) : State := if s.resetAsserted then hardReset s else s

/-! ### The host register space (20_memory.md R41) -/

/-- `CFG` as one word: bit 8 `VARIANT`, bits 7:0 `CAP`, other bits 0 (10_state.md R16). -/
def cfgWord (s : State) : Word :=
  0#23 ++ (match s.variant with | .a => 0#1 | .b => 1#1) ++ BitVec.ofNat 8 s.cap.val

/-- `FSTAT` as one word: bits 7:0 `F.wr`, bits 15:8 `F.fill`, other bits 0 (R41). -/
def Filter.statWord (f : Filter) : Word :=
  0#16 ++ BitVec.ofNat 8 f.fill.val ++ BitVec.ofNat 8 f.wr.val

/-- Slot `i` of the buffers' two address ranges is `addr[3:0]` (R41: 0x10 + i and 0x20 + i). -/
def slotOf (addr : Addr) : Fin 16 := Fin.ofNat 16 (addr.toNat % 16)

/-- The word the address map gives for an address, from the state at the time of the read (R41, R42). `CMD` reads 0
(10_state.md R18), reserved addresses read 0. -/
def regWord (s : State) (addr : Addr) : Word :=
  match addr.toNat with
  | 0x01 => s.status.toWord
  | 0x02 => cfgWord s
  | 0x03 => s.threshold.setWidth 32
  | 0x04 => s.timeout.setWidth 32
  | 0x05 => s.frame.extractLsb' 8 32
  | 0x06 => (s.frame.extractLsb' 0 8).setWidth 32
  | 0x07 => s.rawT
  | 0x08 => s.rawH
  | 0x09 => s.t.last
  | 0x0A => s.h.last
  | 0x0B => s.t.dev.setWidth 32
  | 0x0C => s.h.dev.setWidth 32
  | 0x0D => s.t.statWord
  | 0x0E => s.h.statWord
  | n =>
    if 0x10 ≤ n ∧ n < 0x20 then s.t.buf[slotOf addr]
    else if 0x20 ≤ n ∧ n < 0x30 then s.h.buf[slotOf addr]
    else 0

/-- A slot that no `Insert` has written since the last reset (20_memory.md R46 (b)). -/
def slotUnwritten (s : State) (addr : Addr) : Bool :=
  if 0x10 ≤ addr.toNat ∧ addr.toNat < 0x20 then !s.t.written[slotOf addr]
  else if 0x20 ≤ addr.toNat ∧ addr.toNat < 0x30 then !s.h.written[slotOf addr]
  else false

/-- The two cases in which a read returns an unspecified word (R46): any address but `STATUS` while busy, and an
unwritten slot. -/
def readsUnspecified (s : State) (addr : Addr) : Bool :=
  (s.status.busy && addr != 0x01) || slotUnwritten s addr

/-- The word a read answers (R42, R46): the register's, or a free draw. -/
def readAnswer (s : State) (addr : Addr) : Word :=
  if readsUnspecified s addr then Config.freeWord s.draws else regWord s addr

/-- `MemRead(addr, 4)`: the answer is recorded for the host; no block state changes (R42). A free draw is used once
(log 7). -/
def memRead (addr : Addr) (s : State) : State :=
  { s with
    answers := (addr, readAnswer s addr) :: s.answers
    draws := if readsUnspecified s addr then s.draws + 1 else s.draws }

/-- A write to `CMD` (45_sequencer.md R146): taken when `BUSY = 0`, otherwise dropped with `OVERRUN` set. -/
def commandWrite (w : Word) (s : State) : State :=
  if s.status.busy then { s with status := { s.status with overrun := true } } else latchCommand w s

/-- `MemWrite(addr, 4, w)`: a command write at 0x00, ignored at every other address (20_memory.md R43). -/
def memWrite (addr : Addr) (w : Word) (s : State) : State :=
  if addr = 0x00 then commandWrite w s else s

end Sys2Proof.Machine
end

