-- ==== Sys2Proof/Machine/Line.lean ====
section
/-! DEFINITION. One acquisition attempt (40_line_and_pulse_counter.md R82 to R88): frame bytes and validity, the value of a bit, what one bit adds to the attempt, the attempt's tail, and the sequencer's steps that drive the line (45_sequencer.md R150, R151). -/

namespace Sys2Proof.Machine

/-- `byte(k) = FRAME[39 − 8k : 32 − 8k]`, k = 0..4 (10_state.md R10). -/
def frameByte (f : Frame) (k : Nat) : BitVec 8 := f.extractLsb' (32 - 8 * k) 8

/-- `(byte0 + byte1 + byte2 + byte3) mod 256` (10_state.md R10, R87). -/
def checksum (f : Frame) : Nat :=
  ((frameByte f 0).toNat + (frameByte f 1).toNat + (frameByte f 2).toNat + (frameByte f 3).toNat) % 256

/-- Byte 4 is the checksum of bytes 0 to 3 (R87). -/
def checksumMatches (f : Frame) : Bool := (frameByte f 4).toNat == checksum f

/-- `FrameValid(f)`: the checksum matches and not all five bytes are zero (R87). -/
def frameValid (f : Frame) : Bool := checksumMatches f && f != 0

/-- Why an attempt with these bits failed, or none: a timed-out bit first, then the checksum, then the all-zero frame
(R88, 60_exceptions.md R169). -/
def attemptCause (bitErr : Bool) (f : Frame) : ErrorCode :=
  if bitErr then .checksumMismatch
  else if checksumMatches f = false then .checksumMismatch
  else if f = 0 then .degenerateFrame
  else .none

/-- `BitValue(lo, hi, cal)`: the HIGH count against `THRESHOLD`, or while calibrating under `CAL_BIT_RULE = SELF`
against the bit's own LOW count; strict (R86). -/
def bitValue (cal : Bool) (lo hi : Count) (s : State) : Bool :=
  let ref := if cal = true ∧ s.params.calBitRule = .self then lo else s.threshold
  decide (ref < hi)

/-- A phase's count reached `TIMEOUT` in one of the bit's two phases (R85). -/
def bitFails (lo hi : Count) (s : State) : Bool := lo == s.timeout || hi == s.timeout

/-- What one bit slot adds to the attempt, from `lo_cnt` and `count` (R88, 45_sequencer.md R151): the accumulators,
the sticky `bit_err`, and the bit shifted in, 0 for a failed slot. -/
def recordBit (cal : Bool) (s : State) : State :=
  let lo := s.loCnt
  let hi := s.count
  let bit := !bitFails lo hi s && bitValue cal lo hi s
  { s with
    sumLow := s.sumLow + lo.setWidth 22
    maxHigh := if s.maxHigh < hi then hi else s.maxHigh
    bitErr := s.bitErr || bitFails lo hi s
    shreg := (s.shreg <<< 1) ||| (BitVec.ofBool bit).setWidth 40 }

/-- The first line of `Attempt` (R88). -/
def clearAttempt (s : State) : State :=
  { s with bitErr := false, sumLow := 0, maxHigh := 0, shreg := 0 }

/-- The tail of `Attempt` (R88): `FRAME <- shreg`, the cause, `STATUS.FRAME_OK`. -/
def attemptTail (s : State) : State :=
  let cause := attemptCause s.bitErr s.shreg
  { s with
    frame := s.shreg
    cause := cause
    status := { s.status with frameOk := decide (cause = .none) } }

/-- `level(phase)` (45_sequencer.md R150). -/
def Phase.level : Phase → Level
  | .ackLow => .low
  | .ackHigh => .high
  | .bitLow => .low
  | .bitHigh => .high

/-- Start counting a phase: `phase <- p ; count <- 0 ; pc <- POLL` (45_sequencer.md R151). -/
def startPhase (p : Phase) (s : State) : State := { s with phase := p, count := 0, seq := .poll }

/-- `count <- 0` (R82). -/
def clearCount (s : State) : State := { s with count := 0 }

/-- `count <- count + 1` (R82). -/
def countPoll (s : State) : State := { s with count := s.count + 1 }

/-- The `POLL` step (45_sequencer.md R150). -/
def pollStep (s : State) : State :=
  if lineLevel s ≠ s.phase.level then goto .phaseEnd (portRead s)
  else goto .pdelay (countPoll (portRead s))

/-- The `PDELAY` step (45_sequencer.md R150). -/
def pdelayStep (s : State) : State :=
  goto (if s.count = s.timeout then .phaseEnd else .poll) (portDelayMicros s.params.pollUs s)

/-- `lo_cnt <- count` (R85). -/
def saveLow (s : State) : State := { s with loCnt := s.count }

/-- `bit_idx <- k` (45_sequencer.md R151). -/
def setBitIdx (k : Fin 40) (s : State) : State := { s with bitIdx := k }

/-- The `PHASE_END` step (45_sequencer.md R151). -/
def phaseEndStep (cal : Bool) (s : State) : State :=
  match s.phase with
  | .ackLow => startPhase .ackHigh s
  | .ackHigh => startPhase .bitLow (setBitIdx 0 s)
  | .bitLow => startPhase .bitHigh (saveLow s)
  | .bitHigh =>
    if s.bitIdx < 39 then startPhase .bitLow (setBitIdx (s.bitIdx + 1) (recordBit cal s))
    else goto .attEnd (recordBit cal s)

/-- The sequencer's step of one command (45_sequencer.md R150). The rows that do not depend on the command stand
here; `cal` says whether it is calibrating, and `dispatch`, `attEnd`, `retry` and `filter` are the command's own
outcomes in those four control states. In `IDLE` the sequencer has no step. -/
def controlStep (cal : Bool) (s : State) (dispatch attEnd retry filter : Out) : Out :=
  match s.seq with
  | .idle => .next s
  | .dispatch => dispatch
  | .hs0 => .next (goto .hs1 (portSetMode .output (clearAttempt s)))
  | .hs1 => .next (goto .hs2 (portWrite .low s))
  | .hs2 => .next (goto .hs3 (portDelayMillis Config.startLowMs s))
  | .hs3 => .next (goto .hs4 (portWrite .high s))
  | .hs4 => .next (goto .hs5 (portDelayMicros s.params.startHighUs s))
  | .hs5 => .next (startPhase .ackLow (portSetMode .input s))
  | .poll => .next (pollStep s)
  | .pdelay => .next (pdelayStep s)
  | .phaseEnd => .next (phaseEndStep cal s)
  | .attEnd => attEnd
  | .retry => retry
  | .filter => filter

end Sys2Proof.Machine
end

