-- ==== Sys2Proof/Machine/Acquirer.lean ====
section
/-! DEFINITION. The frame acquirer's retry loop and the command ACQUIRE (42_frame_acquirer.md R110 to R113, 45_sequencer.md R147, R153). -/

namespace Sys2Proof.Machine

/-- `att_n <- 0` (R110). -/
def clearAttN (s : State) : State := { s with attN := 0 }

/-- `att_n <- 0` and on to the first attempt (45_sequencer.md R147). -/
def startAcquire (s : State) : State := goto .hs0 (clearAttN s)

/-- One more failed attempt, counted only when `maxatt > 0` (R110, R112). -/
def countAttempt (maxatt : BitVec 8) (s : State) : State :=
  { s with attN := if 0 < maxattValue maxatt then s.attN + 1 else s.attN }

/-- The budget is exhausted: `maxatt > 0` and `att_n = maxatt` (R110). -/
def budgetExhausted (maxatt : BitVec 8) (s : State) : Bool :=
  decide (0 < maxattValue maxatt ∧ (s.attN.val : Int) = maxattValue maxatt)

/-- The `ATT_END` step of `ACQUIRE` and `READ` (45_sequencer.md R153): the attempt's tail, then `success`, or the
failure when the budget is exhausted, or a retry. -/
def acquireAttEnd (maxatt : BitVec 8) (success : State → State) (s : State) : State :=
  let a := attemptTail s
  if a.cause = .none then success a
  else
    let b := countAttempt maxatt a
    if budgetExhausted maxatt b then complete false b.cause b else goto .retry b

/-- The `RETRY` step (45_sequencer.md R150). -/
def retryStep (retryMs : BitVec 16) (s : State) : State :=
  goto .hs0 (portDelayMillis (retryMsValue retryMs) s)

/-- `ACQUIRE maxatt, retry_ms` (R113). -/
def execAcquire (maxatt : BitVec 8) (retryMs : BitVec 16) (s : State) : Out :=
  controlStep false s (checked (.acquire maxatt retryMs) s (.next (startAcquire s)))
    (.next (acquireAttEnd maxatt (complete true .none) s)) (.next (retryStep retryMs s)) (.fault .strayControl)

end Sys2Proof.Machine
end

