-- ==== Sys2Proof/Machine/Calibrator.lean ====
section
/-! DEFINITION. The calibrator, and the commands CALIBRATE and INIT (41_calibrator.md R100 to R104, 45_sequencer.md R147, R153). -/

namespace Sys2Proof.Machine

/-- `THRESHOLD <- sum_low div 40` (R101; the quotient fits 16 bits in every state a run reaches, log 16). -/
def calThreshold (sumLow : BitVec 22) : Count := BitVec.ofNat 16 (sumLow.toNat / 40)

/-- `TIMEOUT <- min(65535, max_high + (max_high div 4))` (R101). -/
def calTimeout (maxHigh : Count) : Count := BitVec.ofNat 16 (min 65535 (maxHigh.toNat + maxHigh.toNat / 4))

/-- The success exit of `Calibrate` (R100). -/
def calibrateSuccess (s : State) : State :=
  { s with
    threshold := calThreshold s.sumLow
    timeout := calTimeout s.maxHigh
    status := { s.status with calOk := true } }

/-- The failure exit of `Calibrate` (R100): the default threshold, `TIMEOUT` unchanged. -/
def calibrateFallback (s : State) : State :=
  { s with
    threshold := Config.thresholdDefault
    status := { s.status with calOk := false } }

/-- One more failed calibration attempt (R100). -/
def countCalFailure (s : State) : State := { s with calN := s.calN + 1 }

/-- The `ATT_END` step of `INIT` and `CALIBRATE` (45_sequencer.md R153): the attempt's tail, then success, or the next
attempt with no delay, or after five failures the fallback. -/
def calibrationAttEnd (s : State) : State :=
  let a := attemptTail s
  if a.cause = .none then complete true .none (calibrateSuccess a)
  else
    let b := countCalFailure a
    if b.calN.val = Config.calAttempts then complete false .calibrationFallback (calibrateFallback b)
    else goto .hs0 b

/-- A filter as `INIT` leaves it: the slots are not cleared (R104, 10_state.md R19). -/
def Filter.initStarted (f : Filter) : Filter :=
  { f with last := Config.sentinel, dev := Config.devDefault, wr := 0, fill := 0 }

/-- The assignments of `INIT` before `Calibrate()` (R104). -/
def initAssign (variant : Variant) (cap : BitVec 8) (s : State) : State :=
  { s with
    variant := variant
    cap := capValue cap
    status := s.status.initStarted
    threshold := Config.thresholdDefault
    timeout := s.params.timeoutInit
    frame := 0
    rawT := 0
    rawH := 0
    t := s.t.initStarted
    h := s.h.initStarted }

/-- `cal_n <- 0` (R100). -/
def clearCalN (s : State) : State := { s with calN := 0 }

/-- `cal_n <- 0` and on to the first attempt (45_sequencer.md R147). -/
def startCalibration (s : State) : State := goto .hs0 (clearCalN s)

/-- `CALIBRATE` (R103). -/
def execCalibrate (s : State) : Out :=
  controlStep true s (checked .calibrate s (.next (startCalibration s))) (.next (calibrationAttEnd s))
    (.fault .strayControl) (.fault .strayControl)

/-- `INIT variant, cap` (R104). -/
def execInit (variant : Variant) (cap : BitVec 8) (s : State) : Out :=
  controlStep true s (checked (.init variant cap) s (.next (startCalibration (initAssign variant cap s))))
    (.next (calibrationAttEnd s)) (.fault .strayControl) (.fault .strayControl)

end Sys2Proof.Machine
end

