-- ==== Sys2Proof/Machine/Decoder.lean ====
section
/-! DEFINITION. The decoder, variants A and B (43_decoder.md R120 to R124), in units of 0.001. -/

namespace Sys2Proof.Machine

/-- `Frac(n)`: the byte as decimal digits after the decimal point, in thousandths (R121). -/
def frac (n : BitVec 8) : Nat :=
  if n.toNat = 0 then 0
  else if n.toNat ≤ 9 then n.toNat * 100
  else if n.toNat ≤ 99 then n.toNat * 10
  else n.toNat

/-- `DecodeA`: temperature and humidity (R122). -/
def decodeA (b0 b1 b2 b3 : BitVec 8) : Int × Int :=
  (((b2.toNat * 1000 + frac b3 : Nat) : Int), ((b0.toNat * 1000 + frac b1 : Nat) : Int))

/-- `DecodeB`: the temperature is sign and magnitude (R123). -/
def decodeB (b0 b1 b2 b3 : BitVec 8) : Int × Int :=
  let m : Int := (((b2.toNat % 128) * 256 + b3.toNat) * 100 : Nat)
  let h : Int := ((b0.toNat * 256 + b1.toNat) * 100 : Nat)
  (if 128 ≤ b2.toNat then -m else m, h)

/-- `Decode(FRAME, VARIANT)`: temperature and humidity; byte 4 is not used (R120). -/
def decodeFrame (variant : Variant) (f : Frame) : Int × Int :=
  match variant with
  | .a => decodeA (frameByte f 0) (frameByte f 1) (frameByte f 2) (frameByte f 3)
  | .b => decodeB (frameByte f 0) (frameByte f 1) (frameByte f 2) (frameByte f 3)

end Sys2Proof.Machine
end

