-- ==== Sys2Proof/Machine/Filter.lean ====
section
/-! DEFINITION. The noise filter, and the commands SETDEV and READ (44_noise_filter.md R131 to R138). -/

namespace Sys2Proof.Machine

/-- `(F.wr + 1) mod CAP` (R131). -/
def nextSlot (cap : Fin 17) (wr : Fin 16) : Fin 16 := Fin.ofNat 16 ((wr.val + 1) % cap.val)

/-- `Insert(F, raw)`, called only with `CAP ≥ 1` (R131). -/
def Filter.insert (cap : Fin 17) (raw : Word) (f : Filter) : Filter :=
  { f with
    buf := f.buf.set f.wr raw
    written := f.written.set f.wr true
    wr := nextSlot cap f.wr
    fill := if f.fill < cap then f.fill + 1 else f.fill }

/-- Put one value in its place in a non-decreasing list. -/
def insertSorted (x : Int) : List Int → List Int
  | [] => [x]
  | y :: ys => if x ≤ y then x :: y :: ys else y :: insertSorted x ys

/-- `sorted(list)`: non-decreasing (00_scope.md section 4). -/
def sortInts : List Int → List Int
  | [] => []
  | x :: xs => insertSorted x (sortInts xs)

/-- The used slots `F.buf[0 .. CAP − 1]` as signed integers (R132). -/
def Filter.contents (cap : Fin 17) (f : Filter) : List Int := (f.buf.toList.take cap.val).map BitVec.toInt

/-- `Median(F)`, called only when `F.fill = CAP ≥ 1`: the element at 0-based index `CAP div 2` of the sorted copy (R132). -/
def Filter.median (cap : Fin 17) (f : Filter) : Int := (sortInts (f.contents cap)).getD (cap.val / 2) 0

/-- `Within(raw, med, dev)`: `abs(raw − med) × 1000 ≤ med × dev` over the integers (R134). -/
def within (raw med : Int) (dev : BitVec 16) : Bool :=
  decide (((raw - med).natAbs : Int) * 1000 ≤ med * (dev.toNat : Int))

/-- Whether `Accept(F, raw)` accepts: with `CAP = 0` and during warm-up always, else within the fraction of the median
of the contents before this insertion (R133). -/
def Filter.accepts (cap : Fin 17) (raw : Word) (f : Filter) : Bool :=
  if cap.val = 0 then true
  else if f.fill < cap then true
  else within raw.toInt (f.median cap) f.dev

/-- The filter after `Accept(F, raw)`: `F.last` moves on acceptance; the value is inserted whether accepted or not,
unless `CAP = 0` (R133). -/
def Filter.accept (cap : Fin 17) (raw : Word) (f : Filter) : Filter :=
  let g := if f.accepts cap raw then { f with last := raw } else f
  if cap.val = 0 then g else g.insert cap raw

/-- `SETDEV`'s write of `T.dev` or `H.dev` (R137). -/
def setDeviation (q : Quantity) (permille : BitVec 16) (s : State) : State :=
  match q with
  | .temperature => { s with t := { s.t with dev := permille } }
  | .humidity => { s with h := { s.h with dev := permille } }

/-- `SETDEV q, permille` (R137). It completes in its `DISPATCH` step (45_sequencer.md R147), so it is in no later
control state. -/
def execSetdev (q : Quantity) (permille : BitVec 16) (s : State) : Out :=
  match s.seq with
  | .idle => .next s
  | .dispatch => checked (.setdev q permille) s (.next (complete true .none (setDeviation q permille s)))
  | .hs0 | .hs1 | .hs2 | .hs3 | .hs4 | .hs5 | .poll | .pdelay | .phaseEnd | .attEnd | .retry | .filter =>
    .fault .strayControl

/-- The part of `READ` from `Decode` up to, not including, `complete` (R138). -/
def filterReading (s : State) : State :=
  let reading := decodeFrame s.variant s.frame
  let rawT := BitVec.ofInt 32 reading.1
  let rawH := BitVec.ofInt 32 reading.2
  { s with
    rawT := rawT
    rawH := rawH
    t := s.t.accept s.cap rawT
    h := s.h.accept s.cap rawH
    status := { s.status with tAcc := s.t.accepts s.cap rawT, hAcc := s.h.accepts s.cap rawH } }

/-- The `FILTER` step (45_sequencer.md R150): the part of `READ` from `Decode` to the end (R138). -/
def filterStep (s : State) : State :=
  let r := filterReading s
  if r.status.tAcc = true ∧ r.status.hAcc = true then complete true .none r
  else complete false .deviationReject r

/-- `READ maxatt, retry_ms` (R138). -/
def execRead (maxatt : BitVec 8) (retryMs : BitVec 16) (s : State) : Out :=
  controlStep false s (checked (.read maxatt retryMs) s (.next (startAcquire s)))
    (.next (acquireAttEnd maxatt (goto .filter) s)) (.next (retryStep retryMs s)) (.next (filterStep s))

end Sys2Proof.Machine
end

