-- ==== Sys2Proof/Machine/Dispatch.lean ====
section
/-! DEFINITION. One arm for each command: the sequencer's step while the command is `i` (45_sequencer.md R147, R150, R153). -/

namespace Sys2Proof.Machine

def exec (i : Instr) (s : State) : Host.Outcome State Fault Refusal :=
  match i with
  | .init variant cap => Sys2Proof.Machine.execInit variant cap s
  | .calibrate => Sys2Proof.Machine.execCalibrate s
  | .acquire maxatt retryMs => Sys2Proof.Machine.execAcquire maxatt retryMs s
  | .read maxatt retryMs => Sys2Proof.Machine.execRead maxatt retryMs s
  | .setdev q permille => Sys2Proof.Machine.execSetdev q permille s

end Sys2Proof.Machine
end

