-- ==== Sys2Proof/Machine/Agents.lean ====
section
/-! DEFINITION. The three agents and the reset input (45_sequencer.md R145, R149): what each does in its turn, who moves next, and the host's pseudo-operations (30_encoding.md R69, R72). -/

namespace Sys2Proof.Machine

/-- The sequencer's step. Every step executes from the latched word `cmd_w` (20_memory.md R49). A word that is no
command completes at `DISPATCH` with IllegalCommand (30_encoding.md R66 (a), (b)). In `IDLE` there is no step. -/
def sequencerStep (s : State) : Out :=
  match s.seq with
  | .idle => .next s
  | .dispatch =>
    match decode s.cmdW with
    | .ok i => exec i s
    | .error _ => .next (raise .illegalCommand s)
  | .hs0 | .hs1 | .hs2 | .hs3 | .hs4 | .hs5 | .poll | .pdelay | .phaseEnd | .attEnd | .retry | .filter =>
    match decode s.cmdW with
    | .ok i => exec i s
    | .error _ => .fault .strayControl

/-- The host's turn: one bus operation, the next in issue order (20_memory.md R44, R47). `WAIT` stays until its read of
`STATUS` answers `BUSY = 0` (30_encoding.md R72). With no operation left nothing happens. -/
def hostStep (s : State) : State :=
  match s.hostOps with
  | [] => s
  | .read addr :: rest => memRead addr { s with hostOps := rest }
  | .write addr w :: rest => memWrite addr w { s with hostOps := rest }
  | .wait :: rest => memRead 0x01 { s with hostOps := if s.status.busy then .wait :: rest else rest }

/-- Who moves next (R149): the next turn; with no turn left, the sequencer while a command runs, else the host if it
has an operation (log 3). -/
def nextAgent (s : State) : Agent :=
  match s.turns with
  | a :: _ => a
  | [] => if s.seq = .idle ∧ s.hostOps ≠ [] then .host else .sequencer

/-- The state with this turn used up. -/
def passTurn (s : State) : State := { s with turns := s.turns.tail }

/-- One step of the whole machine: the next agent's. While the reset input is asserted no command runs, and what a bus
operation would write is not held (70_reset_and_hazards.md R185, log 8). -/
def machineStep (s : State) : Out :=
  match nextAgent s with
  | .host => .next (holdReset (hostStep (passTurn s)))
  | .sequencer => if s.resetAsserted then .next (hardReset (passTurn s)) else sequencerStep (passTurn s)
  | .resetInput asserted => .next (setResetInput asserted (passTurn s))

/-! ### Host programs (30_encoding.md R69, R72) -/

/-- A command line stands for a write of its word to `CMD` followed by `WAIT` (R69). -/
def commandLine (i : Instr) : List HostOp := [.write 0x00 (encode i), .wait]

/-- `construct(variant, cap)` (R72). -/
def constructOps (variant : Variant) (cap : BitVec 8) : List HostOp := commandLine (.init variant cap)

/-- `read()` (R72). -/
def readOps (maxatt : BitVec 8) (retryMs : BitVec 16) : List HostOp := commandLine (.read maxatt retryMs)

/-- `calibrate()` (R72). -/
def calibrateOps : List HostOp := commandLine .calibrate

/-- `acquireFrame(m, d)`: the command, then the frame in `FRAME_LO`, `FRAME_HI` (R72). -/
def acquireFrameOps (maxatt : BitVec 8) (retryMs : BitVec 16) : List HostOp :=
  commandLine (.acquire maxatt retryMs) ++ [.read 0x05, .read 0x06]

/-- `lastTemperature()` (R72). -/
def lastTemperatureOps : List HostOp := [.read 0x09]

/-- `lastHumidity()` (R72). -/
def lastHumidityOps : List HostOp := [.read 0x0A]

/-- `round(x)`: the nearest integer; which one halfway between two is left open (R72, log 20). -/
def roundNearest (x : Rat) : Int :=
  let n := x.floor
  if x - n < 1 / 2 then n
  else if 1 / 2 < x - n then n + 1
  else if Config.roundTieUp n then n + 1 else n

/-- `round(f × 1000)`, the per-mille operand of a deviation fraction (R72). -/
def perMille (f : Rat) : Int := roundNearest (f * 1000)

/-- `setMaxDeviation(q, f)`: `SETDEV q, round(f × 1000)` (R72). `none` where the field `PERMILLE`, 0..65535, does not
hold the operand (R64): there is no such command (log 20). -/
def setMaxDeviationOps (q : Quantity) (f : Rat) : Option (List HostOp) :=
  if 0 ≤ perMille f ∧ perMille f ≤ 65535 then some (commandLine (.setdev q (BitVec.ofInt 16 (perMille f)))) else none

/-! ### What a pseudo-operation returns (R72), from the host's record of its reads -/

/-- The result of the last `WAIT` that is over: `s[2]` (`OK`) of the last read `s` of `STATUS` with `s[0] = 0`. -/
def waitResult (s : State) : Option Bool :=
  (s.answers.find? fun a => a.1 == 0x01 && !a.2.getLsbD 0).map fun a => a.2.getLsbD 2

/-- What the last read of an address answered. -/
def lastAnswer (addr : Addr) (s : State) : Option Word := (s.answers.find? fun a => a.1 == addr).map Prod.snd

/-- The result of `acquireFrame(m, d)`: `OK`, and the frame in `FRAME_LO`, `FRAME_HI` (20_memory.md R41). -/
def acquireFrameResult (s : State) : Option (Bool × Frame) :=
  match waitResult s, lastAnswer 0x05 s, lastAnswer 0x06 s with
  | some ok, some lo, some hi => some (ok, lo ++ hi.extractLsb' 0 8)
  | _, _, _ => none

/-- The value of a reading's word, in °C or %RH: `sext_32(word) / 1000` (R72). -/
def readingValue (w : Word) : Rat := (w.toInt : Rat) / 1000

/-- The result of `lastTemperature()`. -/
def lastTemperatureResult (s : State) : Option Rat := (lastAnswer 0x09 s).map readingValue

/-- The result of `lastHumidity()`. -/
def lastHumidityResult (s : State) : Option Rat := (lastAnswer 0x0A s).map readingValue

end Sys2Proof.Machine
end

