-- ==== Sys2Proof/Machine/Step.lean ====
section
/-! DEFINITION. One step of the machine, and how an instruction word is put where the next step runs it. -/

namespace Sys2Proof.Machine

/-- One step: one host bus operation, one sequencer step, or a change of the reset input (45_sequencer.md R149,
70_reset_and_hazards.md R185). -/
def step (s : State) : Host.Outcome State Fault Refusal := machineStep s

/-- The state in which the word `w` has just been taken as a command (45_sequencer.md R146) and the sequencer moves
next, the reset input released, so that the very next step runs it. A command is executed from `cmd_w` (20_memory.md
R49); nothing is fetched (log 14). -/
def State.withFetchWord (s : State) (nbits w : Nat) : State :=
  { latchCommand (BitVec.ofNat 32 (w % 2 ^ nbits)) s with
    turns := .sequencer :: s.turns
    resetAsserted := false }

end Sys2Proof.Machine
end

