-- ==== Sys2Proof/Machine/Procedures.lean ====
section
/-! DEFINITION. The procedures of files 40 to 44 as the spec writes them, whole commands included: the normative meaning that the sequencer's control states refine (45_sequencer.md, introduction and R152). They write no control register (`seq`, `phase`, `bit_idx`). -/

namespace Sys2Proof.Machine

/-- The loop of `WaitWhile(level)` (40_line_and_pulse_counter.md R82) with `TIMEOUT − count` reads left. -/
def waitLoop (level : Level) : Nat → State → State
  | 0, s => s
  | left + 1, s =>
    if lineLevel s ≠ level then portRead s
    else waitLoop level left (portDelayMicros s.params.pollUs (countPoll (portRead s)))

/-- `WaitWhile(level)`; the result is the register `count` (R82). -/
def waitWhile (level : Level) (s : State) : State := waitLoop level s.timeout.toNat (clearCount s)

/-- `Handshake()` (R83). -/
def handshake (s : State) : State :=
  portSetMode .input (portDelayMicros s.params.startHighUs (portWrite .high
    (portDelayMillis Config.startLowMs (portWrite .low (portSetMode .output s)))))

/-- `AckSkip()`: both results are discarded (R84). -/
def ackSkip (s : State) : State := waitWhile .high (waitWhile .low s)

/-- `BitRead()`: `lo` is left in `lo_cnt`, `hi` in `count` (R85). -/
def bitRead (s : State) : State := waitWhile .high (saveLow (waitWhile .low s))

/-- `n` turns of `Attempt`'s bit loop (R88). -/
def readBits (cal : Bool) : Nat → State → State
  | 0, s => s
  | n + 1, s => readBits cal n (recordBit cal (bitRead s))

/-- `Attempt(cal)` up to the end of its bit loop (R88). -/
def attemptBits (cal : Bool) (s : State) : State := readBits cal 40 (ackSkip (handshake (clearAttempt s)))

/-- `Attempt(cal)`; the result is the register `cause` (R88). -/
def attempt (cal : Bool) (s : State) : State := attemptTail (attemptBits cal s)

/-- `Calibrate()`'s loop with `n` attempts left, then completion of the command (41_calibrator.md R100, R103). -/
def calibrateLoop : Nat → State → State
  | 0, s => complete false .calibrationFallback (calibrateFallback s)
  | n + 1, s =>
    let a := attempt true s
    if a.cause = .none then complete true .none (calibrateSuccess a)
    else calibrateLoop n (countCalFailure a)

/-- `Calibrate()` and the completion of `CALIBRATE` or `INIT` (R100, R103, R104). -/
def calibrateAndComplete (s : State) : State := calibrateLoop Config.calAttempts (clearCalN s)

/-- `AcquireFrame(maxatt, retry_ms)`'s loop, given up (`none`) after `fuel` attempts; the result is the register
`cause` (42_frame_acquirer.md R110). -/
def acquireLoop (maxatt : BitVec 8) (retryMs : BitVec 16) : Nat → State → Option State
  | 0, _ => none
  | fuel + 1, s =>
    let a := attempt false s
    if a.cause = .none then some a
    else
      let b := countAttempt maxatt a
      if budgetExhausted maxatt b then some b
      else acquireLoop maxatt retryMs fuel (portDelayMillis (retryMsValue retryMs) b)

/-- `AcquireFrame(maxatt, retry_ms)` (R110). With `maxatt = 0` it may never return (70_reset_and_hazards.md R192):
`none` says only that it has not returned within `fuel` attempts. -/
def acquireFrame (fuel : Nat) (maxatt : BitVec 8) (retryMs : BitVec 16) (s : State) : Option State :=
  acquireLoop maxatt retryMs fuel (clearAttN s)

/-- The checks of 30_encoding.md R66 (c), (d), then the command's own procedure. -/
def checkedProcedure (i : Instr) (s : State) (go : Option State) : Option State :=
  if i.wellFormed = false then some (raise .invalidArgument s)
  else if needsInit i = true ∧ s.status.inited = false then some (raise .notInitialised s)
  else go

/-- The procedure of a command, from the state at `DISPATCH` to the state after `complete`: R104 `INIT`, R103
`CALIBRATE`, R113 `ACQUIRE`, R138 `READ`, R137 `SETDEV`. `none`: not over within `fuel` attempts. -/
def procedure (fuel : Nat) (i : Instr) (s : State) : Option State :=
  checkedProcedure i s
    (match i with
    | .init variant cap => some (calibrateAndComplete (initAssign variant cap s))
    | .calibrate => some (calibrateAndComplete s)
    | .acquire maxatt retryMs =>
      (acquireFrame fuel maxatt retryMs s).map fun a => complete (decide (a.cause = .none)) a.cause a
    | .read maxatt retryMs =>
      (acquireFrame fuel maxatt retryMs s).map fun a =>
        if a.cause = .none then filterStep a else complete false a.cause a
    | .setdev q permille => some (complete true .none (setDeviation q permille s)))

/-- A state without the control registers that the procedures do not write: `phase` and `bit_idx`. -/
def controlErased (s : State) : State := { s with phase := .ackLow, bitIdx := 0 }

end Sys2Proof.Machine
end

