-- ==== Sys2Proof/Safety.lean ====
section
/-! DEFINITION. What claims about the machine are stated in: a run that goes on, and the invariant every step keeps. -/

namespace Sys2Proof

open Sys2Proof.Machine

/-- Nothing comes between the steps of a running command: no turn is given to another agent (with no turn left the
sequencer moves, log 3), and the reset input is released. -/
abbrev Undisturbed (s : State) : Prop := s.turns = [] ∧ s.resetAsserted = false

/-- Some number of steps, none of them a fault or a refusal, leads from `s` to `t`. -/
def Reaches (s t : State) : Prop := ∃ n, Sys2Proof.core.run n s = .next t

/-- A `PortRead` event. -/
def isRead : PortEvent → Bool
  | .read _ => true
  | .mode _ | .write _ | .delayMs _ | .delayUs _ => false

/-- A `PortDelayMicros` event. -/
def isDelayUs : PortEvent → Bool
  | .delayUs _ => true
  | .mode _ | .write _ | .delayMs _ | .read _ => false

/-- A `PortDelayMillis` event. -/
def isDelayMs : PortEvent → Bool
  | .delayMs _ => true
  | .mode _ | .write _ | .delayUs _ | .read _ => false

/-- The first event of a handshake, and so of an attempt (40_line_and_pulse_counter.md R83, R88). -/
def isStart : PortEvent → Bool
  | .mode .output => true
  | .mode .input | .write _ | .delayMs _ | .delayUs _ | .read _ => false

/-- Record one bit slot after the other, each from its LOW and its HIGH count, in order of arrival (R88). -/
def recordBits (cal : Bool) (counts : List (Count × Count)) (s : State) : State :=
  counts.foldl (fun a c => recordBit cal { a with loCnt := c.1, count := c.2 }) s

/-- The other level. -/
def otherLevel : Level → Level
  | .low => .high
  | .high => .low

/-- The samples of a phase of `k` matching polls, the one that ends it included (R82). -/
def phaseSamples (level : Level) (k : Nat) : List Level := List.replicate k level ++ [otherLevel level]

/-- What the line answers in an attempt in which no phase times out: the acknowledgment, then each bit slot's LOW and
HIGH phase (R84, R85, R88). -/
def wireSamples (ackLow ackHigh : Nat) (counts : List (Nat × Nat)) : List Level :=
  phaseSamples .low ackLow ++ phaseSamples .high ackHigh ++
    counts.flatMap (fun c => phaseSamples .low c.1 ++ phaseSamples .high c.2)

/-- The counts of 40 bit slots, in order of arrival, stand for the frame `f`: no phase reaches `TIMEOUT`, and the i-th
slot's HIGH count is above the reference exactly when bit `39 − i` of `f` is 1 (R45, R85, R86). -/
def CountsSend (cal : Bool) (s : State) (counts : List (Nat × Nat)) (f : Frame) : Prop :=
  counts.length = 40 ∧
    ∀ (i lo hi : Nat), counts[i]? = some (lo, hi) → lo < s.timeout.toNat ∧ hi < s.timeout.toNat ∧
      (f.getLsbD (39 - i) = true ↔
        (if cal = true ∧ s.params.calBitRule = .self then lo else s.threshold.toNat) < hi)

/-- The `TIMEOUT` a command's attempts start with: `INIT` first writes `TIMEOUT_INIT` (41_calibrator.md R104). -/
def timeoutOf (i : Instr) (s : State) : Count :=
  match i with
  | .init _ _ => s.params.timeoutInit
  | .calibrate | .acquire _ _ | .read _ _ | .setdev _ _ => s.timeout

/-- How many attempts a command makes at most: five when it calibrates (41_calibrator.md R100), `maxatt` when that is
positive (42_frame_acquirer.md R110). -/
def attemptLimit : Instr → Nat
  | .init _ _ | .calibrate => 5
  | .acquire maxatt _ | .read maxatt _ => maxatt.toInt.toNat
  | .setdev _ _ => 0

/-- How many retry delays a command makes at most: none when it calibrates (R100), one less than its attempts else
(R111). -/
def retryLimit : Instr → Nat
  | .init _ _ | .calibrate | .setdev _ _ => 0
  | .acquire maxatt _ | .read maxatt _ => maxatt.toInt.toNat - 1

/-- What a host operation during a command may change, erased: the operations left, the answers, the free draws and
`OVERRUN` (20_memory.md R42, 45_sequencer.md R146). -/
def hostErased (s : State) : State :=
  { s with hostOps := [], answers := [], draws := 0, status := { s.status with overrun := false } }

/-- The block alone, its port trace included: what stands outside it, `OVERRUN`, and the control registers `phase` and
`bit_idx` erased. -/
def outsideErased (s : State) : State := { hostErased (controlErased s) with turns := [] }

/-- The block holds the values of 10_state.md R23. Of the buffer slots it says only that none has been written: their
contents are unspecified. -/
structure BlockAtReset (s : State) : Prop where
  status_word : s.status.toWord = 0
  variant : s.variant = .a
  cap : s.cap = 0
  threshold : s.threshold = 16
  timeout : s.timeout = s.params.timeoutInit
  frame : s.frame = 0
  shreg : s.shreg = 0
  raw_t : s.rawT = 0
  raw_h : s.rawH = 0
  last_t : s.t.last = 0xFFFE7960
  last_h : s.h.last = 0xFFFE7960
  dev_t : s.t.dev = 200
  dev_h : s.h.dev = 200
  wr_t : s.t.wr = 0
  wr_h : s.h.wr = 0
  fill_t : s.t.fill = 0
  fill_h : s.h.fill = 0
  unwritten_t : ∀ i : Fin 16, s.t.written[i] = false
  unwritten_h : ∀ i : Fin 16, s.h.written[i] = false
  bit_err : s.bitErr = false
  sum_low : s.sumLow = 0
  max_high : s.maxHigh = 0
  count : s.count = 0
  lo_cnt : s.loCnt = 0
  cause : s.cause = .none
  phase : s.phase = .ackLow
  seq : s.seq = .idle
  bit_idx : s.bitIdx = 0
  att_n : s.attN = 0
  cal_n : s.calN = 0
  cmd_w : s.cmdW = 0
  dq_oe : s.dqOe = false
  dq_out : s.dqOut = .high

/-- The filter's indices and marks are as 10_state.md R19 and 44_noise_filter.md R131 say: `F.fill ≤ CAP`,
`F.wr < max(CAP, 1)`, during warm-up `F.wr` counts the insertions, and every slot below `F.fill` has been written. -/
structure FilterInv (cap : Fin 17) (f : Filter) : Prop where
  fill_le : f.fill ≤ cap
  wr_lt : f.wr.val < max cap.val 1
  wr_warm : f.fill < cap → f.wr.val = f.fill.val
  written : ∀ i : Fin 16, i.val < f.fill.val → f.written[i] = true

/-- The acquisition budget is not used up (42_frame_acquirer.md R110, R112). -/
def BudgetOpen (maxatt : BitVec 8) (s : State) : Prop :=
  (0 < maxattValue maxatt → (s.attN.val : Int) < maxattValue maxatt) ∧ (maxattValue maxatt = 0 → s.attN = 0)

/-- The control states past `DISPATCH` that a command can be in, and its counters there (45_sequencer.md R147, R153). -/
def RunsIn (i : Instr) (s : State) : Prop :=
  i.wellFormed = true ∧ s.status.inited = true ∧
    match i with
    | .init _ _ => s.seq ≠ .retry ∧ s.seq ≠ .filter ∧ s.calN.val < 5
    | .calibrate => s.seq ≠ .retry ∧ s.seq ≠ .filter ∧ s.calN.val < 5
    | .acquire maxatt _ => s.seq ≠ .filter ∧ BudgetOpen maxatt s
    | .read maxatt _ => BudgetOpen maxatt s
    | .setdev _ _ => False

/-- The block drives the line: between `PortSetMode(output)` and `PortSetMode(input)` (R83). -/
def Driving : Seq → Bool
  | .hs1 | .hs2 | .hs3 | .hs4 | .hs5 => true
  | .idle | .dispatch | .hs0 | .poll | .pdelay | .phaseEnd | .attEnd | .retry | .filter => false

/-- The output latch in a control state: LOW only between `PortWrite(LOW)` and `PortWrite(HIGH)` (R83). -/
def LatchLevel : Seq → Level
  | .hs2 | .hs3 => .low
  | .idle | .dispatch | .hs0 | .hs1 | .hs4 | .hs5 | .poll | .pdelay | .phaseEnd | .attEnd | .retry | .filter => .high

/-- How many bit slots `sum_low` counts in a control state, at most (R88). -/
def bitsCounted (s : State) : Nat :=
  match s.seq with
  | .hs1 | .hs2 | .hs3 | .hs4 | .hs5 => 0
  | .poll | .pdelay | .phaseEnd =>
    match s.phase with
    | .ackLow | .ackHigh => 0
    | .bitLow | .bitHigh => s.bitIdx.val
  | .idle | .dispatch | .hs0 | .attEnd | .retry | .filter => 40

/-- The running count is where `WaitWhile` keeps it (R82, 45_sequencer.md R150): below `TIMEOUT` at `POLL`, at least 1
at `PDELAY`, and never above `TIMEOUT`. -/
def CountInv (s : State) : Prop :=
  match s.seq with
  | .poll => s.count < s.timeout
  | .pdelay => 0 < s.count ∧ s.count ≤ s.timeout
  | .phaseEnd => s.count ≤ s.timeout
  | .idle | .dispatch | .hs0 | .hs1 | .hs2 | .hs3 | .hs4 | .hs5 | .attEnd | .retry | .filter => True

/-- The invariant of the machine. -/
structure Inv (s : State) : Prop where
  /-- R5's constraints on the OPEN parameters. -/
  params : s.params.wf
  /-- 10_state.md R12: `TIMEOUT ≥ 1` in every reachable state. -/
  timeout_pos : 1 ≤ s.timeout.toNat
  /-- 10_state.md R14: `seq = IDLE` exactly when `STATUS.BUSY = 0`. -/
  busy_iff : s.status.busy = true ↔ s.seq ≠ .idle
  /-- R15, 45_sequencer.md R146: while a command runs the result flags are clear. -/
  quiet : s.status.busy = true → s.status.done = false ∧ s.status.ok = false ∧ s.status.err = .none ∧
    s.status.tAcc = false ∧ s.status.hAcc = false
  /-- 60_exceptions.md R165: a completed command has `OK = 1` exactly with code 0. -/
  result : s.status.done = true → (s.status.ok = true ↔ s.status.err = .none)
  /-- 10_state.md R15: `FRAME_OK` says that `FRAME` is valid. -/
  frame_ok : s.status.frameOk = true → frameValid s.frame = true
  /-- The command of a running machine, and where it can be. -/
  running : s.seq ≠ .idle → s.seq ≠ .dispatch → ∃ i, decode s.cmdW = .ok i ∧ RunsIn i s
  /-- `FILTER` is entered only with a valid frame (45_sequencer.md R153). -/
  filter_frame : s.seq = .filter → s.status.frameOk = true
  /-- R83: direction and latch of the line. -/
  direction : s.dqOe = Driving s.seq
  latch : s.dqOut = LatchLevel s.seq
  /-- R82: the running count. -/
  counting : CountInv s
  /-- R88: the LOW-count sum cannot overflow its 22 bits. -/
  sum_bound : s.sumLow.toNat ≤ 65535 * bitsCounted s
  /-- 41_calibrator.md R102 (a): a 1 bit needs a HIGH count of at least 1. -/
  high_seen : s.shreg ≠ 0 → s.maxHigh ≠ 0
  /-- The two filters, and 44_noise_filter.md R135: they move in lockstep. -/
  filter_t : FilterInv s.cap s.t
  filter_h : FilterInv s.cap s.h
  lockstep : s.t.wr = s.h.wr ∧ s.t.fill = s.h.fill
  /-- 43_decoder.md R124: the readings stay in the decoder's range. -/
  raw_t : -3276700 ≤ s.rawT.toInt ∧ s.rawT.toInt ≤ 3276700
  raw_h : 0 ≤ s.rawH.toInt ∧ s.rawH.toInt ≤ 6553500
  /-- 70_reset_and_hazards.md R185: while the reset input is asserted every element holds its reset value. -/
  in_reset : s.resetAsserted = true → BlockAtReset s

end Sys2Proof
end

