-- ==== Sys2Proof/Certificates/Slice0/Obligations.lean ====
section
/-! DEFINITION. What is claimed of the machine, each a Prop for the provers. `t` and `h` in a state are the filters of temperature and humidity. -/

open Sys2Proof Sys2Proof.Machine

/-! ### Encoding -/

/-- Decoding the word of a command gives the command, with every operand at every value its field admits
(30_encoding.md R61 to R65, R69). -/
def Obligations.DecodeEncodeRoundTrip : Prop := ∀ i : Instr, decode (encode i) = .ok i

/-- Each legal word has one meaning: encoding what it decodes to gives the word again (R61 to R65). -/
def Obligations.EncodeDecodeRoundTrip : Prop := ∀ (w : Word) (i : Instr), decode w = .ok i → encode i = w

/-- R66 (a), (b): a word with `OP` 0x0 or 0x6..0xF is rejected as unassigned, a word with an assigned `OP` and
`(w & mask) ≠ match` for the row of that `OP` as having a must-be-zero bit set, and every other word is decoded. -/
def Obligations.DecodeRejectsOpcodeThenMustBeZero : Prop :=
  ∀ w : Word,
    (decode w = .error .unassignedOpcode ↔ (w.toNat / 2 ^ 28 = 0 ∨ 6 ≤ w.toNat / 2 ^ 28)) ∧
    (decode w = .error .mustBeZero ↔
      (w.toNat / 2 ^ 28 = 1 ∧ w &&& 0xFFFFFE00 ≠ 0x10000000) ∨ (w.toNat / 2 ^ 28 = 2 ∧ w ≠ 0x20000000) ∨
      (w.toNat / 2 ^ 28 = 3 ∧ w &&& 0xFF000000 ≠ 0x30000000) ∨
      (w.toNat / 2 ^ 28 = 4 ∧ w &&& 0xFF000000 ≠ 0x40000000) ∨
      (w.toNat / 2 ^ 28 = 5 ∧ w &&& 0xFFFE0000 ≠ 0x50000000))

/-- Words of the spec's examples and what they stand for (R65, R103, R104, R113, R137, R138). -/
def Obligations.DecodeKnownWords : Prop :=
  decode 0x10000100 = .ok (.init .b 0) ∧ decode 0x10000007 = .ok (.init .a 7) ∧ decode 0x20000000 = .ok .calibrate ∧
  decode 0x30050064 = .ok (.acquire 5 100) ∧ decode 0x40FF0000 = .ok (.read (BitVec.ofInt 8 (-1)) 0) ∧
  decode 0x50010064 = .ok (.setdev .humidity 100)

/-- R69: the assembler's word for a command, built by shifts and ors from its operands' values, is the encoded word. -/
def Obligations.AssemblerWritesTheEncodedWord : Prop :=
  ∀ i : Instr, assemble (assemblyOf i).1 (assemblyOf i).2 = some (encode i)

/-! ### One step -/

/-- A step of the sequencer with a command latched is `exec` of the command that `cmd_w` decodes to, in the state with
the turn used up (20_memory.md R49, 45_sequencer.md R147). The second clause is the model's choice, not a rule's (log 14):
the next step runs a word that `withFetchWord` puts in place, in a state in which it has just been latched and the reset
input is released; on a busy block `withFetchWord` replaces the running command, as no host write can. -/
def Obligations.StepRunsTheDecodedCommand : Prop :=
  (∀ (s : State) (i : Instr), nextAgent s = .sequencer → s.resetAsserted = false → s.seq ≠ .idle →
    decode s.cmdW = .ok i → step s = exec i { s with turns := s.turns.tail }) ∧
  ∀ (s : State) (w : Nat) (i : Instr), w < 2 ^ 32 → decode (BitVec.ofNat 32 w) = .ok i →
    step (s.withFetchWord 32 w) = exec i { latchCommand (BitVec.ofNat 32 w) s with resetAsserted := false }

/-- R145, R149, R40, R43, R72: a step is one host operation, one step of the sequencer, or a change of the reset input;
a host operation is one bus read, one bus write, or one read of `STATUS` by a `WAIT` that stays until `BUSY = 0`. The
model's choices: that the sequencer's turn in `IDLE` and the host's with no operation left are steps that change nothing
but the turns (log 17), that driving the reset input is one step, and what a turn does while it is asserted (log 8), that
a `WAIT` is one read a turn (log 4), and who moves when no turn is left (log 3). -/
def Obligations.StepTakesTheNextTurn : Prop :=
  (∀ (s : State) (rest : List Agent), s.turns = .host :: rest →
    (s.resetAsserted = false → step s = .next (hostStep { s with turns := rest })) ∧
    (s.resetAsserted = true → step s = .next (hardReset (hostStep { s with turns := rest })))) ∧
  (∀ (s : State) (rest : List Agent), s.turns = .sequencer :: rest →
    (s.resetAsserted = false → step s = sequencerStep { s with turns := rest } ∧
      (s.seq = .idle → step s = .next { s with turns := rest })) ∧
    (s.resetAsserted = true → step s = .next (hardReset { s with turns := rest }))) ∧
  (∀ (s : State) (asserted : Bool) (rest : List Agent), s.turns = .resetInput asserted :: rest →
    step s = .next (hardReset { s with turns := rest, resetAsserted := asserted })) ∧
  (∀ s : State, Undisturbed s → s.seq ≠ .idle → step s = sequencerStep s) ∧
  (∀ s : State, Undisturbed s → s.seq = .idle → step s = .next (hostStep s)) ∧
  (∀ s : State, s.hostOps = [] → hostStep s = s) ∧
  (∀ (s : State) (addr : Addr) (rest : List HostOp), s.hostOps = .read addr :: rest →
    hostStep s = memRead addr { s with hostOps := rest }) ∧
  (∀ (s : State) (addr : Addr) (w : Word) (rest : List HostOp), s.hostOps = .write addr w :: rest →
    hostStep s = memWrite addr w { s with hostOps := rest }) ∧
  ∀ (s : State) (rest : List HostOp), s.hostOps = .wait :: rest →
    (s.status.busy = true → hostStep s = memRead 0x01 s) ∧
    (s.status.busy = false → hostStep s = memRead 0x01 { s with hostOps := rest })

/-- R66 (a), (b), R166: a taken word that is no command completes with `OK = 0`, `ERR` IllegalCommand, no line
activity and no change but `STATUS` and the return to `IDLE`. -/
def Obligations.IllegalWordCompletesWithIllegalCommand : Prop :=
  ∀ (s : State) (e : DecodeError), Undisturbed s → s.seq = .dispatch → decode s.cmdW = .error e →
    step s = .next { s with
      seq := .idle
      status := { s.status with ok := false, err := .illegalCommand, done := true, busy := false } }

/-! ### DISPATCH -/

/-- R66 (c): `INIT` with `cap > 16`, `ACQUIRE` or `READ` with `maxatt < 0` complete with InvalidArgument, whether or not
the block is initialised, and change nothing but `STATUS` and the control state. -/
def Obligations.OperandOutOfRangeIsRefused : Prop :=
  ∀ s : State, s.seq = .dispatch →
    (∀ (v : Variant) (cap : BitVec 8), 16 < cap.toNat →
      exec (.init v cap) s = .next { s with
        seq := .idle
        status := { s.status with ok := false, err := .invalidArgument, done := true, busy := false } }) ∧
    (∀ (maxatt : BitVec 8) (retryMs : BitVec 16), maxatt.toInt < 0 →
      exec (.acquire maxatt retryMs) s = .next { s with
        seq := .idle
        status := { s.status with ok := false, err := .invalidArgument, done := true, busy := false } } ∧
      exec (.read maxatt retryMs) s = .next { s with
        seq := .idle
        status := { s.status with ok := false, err := .invalidArgument, done := true, busy := false } })

/-- R66 (d): a command other than `INIT` with operands in range completes with NotInitialised while `INITED = 0`. -/
def Obligations.CommandBeforeInitIsRefused : Prop :=
  ∀ (s : State) (i : Instr), s.seq = .dispatch → s.status.inited = false → (∀ v cap, i ≠ .init v cap) →
    (∀ maxatt retryMs, i = .acquire maxatt retryMs ∨ i = .read maxatt retryMs → 0 ≤ maxatt.toInt) →
    exec i s = .next { s with
      seq := .idle
      status := { s.status with ok := false, err := .notInitialised, done := true, busy := false } }

/-- 41_calibrator.md R104, 45_sequencer.md R147: `INIT` with `cap ≤ 16` writes the configuration and the defaults, leaves
the buffer slots, and goes on to the first calibration attempt. -/
def Obligations.InitAssignsAndStartsCalibrating : Prop :=
  ∀ (s : State) (v : Variant) (cap : BitVec 8), s.seq = .dispatch → cap.toNat ≤ 16 →
    ∃ c : Fin 17, c.val = cap.toNat ∧
      exec (.init v cap) s = .next { s with
        variant := v
        cap := c
        status := { s.status with inited := true, calOk := false, frameOk := false, overrun := false }
        threshold := 16
        timeout := s.params.timeoutInit
        frame := 0
        rawT := 0
        rawH := 0
        t := { s.t with last := BitVec.ofInt 32 (-100000), dev := 200, wr := 0, fill := 0 }
        h := { s.h with last := BitVec.ofInt 32 (-100000), dev := 200, wr := 0, fill := 0 }
        calN := 0
        seq := .hs0 }

/-- 45_sequencer.md R147: `CALIBRATE`, `ACQUIRE` and `READ` on an initialised block, operands in range, clear their
attempt counter and go on to the handshake. -/
def Obligations.CommandsStartTheirFirstAttempt : Prop :=
  ∀ s : State, s.seq = .dispatch → s.status.inited = true →
    exec .calibrate s = .next { s with calN := 0, seq := .hs0 } ∧
    ∀ (maxatt : BitVec 8) (retryMs : BitVec 16), 0 ≤ maxatt.toInt →
      exec (.acquire maxatt retryMs) s = .next { s with attN := 0, seq := .hs0 } ∧
      exec (.read maxatt retryMs) s = .next { s with attN := 0, seq := .hs0 }

/-- 44_noise_filter.md R137: `SETDEV` on an initialised block writes the deviation fraction of the named quantity and
completes with `OK = 1`, `ERR = 0`; nothing else changes. -/
def Obligations.SetdevWritesTheDeviation : Prop :=
  ∀ (s : State) (permille : BitVec 16), s.seq = .dispatch → s.status.inited = true →
    exec (.setdev .temperature permille) s = .next { s with
      t := { s.t with dev := permille }
      seq := .idle
      status := { s.status with ok := true, err := .none, done := true, busy := false } } ∧
    exec (.setdev .humidity permille) s = .next { s with
      h := { s.h with dev := permille }
      seq := .idle
      status := { s.status with ok := true, err := .none, done := true, busy := false } }

/-! ### Host bus -/

/-- 20_memory.md R43, 45_sequencer.md R146: a write to `CMD` while busy is dropped and sets `OVERRUN`; while idle it is
latched, clears `DONE`, `OK`, `ERR`, `T_ACC`, `H_ACC` and sets `BUSY`; a write to any other address is ignored. -/
def Obligations.CommandWriteIsTakenOrDropped : Prop :=
  ∀ (s : State) (w : Word),
    (s.status.busy = true → memWrite 0x00 w s = { s with status := { s.status with overrun := true } }) ∧
    (s.status.busy = false → memWrite 0x00 w s = { s with
      cmdW := w
      seq := .dispatch
      status := { s.status with
        done := false, ok := false, err := .none, tAcc := false, hAcc := false, busy := true } }) ∧
    ∀ addr : Addr, addr ≠ 0x00 → memWrite addr w s = s

/-- 10_state.md R15, 60_exceptions.md R165: the layout of `STATUS` and the error codes; reserved bits read 0. -/
def Obligations.StatusWordLayout : Prop :=
  ∀ f : Status,
    f.toWord.getLsbD 0 = f.busy ∧ f.toWord.getLsbD 1 = f.done ∧ f.toWord.getLsbD 2 = f.ok ∧
    f.toWord.getLsbD 3 = f.inited ∧ f.toWord.getLsbD 4 = f.calOk ∧ f.toWord.getLsbD 5 = f.frameOk ∧
    f.toWord.getLsbD 6 = f.tAcc ∧ f.toWord.getLsbD 7 = f.hAcc ∧ f.toWord.getLsbD 8 = f.overrun ∧
    (∀ k, (9 ≤ k ∧ k ≤ 11) ∨ 16 ≤ k → f.toWord.getLsbD k = false) ∧
    (f.toWord.toNat / 2 ^ 12) % 16 =
      (match f.err with
      | .none => 0
      | .illegalCommand => 1
      | .invalidArgument => 2
      | .notInitialised => 3
      | .checksumMismatch => 4
      | .degenerateFrame => 5
      | .deviationReject => 6
      | .calibrationFallback => 7)

/-- 20_memory.md R41: what each of the 64 word addresses holds, and that only `CMD` takes a write. The counts are in
the ranges of 10_state.md R16 and R19, which their types say. -/
def Obligations.RegisterMap : Prop :=
  ∀ s : State,
    regWord s 0x00 = 0 ∧ regWord s 0x01 = s.status.toWord ∧
    (regWord s 0x02).toNat = s.cap.val + (match s.variant with | .a => 0 | .b => 256) ∧
    (regWord s 0x03).toNat = s.threshold.toNat ∧ (regWord s 0x04).toNat = s.timeout.toNat ∧
    (regWord s 0x05).toNat = s.frame.toNat / 256 ∧ (regWord s 0x06).toNat = s.frame.toNat % 256 ∧
    regWord s 0x07 = s.rawT ∧ regWord s 0x08 = s.rawH ∧ regWord s 0x09 = s.t.last ∧ regWord s 0x0A = s.h.last ∧
    (regWord s 0x0B).toNat = s.t.dev.toNat ∧ (regWord s 0x0C).toNat = s.h.dev.toNat ∧
    (regWord s 0x0D).toNat = s.t.wr.val + 256 * s.t.fill.val ∧
    (regWord s 0x0E).toNat = s.h.wr.val + 256 * s.h.fill.val ∧ regWord s 0x0F = 0 ∧
    (∀ i : Fin 16, regWord s (0x10 + BitVec.ofNat 6 i.val) = s.t.buf[i]) ∧
    (∀ i : Fin 16, regWord s (0x20 + BitVec.ofNat 6 i.val) = s.h.buf[i]) ∧
    (∀ addr : Addr, 0x30 ≤ addr.toNat → regWord s addr = 0) ∧
    ∀ (addr : Addr) (w : Word), addr ≠ 0x00 → memWrite addr w s = s

/-- R42, R46: a read answers the register's word except in exactly two cases, records the answer for the host, and
changes nothing of the block. In the two cases the answer is the free word at the model's draw counter (log 7). -/
def Obligations.ReadAnswersOrDrawsFree : Prop :=
  ∀ (s : State) (addr : Addr),
    ∃ n, memRead addr s = { s with answers := (addr, readAnswer s addr) :: s.answers, draws := n } ∧
      (¬ (s.status.busy = true ∧ addr ≠ 0x01) →
        ¬ (∃ i : Fin 16, (addr = 0x10 + BitVec.ofNat 6 i.val ∧ s.t.written[i] = false) ∨
          (addr = 0x20 + BitVec.ofNat 6 i.val ∧ s.h.written[i] = false)) →
        readAnswer s addr = regWord s addr ∧ n = s.draws) ∧
      ((s.status.busy = true ∧ addr ≠ 0x01) ∨
        (∃ i : Fin 16, (addr = 0x10 + BitVec.ofNat 6 i.val ∧ s.t.written[i] = false) ∨
          (addr = 0x20 + BitVec.ofNat 6 i.val ∧ s.h.written[i] = false)) →
        readAnswer s addr = Config.freeWord s.draws ∧ n = s.draws + 1)

/-- 45_sequencer.md R146, 20_memory.md R42: a host operation while a command runs does not disturb it. The sequencer's
next step after it gives the same state but for the host's own record and `OVERRUN`. -/
def Obligations.HostOperationsDoNotDisturbTheCommand : Prop :=
  ∀ s t : State, s.status.busy = true → sequencerStep s = .next t →
    ∃ u, sequencerStep (hostStep s) = .next u ∧ hostErased u = hostErased t

/-! ### The line -/

/-- 40_line_and_pulse_counter.md R83: from `HS0` six steps of any command with an attempt clear the attempt's
accumulators, put the handshake's six events on the port trace in order, and leave the line in input mode with the latch
HIGH, counting the acknowledgment's LOW phase. No step of a command outside the handshake changes mode or latch. -/
def Obligations.HandshakeDrivesTheStartPulse : Prop :=
  (∀ (s t : State) (i : Instr), exec i s = .next t → s.seq ≠ .hs0 → s.seq ≠ .hs1 → s.seq ≠ .hs3 → s.seq ≠ .hs5 →
    t.dqOe = s.dqOe ∧ t.dqOut = s.dqOut) ∧
  ∀ (s : State) (i : Instr), (∀ q p, i ≠ .setdev q p) → Undisturbed s → s.seq = .hs0 → decode s.cmdW = .ok i →
    Sys2Proof.core.run 6 s = .next ({ s with
      bitErr := false
      sumLow := 0
      maxHigh := 0
      shreg := 0
      dqOe := false
      dqOut := .high
      phase := .ackLow
      count := 0
      seq := .poll
      trace := [.mode .input, .delayUs s.params.startHighUs, .write .high, .delayMs 18, .write .low, .mode .output] ++
        s.trace } : State)

/-- 45_sequencer.md R150: at `POLL` the line is read once; a level other than the phase's ends the phase, the phase's
level is counted and followed by the poll delay, after which a count of `TIMEOUT` ends the phase. -/
def Obligations.PollCountsMatchingLevels : Prop :=
  ∀ (s : State) (i : Instr), (∀ q p, i ≠ .setdev q p) →
    (s.seq = .poll →
      (lineLevel s ≠ s.phase.level → exec i s = .next { s with
        script := s.script.tail
        trace := .read (lineLevel s) :: s.trace
        seq := .phaseEnd }) ∧
      (lineLevel s = s.phase.level → exec i s = .next { s with
        script := s.script.tail
        trace := .read (lineLevel s) :: s.trace
        count := s.count + 1
        seq := .pdelay })) ∧
    (s.seq = .pdelay →
      (s.count = s.timeout → exec i s = .next { s with
        trace := .delayUs s.params.pollUs :: s.trace, seq := .phaseEnd }) ∧
      (s.count ≠ s.timeout → exec i s = .next { s with
        trace := .delayUs s.params.pollUs :: s.trace, seq := .poll }))

/-- 45_sequencer.md R151: the `PHASE_END` step in each of the four phases. `b` is the bit of the slot, 0 when one of its
two counts is `TIMEOUT`, else `BitValue` (R86). That a sum of 2^22 or more wraps is the model's reading (log 16): R88
derives that none occurs, and `Inv.sum_bound` bounds the sum. -/
def Obligations.PhaseEndMovesOn : Prop :=
  ∀ (s : State) (i : Instr), (∀ q p, i ≠ .setdev q p) → s.seq = .phaseEnd →
    (s.phase = .ackLow → exec i s = .next { s with phase := .ackHigh, count := 0, seq := .poll }) ∧
    (s.phase = .ackHigh → exec i s = .next { s with phase := .bitLow, bitIdx := 0, count := 0, seq := .poll }) ∧
    (s.phase = .bitLow →
      exec i s = .next { s with loCnt := s.count, phase := .bitHigh, count := 0, seq := .poll }) ∧
    (s.phase = .bitHigh →
      ∀ (failed b : Bool) (ref : Count),
        (failed = true ↔ s.loCnt = s.timeout ∨ s.count = s.timeout) →
        ref = (match i with
          | .init _ _ | .calibrate => (match s.params.calBitRule with | .self => s.loCnt | .threshold => s.threshold)
          | .acquire _ _ | .read _ _ | .setdev _ _ => s.threshold) →
        (b = true ↔ failed = false ∧ ref.toNat < s.count.toNat) →
        ∃ (sum : BitVec 22) (shifted : Frame),
          sum.toNat = (s.sumLow.toNat + s.loCnt.toNat) % 2 ^ 22 ∧
          shifted.toNat = (2 * s.shreg.toNat + b.toNat) % 2 ^ 40 ∧
          exec i s = .next { s with
            sumLow := sum
            maxHigh := if s.maxHigh.toNat < s.count.toNat then s.count else s.maxHigh
            bitErr := s.bitErr || failed
            shreg := shifted
            bitIdx := if s.bitIdx.val < 39 then s.bitIdx + 1 else s.bitIdx
            phase := if s.bitIdx.val < 39 then .bitLow else .bitHigh
            count := if s.bitIdx.val < 39 then 0 else s.count
            seq := if s.bitIdx.val < 39 then .poll else .attEnd })

/-- R82: whatever the line answers, `WaitWhile(level)` counts `k` matching samples, 0 ≤ k ≤ `TIMEOUT`: for
`k < TIMEOUT` it makes `k + 1` reads, of which the last answered another level, and `k` poll delays, and for
`k = TIMEOUT` as many reads and delays. Nothing else changes. On a scripted line `k` is the number of leading samples
that match. -/
def Obligations.WaitWhileCountsMatchingLevels : Prop :=
  ∀ (s : State) (level : Level),
    (∃ k : Nat,
      (k < s.timeout.toNat ∧ ∃ other : Level, other ≠ level ∧ waitWhile level s = { s with
        count := BitVec.ofNat 16 k
        script := s.script.drop (k + 1)
        trace := .read other :: (List.replicate k [.delayUs s.params.pollUs, .read level]).flatten ++ s.trace }) ∨
      (k = s.timeout.toNat ∧ waitWhile level s = { s with
        count := s.timeout
        script := s.script.drop k
        trace := (List.replicate k [.delayUs s.params.pollUs, .read level]).flatten ++ s.trace })) ∧
    (∀ (other : Level) (k : Nat) (rest : List Level), other ≠ level → k < s.timeout.toNat →
      s.script = List.replicate k level ++ other :: rest →
      waitWhile level s = { s with
        count := BitVec.ofNat 16 k
        script := rest
        trace := .read other :: (List.replicate k [.delayUs s.params.pollUs, .read level]).flatten ++ s.trace }) ∧
    ∀ rest : List Level, s.script = List.replicate s.timeout.toNat level ++ rest →
      waitWhile level s = { s with
        count := s.timeout
        script := rest
        trace := (List.replicate s.timeout.toNat [.delayUs s.params.pollUs, .read level]).flatten ++ s.trace }

/-- R89: an attempt puts exactly the six handshake events on the trace, then only reads and poll delays, at most
`82 × TIMEOUT` of each, whatever the line answers. -/
def Obligations.AttemptWorkIsBounded : Prop :=
  ∀ (cal : Bool) (s : State), ∃ polls : List PortEvent,
    (attempt cal s).trace = polls ++
      [.mode .input, .delayUs s.params.startHighUs, .write .high, .delayMs 18, .write .low, .mode .output] ++ s.trace ∧
    (∀ e ∈ polls, (∃ l, e = .read l) ∨ e = .delayUs s.params.pollUs) ∧
    polls.countP isRead ≤ 82 * s.timeout.toNat ∧ polls.countP isDelayUs ≤ 82 * s.timeout.toNat

/-- 20_memory.md R45, 30_encoding.md R67: the i-th bit received (i = 0..39) becomes `FRAME[39 − i]`, which is bit
`7 − (i mod 8)` of byte `i div 8`; `FRAME_LO` and `FRAME_HI` hold the bytes in that order. -/
def Obligations.ReceivedBitBecomesFrameBit : Prop :=
  ∀ (cal : Bool) (s : State) (counts : List (Count × Count)), counts.length = 40 →
    ∀ (i : Nat) (lo hi : Count), i < 40 → counts[i]? = some (lo, hi) →
      let t := attemptTail (recordBits cal counts s)
      let b := !bitFails lo hi s && bitValue cal lo hi s
      t.frame.getLsbD (39 - i) = b ∧ (frameByte t.frame (i / 8)).getLsbD (7 - i % 8) = b ∧
      regWord t 0x05 = frameByte t.frame 0 ++ frameByte t.frame 1 ++ frameByte t.frame 2 ++ frameByte t.frame 3 ∧
      regWord t 0x06 = 0#24 ++ frameByte t.frame 4

/-- R86: a bit is 1 exactly when the HIGH count exceeds `THRESHOLD`, or while calibrating under `CAL_BIT_RULE = SELF`
exceeds the bit's own LOW count. -/
def Obligations.BitValueIsStrict : Prop :=
  ∀ (s : State) (lo hi : Count),
    (bitValue false lo hi s = true ↔ s.threshold.toNat < hi.toNat) ∧
    (s.params.calBitRule = .threshold → (bitValue true lo hi s = true ↔ s.threshold.toNat < hi.toNat)) ∧
    (s.params.calBitRule = .self → (bitValue true lo hi s = true ↔ lo.toNat < hi.toNat))

/-- R87: a frame is valid exactly when byte 4 is the sum of bytes 0 to 3 mod 256, equivalently their 8-bit wrapping sum,
and not all five bytes are zero. -/
def Obligations.FrameValidIsChecksumAndNotAllZero : Prop :=
  ∀ f : Frame,
    (frameValid f = true ↔
      (frameByte f 4).toNat = ((frameByte f 0).toNat + (frameByte f 1).toNat + (frameByte f 2).toNat +
        (frameByte f 3).toNat) % 256 ∧ ∃ k, k < 5 ∧ frameByte f k ≠ 0) ∧
    (frameValid f = true ↔
      frameByte f 4 = frameByte f 0 + frameByte f 1 + frameByte f 2 + frameByte f 3 ∧ f ≠ 0)

/-! ### Calibrator -/

/-- 41_calibrator.md R101: the threshold is the truncated quotient for every sum of 40 counts, the timeout the truncated
1.25-fold of `max_high` saturated at 65535. -/
def Obligations.CalibrationArithmetic : Prop :=
  (∀ sumLow : BitVec 22, sumLow.toNat ≤ 40 * 65535 → (calThreshold sumLow).toNat = sumLow.toNat / 40) ∧
  ∀ maxHigh : Count, (calTimeout maxHigh).toNat = min 65535 (maxHigh.toNat + maxHigh.toNat / 4) ∧
    (calTimeout maxHigh).toNat = min 65535 (5 * maxHigh.toNat / 4)

/-- 45_sequencer.md R153, R100: at the end of a calibration attempt with no timed-out bit and a valid frame, `INIT` and
`CALIBRATE` write `THRESHOLD`, `TIMEOUT`, `CAL_OK`, `FRAME`, `FRAME_OK` and complete with `OK = 1`, `ERR = 0`. The
bound on `sum_low` is the invariant's (`Inv.sum_bound`). -/
def Obligations.CalibrationAttemptSucceeds : Prop :=
  ∀ (s : State) (i : Instr), (i = .calibrate ∨ ∃ v cap, i = .init v cap) → s.seq = .attEnd → s.bitErr = false →
    frameValid s.shreg = true → s.sumLow.toNat ≤ 40 * 65535 →
    ∃ threshold timeout : Count,
      threshold.toNat = s.sumLow.toNat / 40 ∧ timeout.toNat = min 65535 (s.maxHigh.toNat + s.maxHigh.toNat / 4) ∧
      exec i s = .next { s with
        frame := s.shreg
        cause := .none
        threshold := threshold
        timeout := timeout
        seq := .idle
        status := { s.status with
          frameOk := true, calOk := true, ok := true, err := .none, done := true, busy := false } }

/-- R153, R100: a failed calibration attempt is counted; the fifth ends the command with `THRESHOLD = 16`, `CAL_OK = 0`,
`OK = 0`, `ERR` CalibrationFallback and `TIMEOUT` unchanged, an earlier one is followed by the next attempt at once.
`cal_n < 5` while a calibration runs is the invariant's (`Inv.running`). -/
def Obligations.CalibrationAttemptFails : Prop :=
  ∀ (s : State) (i : Instr) (cause : ErrorCode), (i = .calibrate ∨ ∃ v cap, i = .init v cap) → s.seq = .attEnd →
    s.calN.val < 5 →
    ((s.bitErr = true ∨ checksumMatches s.shreg = false) ∧ cause = .checksumMismatch ∨
      s.bitErr = false ∧ s.shreg = 0 ∧ cause = .degenerateFrame) →
    (s.calN.val = 4 → exec i s = .next { s with
      frame := s.shreg
      cause := cause
      calN := 5
      threshold := 16
      seq := .idle
      status := { s.status with
        frameOk := false, calOk := false, ok := false, err := .calibrationFallback, done := true, busy := false } }) ∧
    (s.calN.val < 4 → ∃ n : Fin 6, n.val = s.calN.val + 1 ∧ exec i s = .next { s with
      frame := s.shreg
      cause := cause
      calN := n
      seq := .hs0
      status := { s.status with frameOk := false } })

/-! ### Frame acquirer -/

/-- R153, 42_frame_acquirer.md R110, R113: how `ACQUIRE` goes on at the end of an attempt. A valid frame completes with
`OK = 1`; a failure completes with its cause when the budget is exhausted and is retried otherwise, for ever when
`maxatt = 0`. `att_n < 127` is the invariant's (`Inv.running`, with R112). -/
def Obligations.AcquireAttemptEnds : Prop :=
  ∀ (s : State) (maxatt : BitVec 8) (retryMs : BitVec 16), s.seq = .attEnd →
    (s.bitErr = false → frameValid s.shreg = true → exec (.acquire maxatt retryMs) s = .next { s with
      frame := s.shreg
      cause := .none
      seq := .idle
      status := { s.status with frameOk := true, ok := true, err := .none, done := true, busy := false } }) ∧
    ∀ cause : ErrorCode,
      ((s.bitErr = true ∨ checksumMatches s.shreg = false) ∧ cause = .checksumMismatch ∨
        s.bitErr = false ∧ s.shreg = 0 ∧ cause = .degenerateFrame) →
      (0 < maxatt.toInt → s.attN.val < 127 → ∃ n : Fin 128, n.val = s.attN.val + 1 ∧
        ((n.val : Int) = maxatt.toInt → exec (.acquire maxatt retryMs) s = .next { s with
          frame := s.shreg
          cause := cause
          attN := n
          seq := .idle
          status := { s.status with frameOk := false, ok := false, err := cause, done := true, busy := false } }) ∧
        ((n.val : Int) ≠ maxatt.toInt → exec (.acquire maxatt retryMs) s = .next { s with
          frame := s.shreg
          cause := cause
          attN := n
          seq := .retry
          status := { s.status with frameOk := false } })) ∧
      (maxatt.toInt = 0 → exec (.acquire maxatt retryMs) s = .next { s with
        frame := s.shreg
        cause := cause
        seq := .retry
        status := { s.status with frameOk := false } })

/-- R153, R110, 44_noise_filter.md R138: how `READ` goes on at the end of an attempt: a valid frame goes to the filter, a
failure is counted, completed or retried as for `ACQUIRE`, the readings untouched. -/
def Obligations.ReadAttemptEnds : Prop :=
  ∀ (s : State) (maxatt : BitVec 8) (retryMs : BitVec 16), s.seq = .attEnd →
    (s.bitErr = false → frameValid s.shreg = true → exec (.read maxatt retryMs) s = .next { s with
      frame := s.shreg
      cause := .none
      seq := .filter
      status := { s.status with frameOk := true } }) ∧
    ∀ cause : ErrorCode,
      ((s.bitErr = true ∨ checksumMatches s.shreg = false) ∧ cause = .checksumMismatch ∨
        s.bitErr = false ∧ s.shreg = 0 ∧ cause = .degenerateFrame) →
      (0 < maxatt.toInt → s.attN.val < 127 → ∃ n : Fin 128, n.val = s.attN.val + 1 ∧
        ((n.val : Int) = maxatt.toInt → exec (.read maxatt retryMs) s = .next { s with
          frame := s.shreg
          cause := cause
          attN := n
          seq := .idle
          status := { s.status with frameOk := false, ok := false, err := cause, done := true, busy := false } }) ∧
        ((n.val : Int) ≠ maxatt.toInt → exec (.read maxatt retryMs) s = .next { s with
          frame := s.shreg
          cause := cause
          attN := n
          seq := .retry
          status := { s.status with frameOk := false } })) ∧
      (maxatt.toInt = 0 → exec (.read maxatt retryMs) s = .next { s with
        frame := s.shreg
        cause := cause
        seq := .retry
        status := { s.status with frameOk := false } })

/-- R150, R110: the `RETRY` step of `ACQUIRE` and `READ` is one delay of `retry_ms`, zero included, and then the next
attempt. -/
def Obligations.RetryWaitsBetweenAttempts : Prop :=
  ∀ (s : State) (maxatt : BitVec 8) (retryMs : BitVec 16), s.seq = .retry →
    exec (.acquire maxatt retryMs) s = .next { s with trace := .delayMs retryMs.toNat :: s.trace, seq := .hs0 } ∧
    exec (.read maxatt retryMs) s = .next { s with trace := .delayMs retryMs.toNat :: s.trace, seq := .hs0 }

/-- 42_frame_acquirer.md R111: a call of `AcquireFrame` that returns has run `k ≥ 1` attempts, at most `maxatt` of them
when `maxatt > 0` and exactly `maxatt` when it fails; besides the `k` start pulses it has put `k − 1` millisecond
delays on the trace. It leaves `THRESHOLD` and `TIMEOUT` as they were. -/
def Obligations.RetryLoopCountsAttempts : Prop :=
  ∀ (fuel : Nat) (maxatt : BitVec 8) (retryMs : BitVec 16) (s t : State), 0 ≤ maxatt.toInt →
    acquireFrame fuel maxatt retryMs s = some t →
    ∃ k : Nat, 1 ≤ k ∧ (0 < maxatt.toInt → (k : Int) ≤ maxatt.toInt) ∧
      (t.cause ≠ .none → 0 < maxatt.toInt ∧ (k : Int) = maxatt.toInt) ∧
      t.trace.countP isStart = s.trace.countP isStart + k ∧
      t.trace.countP isDelayMs = s.trace.countP isDelayMs + k + (k - 1) ∧
      t.threshold = s.threshold ∧ t.timeout = s.timeout

/-! ### Decoder -/

/-- 43_decoder.md R121: `Frac(n)` is n / 10^d in thousandths, d the number of decimal digits of n. -/
def Obligations.FracIsDecimalDigits : Prop :=
  ∀ n : BitVec 8, frac n * 10 ^ (Nat.digits 10 n.toNat).length = n.toNat * 1000

/-- R120, R122, R123: the temperature and the humidity of a frame in variant A, and in variant B, whose temperature is
sign and magnitude. -/
def Obligations.DecoderVariants : Prop :=
  ∀ f : Frame,
    (decodeFrame .a f).1 = (frameByte f 2).toNat * 1000 + frac (frameByte f 3) ∧
    (decodeFrame .a f).2 = (frameByte f 0).toNat * 1000 + frac (frameByte f 1) ∧
    (decodeFrame .b f).2 = ((frameByte f 0).toNat * 256 + (frameByte f 1).toNat) * 100 ∧
    ((frameByte f 2).getLsbD 7 = false →
      (decodeFrame .b f).1 = ((frameByte f 2).toNat * 256 + (frameByte f 3).toNat) * 100) ∧
    ((frameByte f 2).getLsbD 7 = true →
      (decodeFrame .b f).1 = -((((frameByte f 2).toNat - 128) * 256 + (frameByte f 3).toNat) * 100 : Nat))

/-- R124: the ranges of the two variants; every reading fits the signed 32-bit registers, so none is altered there. -/
def Obligations.DecodedReadingsStayInRange : Prop :=
  ∀ f : Frame,
    (0 ≤ (decodeFrame .a f).1 ∧ (decodeFrame .a f).1 ≤ 255990) ∧
    (0 ≤ (decodeFrame .a f).2 ∧ (decodeFrame .a f).2 ≤ 255990) ∧
    (-3276700 ≤ (decodeFrame .b f).1 ∧ (decodeFrame .b f).1 ≤ 3276700) ∧
    (0 ≤ (decodeFrame .b f).2 ∧ (decodeFrame .b f).2 ≤ 6553500) ∧
    ∀ v : Variant, (BitVec.ofInt 32 (decodeFrame v f).1).toInt = (decodeFrame v f).1 ∧
      (BitVec.ofInt 32 (decodeFrame v f).2).toInt = (decodeFrame v f).2

/-! ### Noise filter -/

/-- 44_noise_filter.md R131: after k insertions into an empty filter `F.fill = min(k, CAP)` and `F.wr = k mod CAP`, the
last `CAP` values inserted stand at their index mod `CAP`, exactly the slots below min(k, CAP) have been written, the
others are as they were, and `F.dev` and `F.last` are untouched. -/
def Obligations.InsertFillsTheRing : Prop :=
  ∀ (cap : Fin 17) (f : Filter) (raws : List Word), 1 ≤ cap.val → f.wr = 0 → f.fill = 0 →
    let g := raws.foldl (fun a x => a.insert cap x) f
    g.fill.val = min raws.length cap.val ∧ g.wr.val = raws.length % cap.val ∧
    (∀ j, j < raws.length → raws.length ≤ j + cap.val → g.buf.toList[j % cap.val]? = raws[j]?) ∧
    (∀ i : Fin 16, i.val < min raws.length cap.val → g.written[i] = true) ∧
    (∀ i : Fin 16, min raws.length cap.val ≤ i.val → g.written[i] = f.written[i] ∧ g.buf[i] = f.buf[i]) ∧
    g.dev = f.dev ∧ g.last = f.last

/-- R132: the median is the element at index `CAP div 2` of the used slots in non-decreasing order, whatever order they
stand in. -/
def Obligations.MedianIsTheUpperMiddle : Prop :=
  ∀ (cap : Fin 17) (f : Filter), 1 ≤ cap.val →
    ∀ sorted : List Int, sorted.Perm ((f.buf.toList.take cap.val).map BitVec.toInt) →
      sorted.Pairwise (fun a b => a ≤ b) → sorted[cap.val / 2]? = some (f.median cap)

/-- R133: with `CAP = 0` every value is accepted and nothing inserted; during warm-up it is accepted and inserted; after
it, it is accepted within the fraction of the median of the contents before, and inserted either way. -/
def Obligations.AcceptFollowsWarmUpThenMedian : Prop :=
  ∀ (f : Filter) (x : Word),
    (f.accepts 0 x = true ∧ f.accept 0 x = { f with last := x }) ∧
    ∀ cap : Fin 17, 1 ≤ cap.val →
      (f.fill.val < cap.val →
        f.accepts cap x = true ∧ f.accept cap x = ({ f with last := x } : Filter).insert cap x) ∧
      (cap.val ≤ f.fill.val →
        (f.accepts cap x = true ↔ within x.toInt (f.median cap) f.dev = true) ∧
        (within x.toInt (f.median cap) f.dev = true →
          f.accept cap x = ({ f with last := x } : Filter).insert cap x) ∧
        (within x.toInt (f.median cap) f.dev = false → f.accept cap x = f.insert cap x))

/-- R134: the deviation test is the signed inequality as DHT prints it, boundary included; a negative median with
`dev > 0` rejects everything, a zero median accepts only 0, `dev = 0` accepts exactly the median; on values of the
decoder's range both sides stay below 2^40. -/
def Obligations.WithinIsTheSignedInequality : Prop :=
  ∀ (raw med : Int) (dev : BitVec 16),
    (within raw med dev = true ↔ |raw - med| * 1000 ≤ med * dev.toNat) ∧
    (med < 0 → 0 < dev.toNat → within raw med dev = false) ∧
    (within raw 0 dev = true ↔ raw = 0) ∧
    (within raw med 0 = true ↔ raw = med) ∧
    (|raw - med| ≤ 6553500 → |med| ≤ 6553500 → |raw - med| * 1000 < 2 ^ 40 ∧ |med * dev.toNat| < 2 ^ 40)

/-- R138, R150: the `FILTER` step of `READ` writes the two readings, lets each filter judge its own, and completes with
`OK = 1` exactly when both are accepted, else with DeviationReject. -/
def Obligations.FilterStepCompletesRead : Prop :=
  ∀ (s : State) (maxatt : BitVec 8) (retryMs : BitVec 16), s.seq = .filter →
    ∀ rawT rawH : Word, rawT = BitVec.ofInt 32 (decodeFrame s.variant s.frame).1 →
      rawH = BitVec.ofInt 32 (decodeFrame s.variant s.frame).2 →
      exec (.read maxatt retryMs) s = .next { s with
        rawT := rawT
        rawH := rawH
        t := s.t.accept s.cap rawT
        h := s.h.accept s.cap rawH
        seq := .idle
        status := { s.status with
          tAcc := s.t.accepts s.cap rawT
          hAcc := s.h.accepts s.cap rawH
          ok := s.t.accepts s.cap rawT && s.h.accepts s.cap rawH
          err := if s.t.accepts s.cap rawT = true ∧ s.h.accepts s.cap rawH = true then .none else .deviationReject
          done := true
          busy := false } }

/-! ### Frames -/

/-- R104: what no step of `INIT` changes: the buffer slots, whether they have been written, `T_ACC`, `H_ACC`, `att_n`,
`cmd_w`, and what is not the block's; and after its assignments, made in `DISPATCH`, what no step of a calibration changes. -/
def Obligations.InitFrame : Prop :=
  ∀ (s t : State) (v : Variant) (cap : BitVec 8), exec (.init v cap) s = .next t →
    (∀ addr : Addr, 0x0F ≤ addr.toNat ∨ addr = 0x00 → regWord t addr = regWord s addr) ∧
    t.t.buf = s.t.buf ∧ t.h.buf = s.h.buf ∧ t.t.written = s.t.written ∧ t.h.written = s.h.written ∧
    t.status.tAcc = s.status.tAcc ∧ t.status.hAcc = s.status.hAcc ∧ t.attN = s.attN ∧ t.cmdW = s.cmdW ∧
    (s.seq ≠ .dispatch → t.t = s.t ∧ t.h = s.h ∧ t.rawT = s.rawT ∧ t.rawH = s.rawH ∧ t.variant = s.variant ∧
      t.cap = s.cap ∧ t.status.inited = s.status.inited ∧ t.status.overrun = s.status.overrun ∧
      (s.seq ≠ .attEnd → t.threshold = s.threshold ∧ t.timeout = s.timeout ∧ t.frame = s.frame)) ∧
    t.resetAsserted = s.resetAsserted ∧ t.params = s.params ∧ t.tail = s.tail ∧ t.hostOps = s.hostOps ∧ t.turns = s.turns ∧
    t.answers = s.answers ∧ t.draws = s.draws

/-- 41_calibrator.md R103: what no step of `CALIBRATE` changes: every register but `STATUS`, `THRESHOLD`, `TIMEOUT` and
the frame; the filters, the readings, the configuration; the flags `INITED`, `T_ACC`, `H_ACC`, `OVERRUN`. -/
def Obligations.CalibrateFrame : Prop :=
  ∀ s t : State, exec .calibrate s = .next t →
    (∀ addr : Addr, addr ≠ 0x01 → addr ≠ 0x03 → addr ≠ 0x04 → addr ≠ 0x05 → addr ≠ 0x06 →
      regWord t addr = regWord s addr) ∧
    t.t = s.t ∧ t.h = s.h ∧ t.rawT = s.rawT ∧ t.rawH = s.rawH ∧ t.variant = s.variant ∧ t.cap = s.cap ∧
    t.status.inited = s.status.inited ∧ t.status.tAcc = s.status.tAcc ∧ t.status.hAcc = s.status.hAcc ∧
    t.status.overrun = s.status.overrun ∧ t.attN = s.attN ∧ t.cmdW = s.cmdW ∧
    (s.seq ≠ .attEnd → t.threshold = s.threshold ∧ t.timeout = s.timeout ∧ t.frame = s.frame) ∧
    t.resetAsserted = s.resetAsserted ∧ t.params = s.params ∧ t.tail = s.tail ∧ t.hostOps = s.hostOps ∧ t.turns = s.turns ∧
    t.answers = s.answers ∧ t.draws = s.draws

/-- 42_frame_acquirer.md R113: what no step of `ACQUIRE` changes: every register but `STATUS` and the frame;
`THRESHOLD`, `TIMEOUT`, the readings, the filters, the configuration; the flags `INITED`, `CAL_OK`, `T_ACC`, `H_ACC`,
`OVERRUN`. -/
def Obligations.AcquireFrame : Prop :=
  ∀ (s t : State) (maxatt : BitVec 8) (retryMs : BitVec 16), exec (.acquire maxatt retryMs) s = .next t →
    (∀ addr : Addr, addr ≠ 0x01 → addr ≠ 0x05 → addr ≠ 0x06 → regWord t addr = regWord s addr) ∧
    t.threshold = s.threshold ∧ t.timeout = s.timeout ∧ t.t = s.t ∧ t.h = s.h ∧ t.rawT = s.rawT ∧ t.rawH = s.rawH ∧
    t.variant = s.variant ∧ t.cap = s.cap ∧ t.status.inited = s.status.inited ∧ t.status.calOk = s.status.calOk ∧
    t.status.tAcc = s.status.tAcc ∧ t.status.hAcc = s.status.hAcc ∧ t.status.overrun = s.status.overrun ∧
    t.calN = s.calN ∧ t.cmdW = s.cmdW ∧ (s.seq ≠ .attEnd → t.frame = s.frame) ∧
    t.resetAsserted = s.resetAsserted ∧ t.params = s.params ∧ t.tail = s.tail ∧ t.hostOps = s.hostOps ∧ t.turns = s.turns ∧
    t.answers = s.answers ∧ t.draws = s.draws

/-- 44_noise_filter.md R138: what no step of `READ` changes: `CFG`, `THRESHOLD`, `TIMEOUT`, `DEV_T`, `DEV_H` and the
reserved addresses; the flags `INITED`, `CAL_OK`, `OVERRUN`; and outside the `FILTER` step also the readings, both
filters, `T_ACC` and `H_ACC`. -/
def Obligations.ReadFrame : Prop :=
  ∀ (s t : State) (maxatt : BitVec 8) (retryMs : BitVec 16), exec (.read maxatt retryMs) s = .next t →
    (∀ addr : Addr, addr = 0x00 ∨ addr = 0x02 ∨ addr = 0x03 ∨ addr = 0x04 ∨ addr = 0x0B ∨ addr = 0x0C ∨ addr = 0x0F ∨
      0x30 ≤ addr.toNat → regWord t addr = regWord s addr) ∧
    t.threshold = s.threshold ∧ t.timeout = s.timeout ∧ t.variant = s.variant ∧ t.cap = s.cap ∧
    t.t.dev = s.t.dev ∧ t.h.dev = s.h.dev ∧ t.status.inited = s.status.inited ∧ t.status.calOk = s.status.calOk ∧
    t.status.overrun = s.status.overrun ∧ t.calN = s.calN ∧ t.cmdW = s.cmdW ∧
    (s.seq ≠ .attEnd → t.frame = s.frame) ∧
    (s.seq ≠ .filter → t.t = s.t ∧ t.h = s.h ∧ t.rawT = s.rawT ∧ t.rawH = s.rawH ∧
      t.status.tAcc = s.status.tAcc ∧ t.status.hAcc = s.status.hAcc) ∧
    t.resetAsserted = s.resetAsserted ∧ t.params = s.params ∧ t.tail = s.tail ∧ t.hostOps = s.hostOps ∧ t.turns = s.turns ∧
    t.answers = s.answers ∧ t.draws = s.draws

/-- R137: what `SETDEV` changes is `STATUS` and the one deviation register, also when it is refused: every other register,
the flags but `DONE`, `OK`, `ERR`, `BUSY`, the port trace and all hidden state are as before. -/
def Obligations.SetdevFrame : Prop :=
  ∀ (s t : State) (q : Quantity) (permille : BitVec 16), exec (.setdev q permille) s = .next t →
    (∀ addr : Addr, addr ≠ 0x01 → addr ≠ (match q with | .temperature => 0x0B | .humidity => 0x0C) →
      regWord t addr = regWord s addr) ∧
    t = { s with
      t := { s.t with dev := t.t.dev }
      h := { s.h with dev := t.h.dev }
      seq := t.seq
      status := { s.status with ok := t.status.ok, err := t.status.err, done := t.status.done, busy := t.status.busy } } ∧
    (q = .temperature → t.h = s.h) ∧ (q = .humidity → t.t = s.t)

/-- The forms on which a meaning stops (log 9): control states in which R147 and R153 never put the command. -/
def Obligations.StrayControlStops : Prop :=
  ∀ s : State,
    (∀ (q : Quantity) (permille : BitVec 16), s.seq ≠ .idle → s.seq ≠ .dispatch →
      exec (.setdev q permille) s = .fault .strayControl) ∧
    (s.seq = .retry ∨ s.seq = .filter → exec .calibrate s = .fault .strayControl ∧
      ∀ (v : Variant) (cap : BitVec 8), exec (.init v cap) s = .fault .strayControl) ∧
    (s.seq = .filter → ∀ (maxatt : BitVec 8) (retryMs : BitVec 16),
      exec (.acquire maxatt retryMs) s = .fault .strayControl)

/-! ### Reset and the invariant -/

/-- 10_state.md R23, 70_reset_and_hazards.md R185: after power-on, at the moment the reset input is asserted or released,
and after every turn of another agent while it is asserted, the block holds the reset values; the reset input may change
in any state, and nothing is added to the port trace. What stands outside the block stays, and a host operation issued in
that interval is used up without an effect on the block: the model's choices (log 8). -/
def Obligations.ResetInputResetsTheBlock : Prop :=
  BlockAtReset State.reset ∧ State.reset.resetAsserted = false ∧
  (∀ (s : State) (asserted : Bool), nextAgent s = .resetInput asserted →
    ∃ t, step s = .next t ∧ BlockAtReset t ∧ t.resetAsserted = asserted ∧ t.trace = s.trace ∧ t.params = s.params ∧
      t.script = s.script ∧ t.tail = s.tail ∧ t.hostOps = s.hostOps ∧ t.answers = s.answers) ∧
  ∀ s : State, s.resetAsserted = true → (∀ asserted, nextAgent s ≠ .resetInput asserted) →
    ∃ t, step s = .next t ∧ BlockAtReset t ∧ t.resetAsserted = true ∧ t.trace = s.trace ∧ t.params = s.params ∧
      t.script = s.script ∧ t.tail = s.tail ∧
      (nextAgent s = .host → ∀ op rest, s.hostOps = op :: rest → s.status.busy = false → t.hostOps = rest) ∧
      (nextAgent s = .sequencer → t.hostOps = s.hostOps ∧ t.answers = s.answers)

/-- The machine right after reset meets the invariant. -/
def Obligations.ResetMeetsTheInvariant : Prop := Inv State.reset

/-- Every step, whoever's turn it is, keeps the invariant (10_state.md R12, R14; 44_noise_filter.md R131, R135;
40_line_and_pulse_counter.md R82, R83, R88; 42_frame_acquirer.md R112; 43_decoder.md R124). -/
def Obligations.EveryStepKeepsTheInvariant : Prop := ∀ s t : State, Inv s → step s = .next t → Inv t

/-- From every state that meets the invariant the next step goes on: no fault and no refusal (60_exceptions.md R166,
R170, R171: every error is local). -/
def Obligations.EveryStepGoesOn : Prop := ∀ s : State, Inv s → ∃ t, step s = .next t

/-! ### Whole commands -/

/-- 45_sequencer.md R152: from the `DISPATCH` state of any command the sequencer reaches, in some number of steps, the
state that the command's procedure ends in, port trace included, but for the control registers `phase` and `bit_idx`.
`TIMEOUT ≥ 1`, for `INIT` `TIMEOUT_INIT ≥ 1`, is the invariant's (10_state.md R12, 00_scope.md R5). -/
def Obligations.SequencerAgreesWithProcedures : Prop :=
  ∀ (i : Instr) (s t : State) (fuel : Nat), Undisturbed s → s.seq = .dispatch → decode s.cmdW = .ok i →
    1 ≤ (timeoutOf i s).toNat → procedure fuel i s = some t →
    ∃ u, Reaches s u ∧ u.seq = .idle ∧ controlErased u = controlErased t

/-- 45_sequencer.md R152 with R146, R149: the same under every interleaving. Whatever turns the host is given while the
command runs, and whatever it does in them, commands written to `CMD` included, the block completes the command in the
state its procedure ends in, with the same port trace; only `OVERRUN` and what is the host's may differ. -/
def Obligations.AgreementUnderEveryInterleaving : Prop :=
  ∀ (i : Instr) (s t : State) (fuel : Nat), (∀ asserted, Agent.resetInput asserted ∉ s.turns) →
    s.resetAsserted = false → s.seq = .dispatch → s.status.busy = true → decode s.cmdW = .ok i → 1 ≤ (timeoutOf i s).toNat →
    procedure fuel i { s with turns := [], hostOps := [] } = some t →
    ∃ u, Reaches s u ∧ u.seq = .idle ∧ outsideErased u = outsideErased t

/-- 40_line_and_pulse_counter.md R88, R82 to R86, 20_memory.md R45: when the line answers 40 bit slots that stand for
the frame `f`, no phase timing out, an attempt leaves `FRAME = f`, `FRAME_OK` and the cause by the validity of `f`, the
sum of the LOW counts and the greatest HIGH count, and the samples that follow. -/
def Obligations.AttemptReceivesTheSentFrame : Prop :=
  ∀ (cal : Bool) (s : State) (f : Frame) (ackLow ackHigh : Nat) (counts : List (Nat × Nat)) (rest : List Level),
    ackLow < s.timeout.toNat → ackHigh < s.timeout.toNat → CountsSend cal s counts f →
    s.script = wireSamples ackLow ackHigh counts ++ rest →
    let t := attempt cal s
    t.frame = f ∧ t.bitErr = false ∧ (t.status.frameOk = true ↔ frameValid f = true) ∧
      t.cause = attemptCause false f ∧ t.sumLow.toNat = (counts.map (fun c => c.1)).sum ∧
      t.maxHigh.toNat = (counts.map (fun c => c.2)).foldl max 0 ∧ t.script = rest

/-- 41_calibrator.md R100, R101, R103: a `CALIBRATE` on an initialised block whose first attempt meets 40 bit slots that
stand for a valid frame completes with `OK = 1`, `CAL_OK = 1`; `THRESHOLD` is the truncated mean of the LOW counts and
`TIMEOUT` the truncated 1.25-fold of the greatest HIGH count, saturated. The filters and readings are as they were. -/
def Obligations.CalibrateLearnsFromTheWire : Prop :=
  ∀ (s : State) (f : Frame) (ackLow ackHigh : Nat) (counts : List (Nat × Nat)) (rest : List Level),
    Undisturbed s → s.seq = .dispatch → decode s.cmdW = .ok .calibrate → s.status.inited = true →
    ackLow < s.timeout.toNat → ackHigh < s.timeout.toNat → CountsSend true s counts f →
    s.script = wireSamples ackLow ackHigh counts ++ rest → frameValid f = true →
    ∃ u, Reaches s u ∧ u.seq = .idle ∧ u.frame = f ∧
      u.status = { s.status with
        frameOk := true, calOk := true, ok := true, err := .none, done := true, busy := false } ∧
      u.threshold.toNat = (counts.map (fun c => c.1)).sum / 40 ∧
      (∀ m, m = (counts.map (fun c => c.2)).foldl max 0 → u.timeout.toNat = min 65535 (m + m / 4)) ∧
      u.rawT = s.rawT ∧ u.rawH = s.rawH ∧ u.t = s.t ∧ u.h = s.h ∧ u.script = rest

/-- 41_calibrator.md R104: an `INIT` with `cap ≤ 16` whose first attempt meets 40 bit slots that stand for a valid frame
under `TIMEOUT_INIT` and the default threshold leaves the block configured, calibrated and with empty filters. -/
def Obligations.InitLearnsFromTheWire : Prop :=
  ∀ (s : State) (v : Variant) (cap : BitVec 8) (f : Frame) (ackLow ackHigh : Nat) (counts : List (Nat × Nat))
    (rest : List Level),
    Undisturbed s → s.seq = .dispatch → decode s.cmdW = .ok (.init v cap) → cap.toNat ≤ 16 →
    ackLow < s.params.timeoutInit.toNat → ackHigh < s.params.timeoutInit.toNat →
    CountsSend true { s with timeout := s.params.timeoutInit, threshold := 16 } counts f →
    s.script = wireSamples ackLow ackHigh counts ++ rest → frameValid f = true →
    ∃ u, Reaches s u ∧ u.seq = .idle ∧ u.frame = f ∧ u.variant = v ∧ u.cap.val = cap.toNat ∧
      u.status = { s.status with
        inited := true, overrun := false, frameOk := true, calOk := true, ok := true, err := .none, done := true
        busy := false } ∧
      u.threshold.toNat = (counts.map (fun c => c.1)).sum / 40 ∧
      (∀ m, m = (counts.map (fun c => c.2)).foldl max 0 → u.timeout.toNat = min 65535 (m + m / 4)) ∧
      u.rawT = 0 ∧ u.rawH = 0 ∧
      u.t = { s.t with last := BitVec.ofInt 32 (-100000), dev := 200, wr := 0, fill := 0 } ∧
      u.h = { s.h with last := BitVec.ofInt 32 (-100000), dev := 200, wr := 0, fill := 0 }

/-- 42_frame_acquirer.md R113: an `ACQUIRE` on an initialised block whose first attempt meets 40 bit slots that stand for
a valid frame `f` completes with `OK = 1`, `ERR = 0`, `FRAME_OK = 1` and `FRAME = f`, which is then in `FRAME_LO` and
`FRAME_HI`; `THRESHOLD`, `TIMEOUT`, the readings and both filters are as they were. -/
def Obligations.AcquireDeliversTheSentFrame : Prop :=
  ∀ (s : State) (maxatt : BitVec 8) (retryMs : BitVec 16) (f : Frame) (ackLow ackHigh : Nat)
    (counts : List (Nat × Nat)) (rest : List Level),
    Undisturbed s → s.seq = .dispatch → decode s.cmdW = .ok (.acquire maxatt retryMs) → s.status.inited = true →
    0 ≤ maxatt.toInt → ackLow < s.timeout.toNat → ackHigh < s.timeout.toNat → CountsSend false s counts f →
    s.script = wireSamples ackLow ackHigh counts ++ rest → frameValid f = true →
    ∃ u, Reaches s u ∧ u.seq = .idle ∧ u.frame = f ∧
      u.status = { s.status with frameOk := true, ok := true, err := .none, done := true, busy := false } ∧
      regWord u 0x05 = f.extractLsb' 8 32 ∧ regWord u 0x06 = (f.extractLsb' 0 8).setWidth 32 ∧
      u.threshold = s.threshold ∧ u.timeout = s.timeout ∧ u.rawT = s.rawT ∧ u.rawH = s.rawH ∧ u.t = s.t ∧ u.h = s.h ∧
      u.script = rest

/-- 44_noise_filter.md R138: a `READ` on an initialised block whose first attempt meets 40 bit slots that stand for a
valid frame `f` leaves in `RAW_T` and `RAW_H` what `f` decodes to, has each filter judge its own reading, and completes
with `OK = 1` exactly when both accept. -/
def Obligations.ReadDeliversTheSentReadings : Prop :=
  ∀ (s : State) (maxatt : BitVec 8) (retryMs : BitVec 16) (f : Frame) (ackLow ackHigh : Nat)
    (counts : List (Nat × Nat)) (rest : List Level),
    Undisturbed s → s.seq = .dispatch → decode s.cmdW = .ok (.read maxatt retryMs) → s.status.inited = true →
    0 ≤ maxatt.toInt → ackLow < s.timeout.toNat → ackHigh < s.timeout.toNat → CountsSend false s counts f →
    s.script = wireSamples ackLow ackHigh counts ++ rest → frameValid f = true →
    ∃ u, Reaches s u ∧ u.seq = .idle ∧ u.frame = f ∧
      u.rawT.toInt = (decodeFrame s.variant f).1 ∧ u.rawH.toInt = (decodeFrame s.variant f).2 ∧
      u.t = s.t.accept s.cap u.rawT ∧ u.h = s.h.accept s.cap u.rawH ∧
      u.status.tAcc = s.t.accepts s.cap u.rawT ∧ u.status.hAcc = s.h.accepts s.cap u.rawH ∧
      (u.status.ok = true ↔ u.status.tAcc = true ∧ u.status.hAcc = true) ∧
      u.status.err = (if u.status.ok = true then .none else .deviationReject) ∧
      u.status.frameOk = true ∧ u.status.done = true ∧ u.status.busy = false ∧
      u.threshold = s.threshold ∧ u.timeout = s.timeout ∧ u.script = rest

/-- 70_reset_and_hazards.md R192: every command but `ACQUIRE` and `READ` with `maxatt = 0` completes, whatever the line
answers, with `BUSY = 0` and `DONE = 1`: `INIT` and `CALIBRATE` after at most 5 attempts with no retry delay, `ACQUIRE`
and `READ` after at most `maxatt` attempts and `maxatt − 1` retry delays. An attempt has one millisecond delay of its own,
the start pulse (R83). -/
def Obligations.BoundedCommandsComplete : Prop :=
  ∀ (i : Instr) (s : State), Undisturbed s → s.seq = .dispatch → decode s.cmdW = .ok i → 1 ≤ (timeoutOf i s).toNat →
    (∀ maxatt retryMs, i = .acquire maxatt retryMs ∨ i = .read maxatt retryMs → maxatt.toInt ≠ 0) →
    ∃ (u : State) (attempts retries : Nat), Reaches s u ∧ u.seq = .idle ∧ u.status.busy = false ∧ u.status.done = true ∧
      attempts ≤ attemptLimit i ∧ retries ≤ retryLimit i ∧
      u.trace.countP isStart = s.trace.countP isStart + attempts ∧
      u.trace.countP isDelayMs = s.trace.countP isDelayMs + attempts + retries

/-- 30_encoding.md R69, R72: the pseudo-operations. A command line on an idle block, the write of its word and `WAIT`, is
the blocking call: it ends where the command's procedure ends, with `OK` as the result of the `WAIT`, and the operations
that follow still to come. `acquireFrame` returns `OK` and the frame; `lastTemperature` and `lastHumidity` the thousandth
part of the signed word; `setMaxDeviation(q, f)` is `SETDEV` of an integer nearest to f × 1000, and of each operand that
f × 1000 is less than 1/2 away from. The order in which idle block and host move is log 3's, the tie of `round` and the
fractions without a command log 20's. -/
def Obligations.PseudoOperationsReturnTheirResults : Prop :=
  (∀ (i : Instr) (s t : State) (fuel : Nat) (rest : List HostOp), Undisturbed s → s.seq = .idle →
    s.status.busy = false → 1 ≤ (timeoutOf i s).toNat →
    procedure fuel i (latchCommand (encode i) { s with hostOps := .wait :: rest }) = some t →
    s.hostOps = commandLine i ++ rest →
    ∃ u, Reaches s u ∧ waitResult u = some t.status.ok ∧
      controlErased u =
        controlErased { t with hostOps := rest, answers := (0x01, t.status.toWord) :: s.answers } ∧
      ∀ maxatt retryMs, i = .acquire maxatt retryMs → s.hostOps = acquireFrameOps maxatt retryMs →
        ∃ v, Reaches u v ∧ v.hostOps = [] ∧ acquireFrameResult v = some (t.status.ok, t.frame)) ∧
  (∀ s : State, Undisturbed s → s.seq = .idle → s.status.busy = false →
    (s.hostOps = lastTemperatureOps →
      ∃ u, step s = .next u ∧ lastTemperatureResult u = some ((s.t.last.toInt : Rat) / 1000)) ∧
    (s.hostOps = lastHumidityOps →
      ∃ u, step s = .next u ∧ lastHumidityResult u = some ((s.h.last.toInt : Rat) / 1000))) ∧
  (∀ (q : Quantity) (f : Rat) (ops : List HostOp), setMaxDeviationOps q f = some ops →
    ∃ permille : BitVec 16, ops = commandLine (.setdev q permille) ∧ |f * 1000 - (permille.toNat : Rat)| ≤ 1 / 2) ∧
  ∀ (q : Quantity) (f : Rat) (permille : BitVec 16), |f * 1000 - (permille.toNat : Rat)| < 1 / 2 →
    setMaxDeviationOps q f = some (commandLine (.setdev q permille))
end

