-- ==== Sys2Proof/Laws/State.lean ====
section
/-! SUPPORT. One lemma for each field of State and each shared update: what the field is after the update. -/

namespace Sys2Proof.Machine

/-! ### emit -/

@[simp] theorem emit_frame (e : PortEvent) (s : State) : (emit e s).frame = s.frame := rfl
@[simp] theorem emit_threshold (e : PortEvent) (s : State) : (emit e s).threshold = s.threshold := rfl
@[simp] theorem emit_timeout (e : PortEvent) (s : State) : (emit e s).timeout = s.timeout := rfl
@[simp] theorem emit_rawT (e : PortEvent) (s : State) : (emit e s).rawT = s.rawT := rfl
@[simp] theorem emit_rawH (e : PortEvent) (s : State) : (emit e s).rawH = s.rawH := rfl
@[simp] theorem emit_seq (e : PortEvent) (s : State) : (emit e s).seq = s.seq := rfl
@[simp] theorem emit_bitIdx (e : PortEvent) (s : State) : (emit e s).bitIdx = s.bitIdx := rfl
@[simp] theorem emit_attN (e : PortEvent) (s : State) : (emit e s).attN = s.attN := rfl
@[simp] theorem emit_calN (e : PortEvent) (s : State) : (emit e s).calN = s.calN := rfl
@[simp] theorem emit_cmdW (e : PortEvent) (s : State) : (emit e s).cmdW = s.cmdW := rfl
@[simp] theorem emit_status (e : PortEvent) (s : State) : (emit e s).status = s.status := rfl
@[simp] theorem emit_variant (e : PortEvent) (s : State) : (emit e s).variant = s.variant := rfl
@[simp] theorem emit_cap (e : PortEvent) (s : State) : (emit e s).cap = s.cap := rfl
@[simp] theorem emit_t (e : PortEvent) (s : State) : (emit e s).t = s.t := rfl
@[simp] theorem emit_h (e : PortEvent) (s : State) : (emit e s).h = s.h := rfl
@[simp] theorem emit_bitErr (e : PortEvent) (s : State) : (emit e s).bitErr = s.bitErr := rfl
@[simp] theorem emit_sumLow (e : PortEvent) (s : State) : (emit e s).sumLow = s.sumLow := rfl
@[simp] theorem emit_maxHigh (e : PortEvent) (s : State) : (emit e s).maxHigh = s.maxHigh := rfl
@[simp] theorem emit_count (e : PortEvent) (s : State) : (emit e s).count = s.count := rfl
@[simp] theorem emit_loCnt (e : PortEvent) (s : State) : (emit e s).loCnt = s.loCnt := rfl
@[simp] theorem emit_phase (e : PortEvent) (s : State) : (emit e s).phase = s.phase := rfl
@[simp] theorem emit_shreg (e : PortEvent) (s : State) : (emit e s).shreg = s.shreg := rfl
@[simp] theorem emit_cause (e : PortEvent) (s : State) : (emit e s).cause = s.cause := rfl
@[simp] theorem emit_dqOe (e : PortEvent) (s : State) : (emit e s).dqOe = s.dqOe := rfl
@[simp] theorem emit_dqOut (e : PortEvent) (s : State) : (emit e s).dqOut = s.dqOut := rfl
@[simp] theorem emit_trace (e : PortEvent) (s : State) : (emit e s).trace = e :: s.trace := rfl
@[simp] theorem emit_resetAsserted (e : PortEvent) (s : State) : (emit e s).resetAsserted = s.resetAsserted := rfl
@[simp] theorem emit_params (e : PortEvent) (s : State) : (emit e s).params = s.params := rfl
@[simp] theorem emit_script (e : PortEvent) (s : State) : (emit e s).script = s.script := rfl
@[simp] theorem emit_tail (e : PortEvent) (s : State) : (emit e s).tail = s.tail := rfl
@[simp] theorem emit_hostOps (e : PortEvent) (s : State) : (emit e s).hostOps = s.hostOps := rfl
@[simp] theorem emit_turns (e : PortEvent) (s : State) : (emit e s).turns = s.turns := rfl
@[simp] theorem emit_answers (e : PortEvent) (s : State) : (emit e s).answers = s.answers := rfl
@[simp] theorem emit_draws (e : PortEvent) (s : State) : (emit e s).draws = s.draws := rfl

/-! ### portSetMode -/

@[simp] theorem portSetMode_frame (m : PortMode) (s : State) : (portSetMode m s).frame = s.frame := rfl
@[simp] theorem portSetMode_threshold (m : PortMode) (s : State) : (portSetMode m s).threshold = s.threshold := rfl
@[simp] theorem portSetMode_timeout (m : PortMode) (s : State) : (portSetMode m s).timeout = s.timeout := rfl
@[simp] theorem portSetMode_rawT (m : PortMode) (s : State) : (portSetMode m s).rawT = s.rawT := rfl
@[simp] theorem portSetMode_rawH (m : PortMode) (s : State) : (portSetMode m s).rawH = s.rawH := rfl
@[simp] theorem portSetMode_seq (m : PortMode) (s : State) : (portSetMode m s).seq = s.seq := rfl
@[simp] theorem portSetMode_bitIdx (m : PortMode) (s : State) : (portSetMode m s).bitIdx = s.bitIdx := rfl
@[simp] theorem portSetMode_attN (m : PortMode) (s : State) : (portSetMode m s).attN = s.attN := rfl
@[simp] theorem portSetMode_calN (m : PortMode) (s : State) : (portSetMode m s).calN = s.calN := rfl
@[simp] theorem portSetMode_cmdW (m : PortMode) (s : State) : (portSetMode m s).cmdW = s.cmdW := rfl
@[simp] theorem portSetMode_status (m : PortMode) (s : State) : (portSetMode m s).status = s.status := rfl
@[simp] theorem portSetMode_variant (m : PortMode) (s : State) : (portSetMode m s).variant = s.variant := rfl
@[simp] theorem portSetMode_cap (m : PortMode) (s : State) : (portSetMode m s).cap = s.cap := rfl
@[simp] theorem portSetMode_t (m : PortMode) (s : State) : (portSetMode m s).t = s.t := rfl
@[simp] theorem portSetMode_h (m : PortMode) (s : State) : (portSetMode m s).h = s.h := rfl
@[simp] theorem portSetMode_bitErr (m : PortMode) (s : State) : (portSetMode m s).bitErr = s.bitErr := rfl
@[simp] theorem portSetMode_sumLow (m : PortMode) (s : State) : (portSetMode m s).sumLow = s.sumLow := rfl
@[simp] theorem portSetMode_maxHigh (m : PortMode) (s : State) : (portSetMode m s).maxHigh = s.maxHigh := rfl
@[simp] theorem portSetMode_count (m : PortMode) (s : State) : (portSetMode m s).count = s.count := rfl
@[simp] theorem portSetMode_loCnt (m : PortMode) (s : State) : (portSetMode m s).loCnt = s.loCnt := rfl
@[simp] theorem portSetMode_phase (m : PortMode) (s : State) : (portSetMode m s).phase = s.phase := rfl
@[simp] theorem portSetMode_shreg (m : PortMode) (s : State) : (portSetMode m s).shreg = s.shreg := rfl
@[simp] theorem portSetMode_cause (m : PortMode) (s : State) : (portSetMode m s).cause = s.cause := rfl
@[simp] theorem portSetMode_dqOe (m : PortMode) (s : State) : (portSetMode m s).dqOe = decide (m = .output) := rfl
@[simp] theorem portSetMode_dqOut (m : PortMode) (s : State) : (portSetMode m s).dqOut = s.dqOut := rfl
@[simp] theorem portSetMode_trace (m : PortMode) (s : State) : (portSetMode m s).trace = .mode m :: s.trace := rfl
@[simp] theorem portSetMode_resetAsserted (m : PortMode) (s : State) : (portSetMode m s).resetAsserted = s.resetAsserted := rfl
@[simp] theorem portSetMode_params (m : PortMode) (s : State) : (portSetMode m s).params = s.params := rfl
@[simp] theorem portSetMode_script (m : PortMode) (s : State) : (portSetMode m s).script = s.script := rfl
@[simp] theorem portSetMode_tail (m : PortMode) (s : State) : (portSetMode m s).tail = s.tail := rfl
@[simp] theorem portSetMode_hostOps (m : PortMode) (s : State) : (portSetMode m s).hostOps = s.hostOps := rfl
@[simp] theorem portSetMode_turns (m : PortMode) (s : State) : (portSetMode m s).turns = s.turns := rfl
@[simp] theorem portSetMode_answers (m : PortMode) (s : State) : (portSetMode m s).answers = s.answers := rfl
@[simp] theorem portSetMode_draws (m : PortMode) (s : State) : (portSetMode m s).draws = s.draws := rfl

/-! ### portWrite -/

@[simp] theorem portWrite_frame (l : Level) (s : State) : (portWrite l s).frame = s.frame := rfl
@[simp] theorem portWrite_threshold (l : Level) (s : State) : (portWrite l s).threshold = s.threshold := rfl
@[simp] theorem portWrite_timeout (l : Level) (s : State) : (portWrite l s).timeout = s.timeout := rfl
@[simp] theorem portWrite_rawT (l : Level) (s : State) : (portWrite l s).rawT = s.rawT := rfl
@[simp] theorem portWrite_rawH (l : Level) (s : State) : (portWrite l s).rawH = s.rawH := rfl
@[simp] theorem portWrite_seq (l : Level) (s : State) : (portWrite l s).seq = s.seq := rfl
@[simp] theorem portWrite_bitIdx (l : Level) (s : State) : (portWrite l s).bitIdx = s.bitIdx := rfl
@[simp] theorem portWrite_attN (l : Level) (s : State) : (portWrite l s).attN = s.attN := rfl
@[simp] theorem portWrite_calN (l : Level) (s : State) : (portWrite l s).calN = s.calN := rfl
@[simp] theorem portWrite_cmdW (l : Level) (s : State) : (portWrite l s).cmdW = s.cmdW := rfl
@[simp] theorem portWrite_status (l : Level) (s : State) : (portWrite l s).status = s.status := rfl
@[simp] theorem portWrite_variant (l : Level) (s : State) : (portWrite l s).variant = s.variant := rfl
@[simp] theorem portWrite_cap (l : Level) (s : State) : (portWrite l s).cap = s.cap := rfl
@[simp] theorem portWrite_t (l : Level) (s : State) : (portWrite l s).t = s.t := rfl
@[simp] theorem portWrite_h (l : Level) (s : State) : (portWrite l s).h = s.h := rfl
@[simp] theorem portWrite_bitErr (l : Level) (s : State) : (portWrite l s).bitErr = s.bitErr := rfl
@[simp] theorem portWrite_sumLow (l : Level) (s : State) : (portWrite l s).sumLow = s.sumLow := rfl
@[simp] theorem portWrite_maxHigh (l : Level) (s : State) : (portWrite l s).maxHigh = s.maxHigh := rfl
@[simp] theorem portWrite_count (l : Level) (s : State) : (portWrite l s).count = s.count := rfl
@[simp] theorem portWrite_loCnt (l : Level) (s : State) : (portWrite l s).loCnt = s.loCnt := rfl
@[simp] theorem portWrite_phase (l : Level) (s : State) : (portWrite l s).phase = s.phase := rfl
@[simp] theorem portWrite_shreg (l : Level) (s : State) : (portWrite l s).shreg = s.shreg := rfl
@[simp] theorem portWrite_cause (l : Level) (s : State) : (portWrite l s).cause = s.cause := rfl
@[simp] theorem portWrite_dqOe (l : Level) (s : State) : (portWrite l s).dqOe = s.dqOe := rfl
@[simp] theorem portWrite_dqOut (l : Level) (s : State) : (portWrite l s).dqOut = l := rfl
@[simp] theorem portWrite_trace (l : Level) (s : State) : (portWrite l s).trace = .write l :: s.trace := rfl
@[simp] theorem portWrite_resetAsserted (l : Level) (s : State) : (portWrite l s).resetAsserted = s.resetAsserted := rfl
@[simp] theorem portWrite_params (l : Level) (s : State) : (portWrite l s).params = s.params := rfl
@[simp] theorem portWrite_script (l : Level) (s : State) : (portWrite l s).script = s.script := rfl
@[simp] theorem portWrite_tail (l : Level) (s : State) : (portWrite l s).tail = s.tail := rfl
@[simp] theorem portWrite_hostOps (l : Level) (s : State) : (portWrite l s).hostOps = s.hostOps := rfl
@[simp] theorem portWrite_turns (l : Level) (s : State) : (portWrite l s).turns = s.turns := rfl
@[simp] theorem portWrite_answers (l : Level) (s : State) : (portWrite l s).answers = s.answers := rfl
@[simp] theorem portWrite_draws (l : Level) (s : State) : (portWrite l s).draws = s.draws := rfl

/-! ### portRead -/

@[simp] theorem portRead_frame (s : State) : (portRead s).frame = s.frame := rfl
@[simp] theorem portRead_threshold (s : State) : (portRead s).threshold = s.threshold := rfl
@[simp] theorem portRead_timeout (s : State) : (portRead s).timeout = s.timeout := rfl
@[simp] theorem portRead_rawT (s : State) : (portRead s).rawT = s.rawT := rfl
@[simp] theorem portRead_rawH (s : State) : (portRead s).rawH = s.rawH := rfl
@[simp] theorem portRead_seq (s : State) : (portRead s).seq = s.seq := rfl
@[simp] theorem portRead_bitIdx (s : State) : (portRead s).bitIdx = s.bitIdx := rfl
@[simp] theorem portRead_attN (s : State) : (portRead s).attN = s.attN := rfl
@[simp] theorem portRead_calN (s : State) : (portRead s).calN = s.calN := rfl
@[simp] theorem portRead_cmdW (s : State) : (portRead s).cmdW = s.cmdW := rfl
@[simp] theorem portRead_status (s : State) : (portRead s).status = s.status := rfl
@[simp] theorem portRead_variant (s : State) : (portRead s).variant = s.variant := rfl
@[simp] theorem portRead_cap (s : State) : (portRead s).cap = s.cap := rfl
@[simp] theorem portRead_t (s : State) : (portRead s).t = s.t := rfl
@[simp] theorem portRead_h (s : State) : (portRead s).h = s.h := rfl
@[simp] theorem portRead_bitErr (s : State) : (portRead s).bitErr = s.bitErr := rfl
@[simp] theorem portRead_sumLow (s : State) : (portRead s).sumLow = s.sumLow := rfl
@[simp] theorem portRead_maxHigh (s : State) : (portRead s).maxHigh = s.maxHigh := rfl
@[simp] theorem portRead_count (s : State) : (portRead s).count = s.count := rfl
@[simp] theorem portRead_loCnt (s : State) : (portRead s).loCnt = s.loCnt := rfl
@[simp] theorem portRead_phase (s : State) : (portRead s).phase = s.phase := rfl
@[simp] theorem portRead_shreg (s : State) : (portRead s).shreg = s.shreg := rfl
@[simp] theorem portRead_cause (s : State) : (portRead s).cause = s.cause := rfl
@[simp] theorem portRead_dqOe (s : State) : (portRead s).dqOe = s.dqOe := rfl
@[simp] theorem portRead_dqOut (s : State) : (portRead s).dqOut = s.dqOut := rfl
@[simp] theorem portRead_trace (s : State) : (portRead s).trace = .read (lineLevel s) :: s.trace := rfl
@[simp] theorem portRead_resetAsserted (s : State) : (portRead s).resetAsserted = s.resetAsserted := rfl
@[simp] theorem portRead_params (s : State) : (portRead s).params = s.params := rfl
@[simp] theorem portRead_script (s : State) : (portRead s).script = s.script.tail := rfl
@[simp] theorem portRead_tail (s : State) : (portRead s).tail = s.tail := rfl
@[simp] theorem portRead_hostOps (s : State) : (portRead s).hostOps = s.hostOps := rfl
@[simp] theorem portRead_turns (s : State) : (portRead s).turns = s.turns := rfl
@[simp] theorem portRead_answers (s : State) : (portRead s).answers = s.answers := rfl
@[simp] theorem portRead_draws (s : State) : (portRead s).draws = s.draws := rfl

/-! ### portDelayMillis -/

@[simp] theorem portDelayMillis_frame (n : Nat) (s : State) : (portDelayMillis n s).frame = s.frame := rfl
@[simp] theorem portDelayMillis_threshold (n : Nat) (s : State) : (portDelayMillis n s).threshold = s.threshold := rfl
@[simp] theorem portDelayMillis_timeout (n : Nat) (s : State) : (portDelayMillis n s).timeout = s.timeout := rfl
@[simp] theorem portDelayMillis_rawT (n : Nat) (s : State) : (portDelayMillis n s).rawT = s.rawT := rfl
@[simp] theorem portDelayMillis_rawH (n : Nat) (s : State) : (portDelayMillis n s).rawH = s.rawH := rfl
@[simp] theorem portDelayMillis_seq (n : Nat) (s : State) : (portDelayMillis n s).seq = s.seq := rfl
@[simp] theorem portDelayMillis_bitIdx (n : Nat) (s : State) : (portDelayMillis n s).bitIdx = s.bitIdx := rfl
@[simp] theorem portDelayMillis_attN (n : Nat) (s : State) : (portDelayMillis n s).attN = s.attN := rfl
@[simp] theorem portDelayMillis_calN (n : Nat) (s : State) : (portDelayMillis n s).calN = s.calN := rfl
@[simp] theorem portDelayMillis_cmdW (n : Nat) (s : State) : (portDelayMillis n s).cmdW = s.cmdW := rfl
@[simp] theorem portDelayMillis_status (n : Nat) (s : State) : (portDelayMillis n s).status = s.status := rfl
@[simp] theorem portDelayMillis_variant (n : Nat) (s : State) : (portDelayMillis n s).variant = s.variant := rfl
@[simp] theorem portDelayMillis_cap (n : Nat) (s : State) : (portDelayMillis n s).cap = s.cap := rfl
@[simp] theorem portDelayMillis_t (n : Nat) (s : State) : (portDelayMillis n s).t = s.t := rfl
@[simp] theorem portDelayMillis_h (n : Nat) (s : State) : (portDelayMillis n s).h = s.h := rfl
@[simp] theorem portDelayMillis_bitErr (n : Nat) (s : State) : (portDelayMillis n s).bitErr = s.bitErr := rfl
@[simp] theorem portDelayMillis_sumLow (n : Nat) (s : State) : (portDelayMillis n s).sumLow = s.sumLow := rfl
@[simp] theorem portDelayMillis_maxHigh (n : Nat) (s : State) : (portDelayMillis n s).maxHigh = s.maxHigh := rfl
@[simp] theorem portDelayMillis_count (n : Nat) (s : State) : (portDelayMillis n s).count = s.count := rfl
@[simp] theorem portDelayMillis_loCnt (n : Nat) (s : State) : (portDelayMillis n s).loCnt = s.loCnt := rfl
@[simp] theorem portDelayMillis_phase (n : Nat) (s : State) : (portDelayMillis n s).phase = s.phase := rfl
@[simp] theorem portDelayMillis_shreg (n : Nat) (s : State) : (portDelayMillis n s).shreg = s.shreg := rfl
@[simp] theorem portDelayMillis_cause (n : Nat) (s : State) : (portDelayMillis n s).cause = s.cause := rfl
@[simp] theorem portDelayMillis_dqOe (n : Nat) (s : State) : (portDelayMillis n s).dqOe = s.dqOe := rfl
@[simp] theorem portDelayMillis_dqOut (n : Nat) (s : State) : (portDelayMillis n s).dqOut = s.dqOut := rfl
@[simp] theorem portDelayMillis_trace (n : Nat) (s : State) : (portDelayMillis n s).trace = .delayMs n :: s.trace := rfl
@[simp] theorem portDelayMillis_resetAsserted (n : Nat) (s : State) : (portDelayMillis n s).resetAsserted = s.resetAsserted := rfl
@[simp] theorem portDelayMillis_params (n : Nat) (s : State) : (portDelayMillis n s).params = s.params := rfl
@[simp] theorem portDelayMillis_script (n : Nat) (s : State) : (portDelayMillis n s).script = s.script := rfl
@[simp] theorem portDelayMillis_tail (n : Nat) (s : State) : (portDelayMillis n s).tail = s.tail := rfl
@[simp] theorem portDelayMillis_hostOps (n : Nat) (s : State) : (portDelayMillis n s).hostOps = s.hostOps := rfl
@[simp] theorem portDelayMillis_turns (n : Nat) (s : State) : (portDelayMillis n s).turns = s.turns := rfl
@[simp] theorem portDelayMillis_answers (n : Nat) (s : State) : (portDelayMillis n s).answers = s.answers := rfl
@[simp] theorem portDelayMillis_draws (n : Nat) (s : State) : (portDelayMillis n s).draws = s.draws := rfl

/-! ### portDelayMicros -/

@[simp] theorem portDelayMicros_frame (n : Nat) (s : State) : (portDelayMicros n s).frame = s.frame := rfl
@[simp] theorem portDelayMicros_threshold (n : Nat) (s : State) : (portDelayMicros n s).threshold = s.threshold := rfl
@[simp] theorem portDelayMicros_timeout (n : Nat) (s : State) : (portDelayMicros n s).timeout = s.timeout := rfl
@[simp] theorem portDelayMicros_rawT (n : Nat) (s : State) : (portDelayMicros n s).rawT = s.rawT := rfl
@[simp] theorem portDelayMicros_rawH (n : Nat) (s : State) : (portDelayMicros n s).rawH = s.rawH := rfl
@[simp] theorem portDelayMicros_seq (n : Nat) (s : State) : (portDelayMicros n s).seq = s.seq := rfl
@[simp] theorem portDelayMicros_bitIdx (n : Nat) (s : State) : (portDelayMicros n s).bitIdx = s.bitIdx := rfl
@[simp] theorem portDelayMicros_attN (n : Nat) (s : State) : (portDelayMicros n s).attN = s.attN := rfl
@[simp] theorem portDelayMicros_calN (n : Nat) (s : State) : (portDelayMicros n s).calN = s.calN := rfl
@[simp] theorem portDelayMicros_cmdW (n : Nat) (s : State) : (portDelayMicros n s).cmdW = s.cmdW := rfl
@[simp] theorem portDelayMicros_status (n : Nat) (s : State) : (portDelayMicros n s).status = s.status := rfl
@[simp] theorem portDelayMicros_variant (n : Nat) (s : State) : (portDelayMicros n s).variant = s.variant := rfl
@[simp] theorem portDelayMicros_cap (n : Nat) (s : State) : (portDelayMicros n s).cap = s.cap := rfl
@[simp] theorem portDelayMicros_t (n : Nat) (s : State) : (portDelayMicros n s).t = s.t := rfl
@[simp] theorem portDelayMicros_h (n : Nat) (s : State) : (portDelayMicros n s).h = s.h := rfl
@[simp] theorem portDelayMicros_bitErr (n : Nat) (s : State) : (portDelayMicros n s).bitErr = s.bitErr := rfl
@[simp] theorem portDelayMicros_sumLow (n : Nat) (s : State) : (portDelayMicros n s).sumLow = s.sumLow := rfl
@[simp] theorem portDelayMicros_maxHigh (n : Nat) (s : State) : (portDelayMicros n s).maxHigh = s.maxHigh := rfl
@[simp] theorem portDelayMicros_count (n : Nat) (s : State) : (portDelayMicros n s).count = s.count := rfl
@[simp] theorem portDelayMicros_loCnt (n : Nat) (s : State) : (portDelayMicros n s).loCnt = s.loCnt := rfl
@[simp] theorem portDelayMicros_phase (n : Nat) (s : State) : (portDelayMicros n s).phase = s.phase := rfl
@[simp] theorem portDelayMicros_shreg (n : Nat) (s : State) : (portDelayMicros n s).shreg = s.shreg := rfl
@[simp] theorem portDelayMicros_cause (n : Nat) (s : State) : (portDelayMicros n s).cause = s.cause := rfl
@[simp] theorem portDelayMicros_dqOe (n : Nat) (s : State) : (portDelayMicros n s).dqOe = s.dqOe := rfl
@[simp] theorem portDelayMicros_dqOut (n : Nat) (s : State) : (portDelayMicros n s).dqOut = s.dqOut := rfl
@[simp] theorem portDelayMicros_trace (n : Nat) (s : State) : (portDelayMicros n s).trace = .delayUs n :: s.trace := rfl
@[simp] theorem portDelayMicros_resetAsserted (n : Nat) (s : State) : (portDelayMicros n s).resetAsserted = s.resetAsserted := rfl
@[simp] theorem portDelayMicros_params (n : Nat) (s : State) : (portDelayMicros n s).params = s.params := rfl
@[simp] theorem portDelayMicros_script (n : Nat) (s : State) : (portDelayMicros n s).script = s.script := rfl
@[simp] theorem portDelayMicros_tail (n : Nat) (s : State) : (portDelayMicros n s).tail = s.tail := rfl
@[simp] theorem portDelayMicros_hostOps (n : Nat) (s : State) : (portDelayMicros n s).hostOps = s.hostOps := rfl
@[simp] theorem portDelayMicros_turns (n : Nat) (s : State) : (portDelayMicros n s).turns = s.turns := rfl
@[simp] theorem portDelayMicros_answers (n : Nat) (s : State) : (portDelayMicros n s).answers = s.answers := rfl
@[simp] theorem portDelayMicros_draws (n : Nat) (s : State) : (portDelayMicros n s).draws = s.draws := rfl

/-! ### goto -/

@[simp] theorem goto_frame (q : Seq) (s : State) : (goto q s).frame = s.frame := rfl
@[simp] theorem goto_threshold (q : Seq) (s : State) : (goto q s).threshold = s.threshold := rfl
@[simp] theorem goto_timeout (q : Seq) (s : State) : (goto q s).timeout = s.timeout := rfl
@[simp] theorem goto_rawT (q : Seq) (s : State) : (goto q s).rawT = s.rawT := rfl
@[simp] theorem goto_rawH (q : Seq) (s : State) : (goto q s).rawH = s.rawH := rfl
@[simp] theorem goto_seq (q : Seq) (s : State) : (goto q s).seq = q := rfl
@[simp] theorem goto_bitIdx (q : Seq) (s : State) : (goto q s).bitIdx = s.bitIdx := rfl
@[simp] theorem goto_attN (q : Seq) (s : State) : (goto q s).attN = s.attN := rfl
@[simp] theorem goto_calN (q : Seq) (s : State) : (goto q s).calN = s.calN := rfl
@[simp] theorem goto_cmdW (q : Seq) (s : State) : (goto q s).cmdW = s.cmdW := rfl
@[simp] theorem goto_status (q : Seq) (s : State) : (goto q s).status = s.status := rfl
@[simp] theorem goto_variant (q : Seq) (s : State) : (goto q s).variant = s.variant := rfl
@[simp] theorem goto_cap (q : Seq) (s : State) : (goto q s).cap = s.cap := rfl
@[simp] theorem goto_t (q : Seq) (s : State) : (goto q s).t = s.t := rfl
@[simp] theorem goto_h (q : Seq) (s : State) : (goto q s).h = s.h := rfl
@[simp] theorem goto_bitErr (q : Seq) (s : State) : (goto q s).bitErr = s.bitErr := rfl
@[simp] theorem goto_sumLow (q : Seq) (s : State) : (goto q s).sumLow = s.sumLow := rfl
@[simp] theorem goto_maxHigh (q : Seq) (s : State) : (goto q s).maxHigh = s.maxHigh := rfl
@[simp] theorem goto_count (q : Seq) (s : State) : (goto q s).count = s.count := rfl
@[simp] theorem goto_loCnt (q : Seq) (s : State) : (goto q s).loCnt = s.loCnt := rfl
@[simp] theorem goto_phase (q : Seq) (s : State) : (goto q s).phase = s.phase := rfl
@[simp] theorem goto_shreg (q : Seq) (s : State) : (goto q s).shreg = s.shreg := rfl
@[simp] theorem goto_cause (q : Seq) (s : State) : (goto q s).cause = s.cause := rfl
@[simp] theorem goto_dqOe (q : Seq) (s : State) : (goto q s).dqOe = s.dqOe := rfl
@[simp] theorem goto_dqOut (q : Seq) (s : State) : (goto q s).dqOut = s.dqOut := rfl
@[simp] theorem goto_trace (q : Seq) (s : State) : (goto q s).trace = s.trace := rfl
@[simp] theorem goto_resetAsserted (q : Seq) (s : State) : (goto q s).resetAsserted = s.resetAsserted := rfl
@[simp] theorem goto_params (q : Seq) (s : State) : (goto q s).params = s.params := rfl
@[simp] theorem goto_script (q : Seq) (s : State) : (goto q s).script = s.script := rfl
@[simp] theorem goto_tail (q : Seq) (s : State) : (goto q s).tail = s.tail := rfl
@[simp] theorem goto_hostOps (q : Seq) (s : State) : (goto q s).hostOps = s.hostOps := rfl
@[simp] theorem goto_turns (q : Seq) (s : State) : (goto q s).turns = s.turns := rfl
@[simp] theorem goto_answers (q : Seq) (s : State) : (goto q s).answers = s.answers := rfl
@[simp] theorem goto_draws (q : Seq) (s : State) : (goto q s).draws = s.draws := rfl

/-! ### latchCommand -/

@[simp] theorem latchCommand_frame (w : Word) (s : State) : (latchCommand w s).frame = s.frame := rfl
@[simp] theorem latchCommand_threshold (w : Word) (s : State) : (latchCommand w s).threshold = s.threshold := rfl
@[simp] theorem latchCommand_timeout (w : Word) (s : State) : (latchCommand w s).timeout = s.timeout := rfl
@[simp] theorem latchCommand_rawT (w : Word) (s : State) : (latchCommand w s).rawT = s.rawT := rfl
@[simp] theorem latchCommand_rawH (w : Word) (s : State) : (latchCommand w s).rawH = s.rawH := rfl
@[simp] theorem latchCommand_seq (w : Word) (s : State) : (latchCommand w s).seq = .dispatch := rfl
@[simp] theorem latchCommand_bitIdx (w : Word) (s : State) : (latchCommand w s).bitIdx = s.bitIdx := rfl
@[simp] theorem latchCommand_attN (w : Word) (s : State) : (latchCommand w s).attN = s.attN := rfl
@[simp] theorem latchCommand_calN (w : Word) (s : State) : (latchCommand w s).calN = s.calN := rfl
@[simp] theorem latchCommand_cmdW (w : Word) (s : State) : (latchCommand w s).cmdW = w := rfl
@[simp] theorem latchCommand_status (w : Word) (s : State) : (latchCommand w s).status = s.status.taken := rfl
@[simp] theorem latchCommand_variant (w : Word) (s : State) : (latchCommand w s).variant = s.variant := rfl
@[simp] theorem latchCommand_cap (w : Word) (s : State) : (latchCommand w s).cap = s.cap := rfl
@[simp] theorem latchCommand_t (w : Word) (s : State) : (latchCommand w s).t = s.t := rfl
@[simp] theorem latchCommand_h (w : Word) (s : State) : (latchCommand w s).h = s.h := rfl
@[simp] theorem latchCommand_bitErr (w : Word) (s : State) : (latchCommand w s).bitErr = s.bitErr := rfl
@[simp] theorem latchCommand_sumLow (w : Word) (s : State) : (latchCommand w s).sumLow = s.sumLow := rfl
@[simp] theorem latchCommand_maxHigh (w : Word) (s : State) : (latchCommand w s).maxHigh = s.maxHigh := rfl
@[simp] theorem latchCommand_count (w : Word) (s : State) : (latchCommand w s).count = s.count := rfl
@[simp] theorem latchCommand_loCnt (w : Word) (s : State) : (latchCommand w s).loCnt = s.loCnt := rfl
@[simp] theorem latchCommand_phase (w : Word) (s : State) : (latchCommand w s).phase = s.phase := rfl
@[simp] theorem latchCommand_shreg (w : Word) (s : State) : (latchCommand w s).shreg = s.shreg := rfl
@[simp] theorem latchCommand_cause (w : Word) (s : State) : (latchCommand w s).cause = s.cause := rfl
@[simp] theorem latchCommand_dqOe (w : Word) (s : State) : (latchCommand w s).dqOe = s.dqOe := rfl
@[simp] theorem latchCommand_dqOut (w : Word) (s : State) : (latchCommand w s).dqOut = s.dqOut := rfl
@[simp] theorem latchCommand_trace (w : Word) (s : State) : (latchCommand w s).trace = s.trace := rfl
@[simp] theorem latchCommand_resetAsserted (w : Word) (s : State) : (latchCommand w s).resetAsserted = s.resetAsserted := rfl
@[simp] theorem latchCommand_params (w : Word) (s : State) : (latchCommand w s).params = s.params := rfl
@[simp] theorem latchCommand_script (w : Word) (s : State) : (latchCommand w s).script = s.script := rfl
@[simp] theorem latchCommand_tail (w : Word) (s : State) : (latchCommand w s).tail = s.tail := rfl
@[simp] theorem latchCommand_hostOps (w : Word) (s : State) : (latchCommand w s).hostOps = s.hostOps := rfl
@[simp] theorem latchCommand_turns (w : Word) (s : State) : (latchCommand w s).turns = s.turns := rfl
@[simp] theorem latchCommand_answers (w : Word) (s : State) : (latchCommand w s).answers = s.answers := rfl
@[simp] theorem latchCommand_draws (w : Word) (s : State) : (latchCommand w s).draws = s.draws := rfl

/-! ### complete -/

@[simp] theorem complete_frame (ok : Bool) (err : ErrorCode) (s : State) : (complete ok err s).frame = s.frame := rfl
@[simp] theorem complete_threshold (ok : Bool) (err : ErrorCode) (s : State) : (complete ok err s).threshold = s.threshold := rfl
@[simp] theorem complete_timeout (ok : Bool) (err : ErrorCode) (s : State) : (complete ok err s).timeout = s.timeout := rfl
@[simp] theorem complete_rawT (ok : Bool) (err : ErrorCode) (s : State) : (complete ok err s).rawT = s.rawT := rfl
@[simp] theorem complete_rawH (ok : Bool) (err : ErrorCode) (s : State) : (complete ok err s).rawH = s.rawH := rfl
@[simp] theorem complete_seq (ok : Bool) (err : ErrorCode) (s : State) : (complete ok err s).seq = .idle := rfl
@[simp] theorem complete_bitIdx (ok : Bool) (err : ErrorCode) (s : State) : (complete ok err s).bitIdx = s.bitIdx := rfl
@[simp] theorem complete_attN (ok : Bool) (err : ErrorCode) (s : State) : (complete ok err s).attN = s.attN := rfl
@[simp] theorem complete_calN (ok : Bool) (err : ErrorCode) (s : State) : (complete ok err s).calN = s.calN := rfl
@[simp] theorem complete_cmdW (ok : Bool) (err : ErrorCode) (s : State) : (complete ok err s).cmdW = s.cmdW := rfl
@[simp] theorem complete_status (ok : Bool) (err : ErrorCode) (s : State) : (complete ok err s).status = s.status.completed ok err := rfl
@[simp] theorem complete_variant (ok : Bool) (err : ErrorCode) (s : State) : (complete ok err s).variant = s.variant := rfl
@[simp] theorem complete_cap (ok : Bool) (err : ErrorCode) (s : State) : (complete ok err s).cap = s.cap := rfl
@[simp] theorem complete_t (ok : Bool) (err : ErrorCode) (s : State) : (complete ok err s).t = s.t := rfl
@[simp] theorem complete_h (ok : Bool) (err : ErrorCode) (s : State) : (complete ok err s).h = s.h := rfl
@[simp] theorem complete_bitErr (ok : Bool) (err : ErrorCode) (s : State) : (complete ok err s).bitErr = s.bitErr := rfl
@[simp] theorem complete_sumLow (ok : Bool) (err : ErrorCode) (s : State) : (complete ok err s).sumLow = s.sumLow := rfl
@[simp] theorem complete_maxHigh (ok : Bool) (err : ErrorCode) (s : State) : (complete ok err s).maxHigh = s.maxHigh := rfl
@[simp] theorem complete_count (ok : Bool) (err : ErrorCode) (s : State) : (complete ok err s).count = s.count := rfl
@[simp] theorem complete_loCnt (ok : Bool) (err : ErrorCode) (s : State) : (complete ok err s).loCnt = s.loCnt := rfl
@[simp] theorem complete_phase (ok : Bool) (err : ErrorCode) (s : State) : (complete ok err s).phase = s.phase := rfl
@[simp] theorem complete_shreg (ok : Bool) (err : ErrorCode) (s : State) : (complete ok err s).shreg = s.shreg := rfl
@[simp] theorem complete_cause (ok : Bool) (err : ErrorCode) (s : State) : (complete ok err s).cause = s.cause := rfl
@[simp] theorem complete_dqOe (ok : Bool) (err : ErrorCode) (s : State) : (complete ok err s).dqOe = s.dqOe := rfl
@[simp] theorem complete_dqOut (ok : Bool) (err : ErrorCode) (s : State) : (complete ok err s).dqOut = s.dqOut := rfl
@[simp] theorem complete_trace (ok : Bool) (err : ErrorCode) (s : State) : (complete ok err s).trace = s.trace := rfl
@[simp] theorem complete_resetAsserted (ok : Bool) (err : ErrorCode) (s : State) : (complete ok err s).resetAsserted = s.resetAsserted := rfl
@[simp] theorem complete_params (ok : Bool) (err : ErrorCode) (s : State) : (complete ok err s).params = s.params := rfl
@[simp] theorem complete_script (ok : Bool) (err : ErrorCode) (s : State) : (complete ok err s).script = s.script := rfl
@[simp] theorem complete_tail (ok : Bool) (err : ErrorCode) (s : State) : (complete ok err s).tail = s.tail := rfl
@[simp] theorem complete_hostOps (ok : Bool) (err : ErrorCode) (s : State) : (complete ok err s).hostOps = s.hostOps := rfl
@[simp] theorem complete_turns (ok : Bool) (err : ErrorCode) (s : State) : (complete ok err s).turns = s.turns := rfl
@[simp] theorem complete_answers (ok : Bool) (err : ErrorCode) (s : State) : (complete ok err s).answers = s.answers := rfl
@[simp] theorem complete_draws (ok : Bool) (err : ErrorCode) (s : State) : (complete ok err s).draws = s.draws := rfl

/-! ### hardReset -/

@[simp] theorem hardReset_frame (s : State) : (hardReset s).frame = State.reset.frame := rfl
@[simp] theorem hardReset_threshold (s : State) : (hardReset s).threshold = State.reset.threshold := rfl
@[simp] theorem hardReset_timeout (s : State) : (hardReset s).timeout = s.params.timeoutInit := rfl
@[simp] theorem hardReset_rawT (s : State) : (hardReset s).rawT = State.reset.rawT := rfl
@[simp] theorem hardReset_rawH (s : State) : (hardReset s).rawH = State.reset.rawH := rfl
@[simp] theorem hardReset_seq (s : State) : (hardReset s).seq = State.reset.seq := rfl
@[simp] theorem hardReset_bitIdx (s : State) : (hardReset s).bitIdx = State.reset.bitIdx := rfl
@[simp] theorem hardReset_attN (s : State) : (hardReset s).attN = State.reset.attN := rfl
@[simp] theorem hardReset_calN (s : State) : (hardReset s).calN = State.reset.calN := rfl
@[simp] theorem hardReset_cmdW (s : State) : (hardReset s).cmdW = State.reset.cmdW := rfl
@[simp] theorem hardReset_status (s : State) : (hardReset s).status = State.reset.status := rfl
@[simp] theorem hardReset_variant (s : State) : (hardReset s).variant = State.reset.variant := rfl
@[simp] theorem hardReset_cap (s : State) : (hardReset s).cap = State.reset.cap := rfl
@[simp] theorem hardReset_t (s : State) : (hardReset s).t = State.reset.t := rfl
@[simp] theorem hardReset_h (s : State) : (hardReset s).h = State.reset.h := rfl
@[simp] theorem hardReset_bitErr (s : State) : (hardReset s).bitErr = State.reset.bitErr := rfl
@[simp] theorem hardReset_sumLow (s : State) : (hardReset s).sumLow = State.reset.sumLow := rfl
@[simp] theorem hardReset_maxHigh (s : State) : (hardReset s).maxHigh = State.reset.maxHigh := rfl
@[simp] theorem hardReset_count (s : State) : (hardReset s).count = State.reset.count := rfl
@[simp] theorem hardReset_loCnt (s : State) : (hardReset s).loCnt = State.reset.loCnt := rfl
@[simp] theorem hardReset_phase (s : State) : (hardReset s).phase = State.reset.phase := rfl
@[simp] theorem hardReset_shreg (s : State) : (hardReset s).shreg = State.reset.shreg := rfl
@[simp] theorem hardReset_cause (s : State) : (hardReset s).cause = State.reset.cause := rfl
@[simp] theorem hardReset_dqOe (s : State) : (hardReset s).dqOe = State.reset.dqOe := rfl
@[simp] theorem hardReset_dqOut (s : State) : (hardReset s).dqOut = State.reset.dqOut := rfl
@[simp] theorem hardReset_trace (s : State) : (hardReset s).trace = s.trace := rfl
@[simp] theorem hardReset_resetAsserted (s : State) : (hardReset s).resetAsserted = s.resetAsserted := rfl
@[simp] theorem hardReset_params (s : State) : (hardReset s).params = s.params := rfl
@[simp] theorem hardReset_script (s : State) : (hardReset s).script = s.script := rfl
@[simp] theorem hardReset_tail (s : State) : (hardReset s).tail = s.tail := rfl
@[simp] theorem hardReset_hostOps (s : State) : (hardReset s).hostOps = s.hostOps := rfl
@[simp] theorem hardReset_turns (s : State) : (hardReset s).turns = s.turns := rfl
@[simp] theorem hardReset_answers (s : State) : (hardReset s).answers = s.answers := rfl
@[simp] theorem hardReset_draws (s : State) : (hardReset s).draws = s.draws := rfl

/-! ### setResetInput -/

@[simp] theorem setResetInput_frame (b : Bool) (s : State) : (setResetInput b s).frame = State.reset.frame := rfl
@[simp] theorem setResetInput_threshold (b : Bool) (s : State) : (setResetInput b s).threshold = State.reset.threshold := rfl
@[simp] theorem setResetInput_timeout (b : Bool) (s : State) : (setResetInput b s).timeout = s.params.timeoutInit := rfl
@[simp] theorem setResetInput_rawT (b : Bool) (s : State) : (setResetInput b s).rawT = State.reset.rawT := rfl
@[simp] theorem setResetInput_rawH (b : Bool) (s : State) : (setResetInput b s).rawH = State.reset.rawH := rfl
@[simp] theorem setResetInput_seq (b : Bool) (s : State) : (setResetInput b s).seq = State.reset.seq := rfl
@[simp] theorem setResetInput_bitIdx (b : Bool) (s : State) : (setResetInput b s).bitIdx = State.reset.bitIdx := rfl
@[simp] theorem setResetInput_attN (b : Bool) (s : State) : (setResetInput b s).attN = State.reset.attN := rfl
@[simp] theorem setResetInput_calN (b : Bool) (s : State) : (setResetInput b s).calN = State.reset.calN := rfl
@[simp] theorem setResetInput_cmdW (b : Bool) (s : State) : (setResetInput b s).cmdW = State.reset.cmdW := rfl
@[simp] theorem setResetInput_status (b : Bool) (s : State) : (setResetInput b s).status = State.reset.status := rfl
@[simp] theorem setResetInput_variant (b : Bool) (s : State) : (setResetInput b s).variant = State.reset.variant := rfl
@[simp] theorem setResetInput_cap (b : Bool) (s : State) : (setResetInput b s).cap = State.reset.cap := rfl
@[simp] theorem setResetInput_t (b : Bool) (s : State) : (setResetInput b s).t = State.reset.t := rfl
@[simp] theorem setResetInput_h (b : Bool) (s : State) : (setResetInput b s).h = State.reset.h := rfl
@[simp] theorem setResetInput_bitErr (b : Bool) (s : State) : (setResetInput b s).bitErr = State.reset.bitErr := rfl
@[simp] theorem setResetInput_sumLow (b : Bool) (s : State) : (setResetInput b s).sumLow = State.reset.sumLow := rfl
@[simp] theorem setResetInput_maxHigh (b : Bool) (s : State) : (setResetInput b s).maxHigh = State.reset.maxHigh := rfl
@[simp] theorem setResetInput_count (b : Bool) (s : State) : (setResetInput b s).count = State.reset.count := rfl
@[simp] theorem setResetInput_loCnt (b : Bool) (s : State) : (setResetInput b s).loCnt = State.reset.loCnt := rfl
@[simp] theorem setResetInput_phase (b : Bool) (s : State) : (setResetInput b s).phase = State.reset.phase := rfl
@[simp] theorem setResetInput_shreg (b : Bool) (s : State) : (setResetInput b s).shreg = State.reset.shreg := rfl
@[simp] theorem setResetInput_cause (b : Bool) (s : State) : (setResetInput b s).cause = State.reset.cause := rfl
@[simp] theorem setResetInput_dqOe (b : Bool) (s : State) : (setResetInput b s).dqOe = State.reset.dqOe := rfl
@[simp] theorem setResetInput_dqOut (b : Bool) (s : State) : (setResetInput b s).dqOut = State.reset.dqOut := rfl
@[simp] theorem setResetInput_trace (b : Bool) (s : State) : (setResetInput b s).trace = s.trace := rfl
@[simp] theorem setResetInput_resetAsserted (b : Bool) (s : State) : (setResetInput b s).resetAsserted = b := rfl
@[simp] theorem setResetInput_params (b : Bool) (s : State) : (setResetInput b s).params = s.params := rfl
@[simp] theorem setResetInput_script (b : Bool) (s : State) : (setResetInput b s).script = s.script := rfl
@[simp] theorem setResetInput_tail (b : Bool) (s : State) : (setResetInput b s).tail = s.tail := rfl
@[simp] theorem setResetInput_hostOps (b : Bool) (s : State) : (setResetInput b s).hostOps = s.hostOps := rfl
@[simp] theorem setResetInput_turns (b : Bool) (s : State) : (setResetInput b s).turns = s.turns := rfl
@[simp] theorem setResetInput_answers (b : Bool) (s : State) : (setResetInput b s).answers = s.answers := rfl
@[simp] theorem setResetInput_draws (b : Bool) (s : State) : (setResetInput b s).draws = s.draws := rfl

/-! ### passTurn -/

@[simp] theorem passTurn_frame (s : State) : (passTurn s).frame = s.frame := rfl
@[simp] theorem passTurn_threshold (s : State) : (passTurn s).threshold = s.threshold := rfl
@[simp] theorem passTurn_timeout (s : State) : (passTurn s).timeout = s.timeout := rfl
@[simp] theorem passTurn_rawT (s : State) : (passTurn s).rawT = s.rawT := rfl
@[simp] theorem passTurn_rawH (s : State) : (passTurn s).rawH = s.rawH := rfl
@[simp] theorem passTurn_seq (s : State) : (passTurn s).seq = s.seq := rfl
@[simp] theorem passTurn_bitIdx (s : State) : (passTurn s).bitIdx = s.bitIdx := rfl
@[simp] theorem passTurn_attN (s : State) : (passTurn s).attN = s.attN := rfl
@[simp] theorem passTurn_calN (s : State) : (passTurn s).calN = s.calN := rfl
@[simp] theorem passTurn_cmdW (s : State) : (passTurn s).cmdW = s.cmdW := rfl
@[simp] theorem passTurn_status (s : State) : (passTurn s).status = s.status := rfl
@[simp] theorem passTurn_variant (s : State) : (passTurn s).variant = s.variant := rfl
@[simp] theorem passTurn_cap (s : State) : (passTurn s).cap = s.cap := rfl
@[simp] theorem passTurn_t (s : State) : (passTurn s).t = s.t := rfl
@[simp] theorem passTurn_h (s : State) : (passTurn s).h = s.h := rfl
@[simp] theorem passTurn_bitErr (s : State) : (passTurn s).bitErr = s.bitErr := rfl
@[simp] theorem passTurn_sumLow (s : State) : (passTurn s).sumLow = s.sumLow := rfl
@[simp] theorem passTurn_maxHigh (s : State) : (passTurn s).maxHigh = s.maxHigh := rfl
@[simp] theorem passTurn_count (s : State) : (passTurn s).count = s.count := rfl
@[simp] theorem passTurn_loCnt (s : State) : (passTurn s).loCnt = s.loCnt := rfl
@[simp] theorem passTurn_phase (s : State) : (passTurn s).phase = s.phase := rfl
@[simp] theorem passTurn_shreg (s : State) : (passTurn s).shreg = s.shreg := rfl
@[simp] theorem passTurn_cause (s : State) : (passTurn s).cause = s.cause := rfl
@[simp] theorem passTurn_dqOe (s : State) : (passTurn s).dqOe = s.dqOe := rfl
@[simp] theorem passTurn_dqOut (s : State) : (passTurn s).dqOut = s.dqOut := rfl
@[simp] theorem passTurn_trace (s : State) : (passTurn s).trace = s.trace := rfl
@[simp] theorem passTurn_resetAsserted (s : State) : (passTurn s).resetAsserted = s.resetAsserted := rfl
@[simp] theorem passTurn_params (s : State) : (passTurn s).params = s.params := rfl
@[simp] theorem passTurn_script (s : State) : (passTurn s).script = s.script := rfl
@[simp] theorem passTurn_tail (s : State) : (passTurn s).tail = s.tail := rfl
@[simp] theorem passTurn_hostOps (s : State) : (passTurn s).hostOps = s.hostOps := rfl
@[simp] theorem passTurn_turns (s : State) : (passTurn s).turns = s.turns.tail := rfl
@[simp] theorem passTurn_answers (s : State) : (passTurn s).answers = s.answers := rfl
@[simp] theorem passTurn_draws (s : State) : (passTurn s).draws = s.draws := rfl

/-! ### memRead -/

@[simp] theorem memRead_frame (a : Addr) (s : State) : (memRead a s).frame = s.frame := rfl
@[simp] theorem memRead_threshold (a : Addr) (s : State) : (memRead a s).threshold = s.threshold := rfl
@[simp] theorem memRead_timeout (a : Addr) (s : State) : (memRead a s).timeout = s.timeout := rfl
@[simp] theorem memRead_rawT (a : Addr) (s : State) : (memRead a s).rawT = s.rawT := rfl
@[simp] theorem memRead_rawH (a : Addr) (s : State) : (memRead a s).rawH = s.rawH := rfl
@[simp] theorem memRead_seq (a : Addr) (s : State) : (memRead a s).seq = s.seq := rfl
@[simp] theorem memRead_bitIdx (a : Addr) (s : State) : (memRead a s).bitIdx = s.bitIdx := rfl
@[simp] theorem memRead_attN (a : Addr) (s : State) : (memRead a s).attN = s.attN := rfl
@[simp] theorem memRead_calN (a : Addr) (s : State) : (memRead a s).calN = s.calN := rfl
@[simp] theorem memRead_cmdW (a : Addr) (s : State) : (memRead a s).cmdW = s.cmdW := rfl
@[simp] theorem memRead_status (a : Addr) (s : State) : (memRead a s).status = s.status := rfl
@[simp] theorem memRead_variant (a : Addr) (s : State) : (memRead a s).variant = s.variant := rfl
@[simp] theorem memRead_cap (a : Addr) (s : State) : (memRead a s).cap = s.cap := rfl
@[simp] theorem memRead_t (a : Addr) (s : State) : (memRead a s).t = s.t := rfl
@[simp] theorem memRead_h (a : Addr) (s : State) : (memRead a s).h = s.h := rfl
@[simp] theorem memRead_bitErr (a : Addr) (s : State) : (memRead a s).bitErr = s.bitErr := rfl
@[simp] theorem memRead_sumLow (a : Addr) (s : State) : (memRead a s).sumLow = s.sumLow := rfl
@[simp] theorem memRead_maxHigh (a : Addr) (s : State) : (memRead a s).maxHigh = s.maxHigh := rfl
@[simp] theorem memRead_count (a : Addr) (s : State) : (memRead a s).count = s.count := rfl
@[simp] theorem memRead_loCnt (a : Addr) (s : State) : (memRead a s).loCnt = s.loCnt := rfl
@[simp] theorem memRead_phase (a : Addr) (s : State) : (memRead a s).phase = s.phase := rfl
@[simp] theorem memRead_shreg (a : Addr) (s : State) : (memRead a s).shreg = s.shreg := rfl
@[simp] theorem memRead_cause (a : Addr) (s : State) : (memRead a s).cause = s.cause := rfl
@[simp] theorem memRead_dqOe (a : Addr) (s : State) : (memRead a s).dqOe = s.dqOe := rfl
@[simp] theorem memRead_dqOut (a : Addr) (s : State) : (memRead a s).dqOut = s.dqOut := rfl
@[simp] theorem memRead_trace (a : Addr) (s : State) : (memRead a s).trace = s.trace := rfl
@[simp] theorem memRead_resetAsserted (a : Addr) (s : State) : (memRead a s).resetAsserted = s.resetAsserted := rfl
@[simp] theorem memRead_params (a : Addr) (s : State) : (memRead a s).params = s.params := rfl
@[simp] theorem memRead_script (a : Addr) (s : State) : (memRead a s).script = s.script := rfl
@[simp] theorem memRead_tail (a : Addr) (s : State) : (memRead a s).tail = s.tail := rfl
@[simp] theorem memRead_hostOps (a : Addr) (s : State) : (memRead a s).hostOps = s.hostOps := rfl
@[simp] theorem memRead_turns (a : Addr) (s : State) : (memRead a s).turns = s.turns := rfl
@[simp] theorem memRead_answers (a : Addr) (s : State) : (memRead a s).answers = (a, readAnswer s a) :: s.answers := rfl
@[simp] theorem memRead_draws (a : Addr) (s : State) : (memRead a s).draws = if readsUnspecified s a then s.draws + 1 else s.draws := rfl

/-! ### clearAttempt -/

@[simp] theorem clearAttempt_frame (s : State) : (clearAttempt s).frame = s.frame := rfl
@[simp] theorem clearAttempt_threshold (s : State) : (clearAttempt s).threshold = s.threshold := rfl
@[simp] theorem clearAttempt_timeout (s : State) : (clearAttempt s).timeout = s.timeout := rfl
@[simp] theorem clearAttempt_rawT (s : State) : (clearAttempt s).rawT = s.rawT := rfl
@[simp] theorem clearAttempt_rawH (s : State) : (clearAttempt s).rawH = s.rawH := rfl
@[simp] theorem clearAttempt_seq (s : State) : (clearAttempt s).seq = s.seq := rfl
@[simp] theorem clearAttempt_bitIdx (s : State) : (clearAttempt s).bitIdx = s.bitIdx := rfl
@[simp] theorem clearAttempt_attN (s : State) : (clearAttempt s).attN = s.attN := rfl
@[simp] theorem clearAttempt_calN (s : State) : (clearAttempt s).calN = s.calN := rfl
@[simp] theorem clearAttempt_cmdW (s : State) : (clearAttempt s).cmdW = s.cmdW := rfl
@[simp] theorem clearAttempt_status (s : State) : (clearAttempt s).status = s.status := rfl
@[simp] theorem clearAttempt_variant (s : State) : (clearAttempt s).variant = s.variant := rfl
@[simp] theorem clearAttempt_cap (s : State) : (clearAttempt s).cap = s.cap := rfl
@[simp] theorem clearAttempt_t (s : State) : (clearAttempt s).t = s.t := rfl
@[simp] theorem clearAttempt_h (s : State) : (clearAttempt s).h = s.h := rfl
@[simp] theorem clearAttempt_bitErr (s : State) : (clearAttempt s).bitErr = false := rfl
@[simp] theorem clearAttempt_sumLow (s : State) : (clearAttempt s).sumLow = 0 := rfl
@[simp] theorem clearAttempt_maxHigh (s : State) : (clearAttempt s).maxHigh = 0 := rfl
@[simp] theorem clearAttempt_count (s : State) : (clearAttempt s).count = s.count := rfl
@[simp] theorem clearAttempt_loCnt (s : State) : (clearAttempt s).loCnt = s.loCnt := rfl
@[simp] theorem clearAttempt_phase (s : State) : (clearAttempt s).phase = s.phase := rfl
@[simp] theorem clearAttempt_shreg (s : State) : (clearAttempt s).shreg = 0 := rfl
@[simp] theorem clearAttempt_cause (s : State) : (clearAttempt s).cause = s.cause := rfl
@[simp] theorem clearAttempt_dqOe (s : State) : (clearAttempt s).dqOe = s.dqOe := rfl
@[simp] theorem clearAttempt_dqOut (s : State) : (clearAttempt s).dqOut = s.dqOut := rfl
@[simp] theorem clearAttempt_trace (s : State) : (clearAttempt s).trace = s.trace := rfl
@[simp] theorem clearAttempt_resetAsserted (s : State) : (clearAttempt s).resetAsserted = s.resetAsserted := rfl
@[simp] theorem clearAttempt_params (s : State) : (clearAttempt s).params = s.params := rfl
@[simp] theorem clearAttempt_script (s : State) : (clearAttempt s).script = s.script := rfl
@[simp] theorem clearAttempt_tail (s : State) : (clearAttempt s).tail = s.tail := rfl
@[simp] theorem clearAttempt_hostOps (s : State) : (clearAttempt s).hostOps = s.hostOps := rfl
@[simp] theorem clearAttempt_turns (s : State) : (clearAttempt s).turns = s.turns := rfl
@[simp] theorem clearAttempt_answers (s : State) : (clearAttempt s).answers = s.answers := rfl
@[simp] theorem clearAttempt_draws (s : State) : (clearAttempt s).draws = s.draws := rfl

/-! ### startPhase -/

@[simp] theorem startPhase_frame (p : Phase) (s : State) : (startPhase p s).frame = s.frame := rfl
@[simp] theorem startPhase_threshold (p : Phase) (s : State) : (startPhase p s).threshold = s.threshold := rfl
@[simp] theorem startPhase_timeout (p : Phase) (s : State) : (startPhase p s).timeout = s.timeout := rfl
@[simp] theorem startPhase_rawT (p : Phase) (s : State) : (startPhase p s).rawT = s.rawT := rfl
@[simp] theorem startPhase_rawH (p : Phase) (s : State) : (startPhase p s).rawH = s.rawH := rfl
@[simp] theorem startPhase_seq (p : Phase) (s : State) : (startPhase p s).seq = .poll := rfl
@[simp] theorem startPhase_bitIdx (p : Phase) (s : State) : (startPhase p s).bitIdx = s.bitIdx := rfl
@[simp] theorem startPhase_attN (p : Phase) (s : State) : (startPhase p s).attN = s.attN := rfl
@[simp] theorem startPhase_calN (p : Phase) (s : State) : (startPhase p s).calN = s.calN := rfl
@[simp] theorem startPhase_cmdW (p : Phase) (s : State) : (startPhase p s).cmdW = s.cmdW := rfl
@[simp] theorem startPhase_status (p : Phase) (s : State) : (startPhase p s).status = s.status := rfl
@[simp] theorem startPhase_variant (p : Phase) (s : State) : (startPhase p s).variant = s.variant := rfl
@[simp] theorem startPhase_cap (p : Phase) (s : State) : (startPhase p s).cap = s.cap := rfl
@[simp] theorem startPhase_t (p : Phase) (s : State) : (startPhase p s).t = s.t := rfl
@[simp] theorem startPhase_h (p : Phase) (s : State) : (startPhase p s).h = s.h := rfl
@[simp] theorem startPhase_bitErr (p : Phase) (s : State) : (startPhase p s).bitErr = s.bitErr := rfl
@[simp] theorem startPhase_sumLow (p : Phase) (s : State) : (startPhase p s).sumLow = s.sumLow := rfl
@[simp] theorem startPhase_maxHigh (p : Phase) (s : State) : (startPhase p s).maxHigh = s.maxHigh := rfl
@[simp] theorem startPhase_count (p : Phase) (s : State) : (startPhase p s).count = 0 := rfl
@[simp] theorem startPhase_loCnt (p : Phase) (s : State) : (startPhase p s).loCnt = s.loCnt := rfl
@[simp] theorem startPhase_phase (p : Phase) (s : State) : (startPhase p s).phase = p := rfl
@[simp] theorem startPhase_shreg (p : Phase) (s : State) : (startPhase p s).shreg = s.shreg := rfl
@[simp] theorem startPhase_cause (p : Phase) (s : State) : (startPhase p s).cause = s.cause := rfl
@[simp] theorem startPhase_dqOe (p : Phase) (s : State) : (startPhase p s).dqOe = s.dqOe := rfl
@[simp] theorem startPhase_dqOut (p : Phase) (s : State) : (startPhase p s).dqOut = s.dqOut := rfl
@[simp] theorem startPhase_trace (p : Phase) (s : State) : (startPhase p s).trace = s.trace := rfl
@[simp] theorem startPhase_resetAsserted (p : Phase) (s : State) : (startPhase p s).resetAsserted = s.resetAsserted := rfl
@[simp] theorem startPhase_params (p : Phase) (s : State) : (startPhase p s).params = s.params := rfl
@[simp] theorem startPhase_script (p : Phase) (s : State) : (startPhase p s).script = s.script := rfl
@[simp] theorem startPhase_tail (p : Phase) (s : State) : (startPhase p s).tail = s.tail := rfl
@[simp] theorem startPhase_hostOps (p : Phase) (s : State) : (startPhase p s).hostOps = s.hostOps := rfl
@[simp] theorem startPhase_turns (p : Phase) (s : State) : (startPhase p s).turns = s.turns := rfl
@[simp] theorem startPhase_answers (p : Phase) (s : State) : (startPhase p s).answers = s.answers := rfl
@[simp] theorem startPhase_draws (p : Phase) (s : State) : (startPhase p s).draws = s.draws := rfl

/-! ### recordBit -/

@[simp] theorem recordBit_frame (cal : Bool) (s : State) : (recordBit cal s).frame = s.frame := rfl
@[simp] theorem recordBit_threshold (cal : Bool) (s : State) : (recordBit cal s).threshold = s.threshold := rfl
@[simp] theorem recordBit_timeout (cal : Bool) (s : State) : (recordBit cal s).timeout = s.timeout := rfl
@[simp] theorem recordBit_rawT (cal : Bool) (s : State) : (recordBit cal s).rawT = s.rawT := rfl
@[simp] theorem recordBit_rawH (cal : Bool) (s : State) : (recordBit cal s).rawH = s.rawH := rfl
@[simp] theorem recordBit_seq (cal : Bool) (s : State) : (recordBit cal s).seq = s.seq := rfl
@[simp] theorem recordBit_bitIdx (cal : Bool) (s : State) : (recordBit cal s).bitIdx = s.bitIdx := rfl
@[simp] theorem recordBit_attN (cal : Bool) (s : State) : (recordBit cal s).attN = s.attN := rfl
@[simp] theorem recordBit_calN (cal : Bool) (s : State) : (recordBit cal s).calN = s.calN := rfl
@[simp] theorem recordBit_cmdW (cal : Bool) (s : State) : (recordBit cal s).cmdW = s.cmdW := rfl
@[simp] theorem recordBit_status (cal : Bool) (s : State) : (recordBit cal s).status = s.status := rfl
@[simp] theorem recordBit_variant (cal : Bool) (s : State) : (recordBit cal s).variant = s.variant := rfl
@[simp] theorem recordBit_cap (cal : Bool) (s : State) : (recordBit cal s).cap = s.cap := rfl
@[simp] theorem recordBit_t (cal : Bool) (s : State) : (recordBit cal s).t = s.t := rfl
@[simp] theorem recordBit_h (cal : Bool) (s : State) : (recordBit cal s).h = s.h := rfl
@[simp] theorem recordBit_bitErr (cal : Bool) (s : State) : (recordBit cal s).bitErr = (s.bitErr || bitFails s.loCnt s.count s) := rfl
@[simp] theorem recordBit_sumLow (cal : Bool) (s : State) : (recordBit cal s).sumLow = s.sumLow + s.loCnt.setWidth 22 := rfl
@[simp] theorem recordBit_maxHigh (cal : Bool) (s : State) : (recordBit cal s).maxHigh = if s.maxHigh < s.count then s.count else s.maxHigh := rfl
@[simp] theorem recordBit_count (cal : Bool) (s : State) : (recordBit cal s).count = s.count := rfl
@[simp] theorem recordBit_loCnt (cal : Bool) (s : State) : (recordBit cal s).loCnt = s.loCnt := rfl
@[simp] theorem recordBit_phase (cal : Bool) (s : State) : (recordBit cal s).phase = s.phase := rfl
@[simp] theorem recordBit_shreg (cal : Bool) (s : State) : (recordBit cal s).shreg = ((s.shreg <<< 1) |||
    (BitVec.ofBool (!bitFails s.loCnt s.count s && bitValue cal s.loCnt s.count s)).setWidth 40) := rfl
@[simp] theorem recordBit_cause (cal : Bool) (s : State) : (recordBit cal s).cause = s.cause := rfl
@[simp] theorem recordBit_dqOe (cal : Bool) (s : State) : (recordBit cal s).dqOe = s.dqOe := rfl
@[simp] theorem recordBit_dqOut (cal : Bool) (s : State) : (recordBit cal s).dqOut = s.dqOut := rfl
@[simp] theorem recordBit_trace (cal : Bool) (s : State) : (recordBit cal s).trace = s.trace := rfl
@[simp] theorem recordBit_resetAsserted (cal : Bool) (s : State) : (recordBit cal s).resetAsserted = s.resetAsserted := rfl
@[simp] theorem recordBit_params (cal : Bool) (s : State) : (recordBit cal s).params = s.params := rfl
@[simp] theorem recordBit_script (cal : Bool) (s : State) : (recordBit cal s).script = s.script := rfl
@[simp] theorem recordBit_tail (cal : Bool) (s : State) : (recordBit cal s).tail = s.tail := rfl
@[simp] theorem recordBit_hostOps (cal : Bool) (s : State) : (recordBit cal s).hostOps = s.hostOps := rfl
@[simp] theorem recordBit_turns (cal : Bool) (s : State) : (recordBit cal s).turns = s.turns := rfl
@[simp] theorem recordBit_answers (cal : Bool) (s : State) : (recordBit cal s).answers = s.answers := rfl
@[simp] theorem recordBit_draws (cal : Bool) (s : State) : (recordBit cal s).draws = s.draws := rfl

/-! ### attemptTail -/

@[simp] theorem attemptTail_frame (s : State) : (attemptTail s).frame = s.shreg := rfl
@[simp] theorem attemptTail_threshold (s : State) : (attemptTail s).threshold = s.threshold := rfl
@[simp] theorem attemptTail_timeout (s : State) : (attemptTail s).timeout = s.timeout := rfl
@[simp] theorem attemptTail_rawT (s : State) : (attemptTail s).rawT = s.rawT := rfl
@[simp] theorem attemptTail_rawH (s : State) : (attemptTail s).rawH = s.rawH := rfl
@[simp] theorem attemptTail_seq (s : State) : (attemptTail s).seq = s.seq := rfl
@[simp] theorem attemptTail_bitIdx (s : State) : (attemptTail s).bitIdx = s.bitIdx := rfl
@[simp] theorem attemptTail_attN (s : State) : (attemptTail s).attN = s.attN := rfl
@[simp] theorem attemptTail_calN (s : State) : (attemptTail s).calN = s.calN := rfl
@[simp] theorem attemptTail_cmdW (s : State) : (attemptTail s).cmdW = s.cmdW := rfl
@[simp] theorem attemptTail_status (s : State) : (attemptTail s).status = { s.status with frameOk := decide (attemptCause s.bitErr s.shreg = .none) } := rfl
@[simp] theorem attemptTail_variant (s : State) : (attemptTail s).variant = s.variant := rfl
@[simp] theorem attemptTail_cap (s : State) : (attemptTail s).cap = s.cap := rfl
@[simp] theorem attemptTail_t (s : State) : (attemptTail s).t = s.t := rfl
@[simp] theorem attemptTail_h (s : State) : (attemptTail s).h = s.h := rfl
@[simp] theorem attemptTail_bitErr (s : State) : (attemptTail s).bitErr = s.bitErr := rfl
@[simp] theorem attemptTail_sumLow (s : State) : (attemptTail s).sumLow = s.sumLow := rfl
@[simp] theorem attemptTail_maxHigh (s : State) : (attemptTail s).maxHigh = s.maxHigh := rfl
@[simp] theorem attemptTail_count (s : State) : (attemptTail s).count = s.count := rfl
@[simp] theorem attemptTail_loCnt (s : State) : (attemptTail s).loCnt = s.loCnt := rfl
@[simp] theorem attemptTail_phase (s : State) : (attemptTail s).phase = s.phase := rfl
@[simp] theorem attemptTail_shreg (s : State) : (attemptTail s).shreg = s.shreg := rfl
@[simp] theorem attemptTail_cause (s : State) : (attemptTail s).cause = attemptCause s.bitErr s.shreg := rfl
@[simp] theorem attemptTail_dqOe (s : State) : (attemptTail s).dqOe = s.dqOe := rfl
@[simp] theorem attemptTail_dqOut (s : State) : (attemptTail s).dqOut = s.dqOut := rfl
@[simp] theorem attemptTail_trace (s : State) : (attemptTail s).trace = s.trace := rfl
@[simp] theorem attemptTail_resetAsserted (s : State) : (attemptTail s).resetAsserted = s.resetAsserted := rfl
@[simp] theorem attemptTail_params (s : State) : (attemptTail s).params = s.params := rfl
@[simp] theorem attemptTail_script (s : State) : (attemptTail s).script = s.script := rfl
@[simp] theorem attemptTail_tail (s : State) : (attemptTail s).tail = s.tail := rfl
@[simp] theorem attemptTail_hostOps (s : State) : (attemptTail s).hostOps = s.hostOps := rfl
@[simp] theorem attemptTail_turns (s : State) : (attemptTail s).turns = s.turns := rfl
@[simp] theorem attemptTail_answers (s : State) : (attemptTail s).answers = s.answers := rfl
@[simp] theorem attemptTail_draws (s : State) : (attemptTail s).draws = s.draws := rfl

/-! ### calibrateSuccess -/

@[simp] theorem calibrateSuccess_frame (s : State) : (calibrateSuccess s).frame = s.frame := rfl
@[simp] theorem calibrateSuccess_threshold (s : State) : (calibrateSuccess s).threshold = calThreshold s.sumLow := rfl
@[simp] theorem calibrateSuccess_timeout (s : State) : (calibrateSuccess s).timeout = calTimeout s.maxHigh := rfl
@[simp] theorem calibrateSuccess_rawT (s : State) : (calibrateSuccess s).rawT = s.rawT := rfl
@[simp] theorem calibrateSuccess_rawH (s : State) : (calibrateSuccess s).rawH = s.rawH := rfl
@[simp] theorem calibrateSuccess_seq (s : State) : (calibrateSuccess s).seq = s.seq := rfl
@[simp] theorem calibrateSuccess_bitIdx (s : State) : (calibrateSuccess s).bitIdx = s.bitIdx := rfl
@[simp] theorem calibrateSuccess_attN (s : State) : (calibrateSuccess s).attN = s.attN := rfl
@[simp] theorem calibrateSuccess_calN (s : State) : (calibrateSuccess s).calN = s.calN := rfl
@[simp] theorem calibrateSuccess_cmdW (s : State) : (calibrateSuccess s).cmdW = s.cmdW := rfl
@[simp] theorem calibrateSuccess_status (s : State) : (calibrateSuccess s).status = { s.status with calOk := true } := rfl
@[simp] theorem calibrateSuccess_variant (s : State) : (calibrateSuccess s).variant = s.variant := rfl
@[simp] theorem calibrateSuccess_cap (s : State) : (calibrateSuccess s).cap = s.cap := rfl
@[simp] theorem calibrateSuccess_t (s : State) : (calibrateSuccess s).t = s.t := rfl
@[simp] theorem calibrateSuccess_h (s : State) : (calibrateSuccess s).h = s.h := rfl
@[simp] theorem calibrateSuccess_bitErr (s : State) : (calibrateSuccess s).bitErr = s.bitErr := rfl
@[simp] theorem calibrateSuccess_sumLow (s : State) : (calibrateSuccess s).sumLow = s.sumLow := rfl
@[simp] theorem calibrateSuccess_maxHigh (s : State) : (calibrateSuccess s).maxHigh = s.maxHigh := rfl
@[simp] theorem calibrateSuccess_count (s : State) : (calibrateSuccess s).count = s.count := rfl
@[simp] theorem calibrateSuccess_loCnt (s : State) : (calibrateSuccess s).loCnt = s.loCnt := rfl
@[simp] theorem calibrateSuccess_phase (s : State) : (calibrateSuccess s).phase = s.phase := rfl
@[simp] theorem calibrateSuccess_shreg (s : State) : (calibrateSuccess s).shreg = s.shreg := rfl
@[simp] theorem calibrateSuccess_cause (s : State) : (calibrateSuccess s).cause = s.cause := rfl
@[simp] theorem calibrateSuccess_dqOe (s : State) : (calibrateSuccess s).dqOe = s.dqOe := rfl
@[simp] theorem calibrateSuccess_dqOut (s : State) : (calibrateSuccess s).dqOut = s.dqOut := rfl
@[simp] theorem calibrateSuccess_trace (s : State) : (calibrateSuccess s).trace = s.trace := rfl
@[simp] theorem calibrateSuccess_resetAsserted (s : State) : (calibrateSuccess s).resetAsserted = s.resetAsserted := rfl
@[simp] theorem calibrateSuccess_params (s : State) : (calibrateSuccess s).params = s.params := rfl
@[simp] theorem calibrateSuccess_script (s : State) : (calibrateSuccess s).script = s.script := rfl
@[simp] theorem calibrateSuccess_tail (s : State) : (calibrateSuccess s).tail = s.tail := rfl
@[simp] theorem calibrateSuccess_hostOps (s : State) : (calibrateSuccess s).hostOps = s.hostOps := rfl
@[simp] theorem calibrateSuccess_turns (s : State) : (calibrateSuccess s).turns = s.turns := rfl
@[simp] theorem calibrateSuccess_answers (s : State) : (calibrateSuccess s).answers = s.answers := rfl
@[simp] theorem calibrateSuccess_draws (s : State) : (calibrateSuccess s).draws = s.draws := rfl

/-! ### calibrateFallback -/

@[simp] theorem calibrateFallback_frame (s : State) : (calibrateFallback s).frame = s.frame := rfl
@[simp] theorem calibrateFallback_threshold (s : State) : (calibrateFallback s).threshold = Config.thresholdDefault := rfl
@[simp] theorem calibrateFallback_timeout (s : State) : (calibrateFallback s).timeout = s.timeout := rfl
@[simp] theorem calibrateFallback_rawT (s : State) : (calibrateFallback s).rawT = s.rawT := rfl
@[simp] theorem calibrateFallback_rawH (s : State) : (calibrateFallback s).rawH = s.rawH := rfl
@[simp] theorem calibrateFallback_seq (s : State) : (calibrateFallback s).seq = s.seq := rfl
@[simp] theorem calibrateFallback_bitIdx (s : State) : (calibrateFallback s).bitIdx = s.bitIdx := rfl
@[simp] theorem calibrateFallback_attN (s : State) : (calibrateFallback s).attN = s.attN := rfl
@[simp] theorem calibrateFallback_calN (s : State) : (calibrateFallback s).calN = s.calN := rfl
@[simp] theorem calibrateFallback_cmdW (s : State) : (calibrateFallback s).cmdW = s.cmdW := rfl
@[simp] theorem calibrateFallback_status (s : State) : (calibrateFallback s).status = { s.status with calOk := false } := rfl
@[simp] theorem calibrateFallback_variant (s : State) : (calibrateFallback s).variant = s.variant := rfl
@[simp] theorem calibrateFallback_cap (s : State) : (calibrateFallback s).cap = s.cap := rfl
@[simp] theorem calibrateFallback_t (s : State) : (calibrateFallback s).t = s.t := rfl
@[simp] theorem calibrateFallback_h (s : State) : (calibrateFallback s).h = s.h := rfl
@[simp] theorem calibrateFallback_bitErr (s : State) : (calibrateFallback s).bitErr = s.bitErr := rfl
@[simp] theorem calibrateFallback_sumLow (s : State) : (calibrateFallback s).sumLow = s.sumLow := rfl
@[simp] theorem calibrateFallback_maxHigh (s : State) : (calibrateFallback s).maxHigh = s.maxHigh := rfl
@[simp] theorem calibrateFallback_count (s : State) : (calibrateFallback s).count = s.count := rfl
@[simp] theorem calibrateFallback_loCnt (s : State) : (calibrateFallback s).loCnt = s.loCnt := rfl
@[simp] theorem calibrateFallback_phase (s : State) : (calibrateFallback s).phase = s.phase := rfl
@[simp] theorem calibrateFallback_shreg (s : State) : (calibrateFallback s).shreg = s.shreg := rfl
@[simp] theorem calibrateFallback_cause (s : State) : (calibrateFallback s).cause = s.cause := rfl
@[simp] theorem calibrateFallback_dqOe (s : State) : (calibrateFallback s).dqOe = s.dqOe := rfl
@[simp] theorem calibrateFallback_dqOut (s : State) : (calibrateFallback s).dqOut = s.dqOut := rfl
@[simp] theorem calibrateFallback_trace (s : State) : (calibrateFallback s).trace = s.trace := rfl
@[simp] theorem calibrateFallback_resetAsserted (s : State) : (calibrateFallback s).resetAsserted = s.resetAsserted := rfl
@[simp] theorem calibrateFallback_params (s : State) : (calibrateFallback s).params = s.params := rfl
@[simp] theorem calibrateFallback_script (s : State) : (calibrateFallback s).script = s.script := rfl
@[simp] theorem calibrateFallback_tail (s : State) : (calibrateFallback s).tail = s.tail := rfl
@[simp] theorem calibrateFallback_hostOps (s : State) : (calibrateFallback s).hostOps = s.hostOps := rfl
@[simp] theorem calibrateFallback_turns (s : State) : (calibrateFallback s).turns = s.turns := rfl
@[simp] theorem calibrateFallback_answers (s : State) : (calibrateFallback s).answers = s.answers := rfl
@[simp] theorem calibrateFallback_draws (s : State) : (calibrateFallback s).draws = s.draws := rfl

/-! ### countPoll -/

@[simp] theorem countPoll_frame (s : State) : (countPoll s).frame = s.frame := rfl
@[simp] theorem countPoll_threshold (s : State) : (countPoll s).threshold = s.threshold := rfl
@[simp] theorem countPoll_timeout (s : State) : (countPoll s).timeout = s.timeout := rfl
@[simp] theorem countPoll_rawT (s : State) : (countPoll s).rawT = s.rawT := rfl
@[simp] theorem countPoll_rawH (s : State) : (countPoll s).rawH = s.rawH := rfl
@[simp] theorem countPoll_seq (s : State) : (countPoll s).seq = s.seq := rfl
@[simp] theorem countPoll_bitIdx (s : State) : (countPoll s).bitIdx = s.bitIdx := rfl
@[simp] theorem countPoll_attN (s : State) : (countPoll s).attN = s.attN := rfl
@[simp] theorem countPoll_calN (s : State) : (countPoll s).calN = s.calN := rfl
@[simp] theorem countPoll_cmdW (s : State) : (countPoll s).cmdW = s.cmdW := rfl
@[simp] theorem countPoll_status (s : State) : (countPoll s).status = s.status := rfl
@[simp] theorem countPoll_variant (s : State) : (countPoll s).variant = s.variant := rfl
@[simp] theorem countPoll_cap (s : State) : (countPoll s).cap = s.cap := rfl
@[simp] theorem countPoll_t (s : State) : (countPoll s).t = s.t := rfl
@[simp] theorem countPoll_h (s : State) : (countPoll s).h = s.h := rfl
@[simp] theorem countPoll_bitErr (s : State) : (countPoll s).bitErr = s.bitErr := rfl
@[simp] theorem countPoll_sumLow (s : State) : (countPoll s).sumLow = s.sumLow := rfl
@[simp] theorem countPoll_maxHigh (s : State) : (countPoll s).maxHigh = s.maxHigh := rfl
@[simp] theorem countPoll_count (s : State) : (countPoll s).count = s.count + 1 := rfl
@[simp] theorem countPoll_loCnt (s : State) : (countPoll s).loCnt = s.loCnt := rfl
@[simp] theorem countPoll_phase (s : State) : (countPoll s).phase = s.phase := rfl
@[simp] theorem countPoll_shreg (s : State) : (countPoll s).shreg = s.shreg := rfl
@[simp] theorem countPoll_cause (s : State) : (countPoll s).cause = s.cause := rfl
@[simp] theorem countPoll_dqOe (s : State) : (countPoll s).dqOe = s.dqOe := rfl
@[simp] theorem countPoll_dqOut (s : State) : (countPoll s).dqOut = s.dqOut := rfl
@[simp] theorem countPoll_trace (s : State) : (countPoll s).trace = s.trace := rfl
@[simp] theorem countPoll_resetAsserted (s : State) : (countPoll s).resetAsserted = s.resetAsserted := rfl
@[simp] theorem countPoll_params (s : State) : (countPoll s).params = s.params := rfl
@[simp] theorem countPoll_script (s : State) : (countPoll s).script = s.script := rfl
@[simp] theorem countPoll_tail (s : State) : (countPoll s).tail = s.tail := rfl
@[simp] theorem countPoll_hostOps (s : State) : (countPoll s).hostOps = s.hostOps := rfl
@[simp] theorem countPoll_turns (s : State) : (countPoll s).turns = s.turns := rfl
@[simp] theorem countPoll_answers (s : State) : (countPoll s).answers = s.answers := rfl
@[simp] theorem countPoll_draws (s : State) : (countPoll s).draws = s.draws := rfl

/-! ### clearCount -/

@[simp] theorem clearCount_frame (s : State) : (clearCount s).frame = s.frame := rfl
@[simp] theorem clearCount_threshold (s : State) : (clearCount s).threshold = s.threshold := rfl
@[simp] theorem clearCount_timeout (s : State) : (clearCount s).timeout = s.timeout := rfl
@[simp] theorem clearCount_rawT (s : State) : (clearCount s).rawT = s.rawT := rfl
@[simp] theorem clearCount_rawH (s : State) : (clearCount s).rawH = s.rawH := rfl
@[simp] theorem clearCount_seq (s : State) : (clearCount s).seq = s.seq := rfl
@[simp] theorem clearCount_bitIdx (s : State) : (clearCount s).bitIdx = s.bitIdx := rfl
@[simp] theorem clearCount_attN (s : State) : (clearCount s).attN = s.attN := rfl
@[simp] theorem clearCount_calN (s : State) : (clearCount s).calN = s.calN := rfl
@[simp] theorem clearCount_cmdW (s : State) : (clearCount s).cmdW = s.cmdW := rfl
@[simp] theorem clearCount_status (s : State) : (clearCount s).status = s.status := rfl
@[simp] theorem clearCount_variant (s : State) : (clearCount s).variant = s.variant := rfl
@[simp] theorem clearCount_cap (s : State) : (clearCount s).cap = s.cap := rfl
@[simp] theorem clearCount_t (s : State) : (clearCount s).t = s.t := rfl
@[simp] theorem clearCount_h (s : State) : (clearCount s).h = s.h := rfl
@[simp] theorem clearCount_bitErr (s : State) : (clearCount s).bitErr = s.bitErr := rfl
@[simp] theorem clearCount_sumLow (s : State) : (clearCount s).sumLow = s.sumLow := rfl
@[simp] theorem clearCount_maxHigh (s : State) : (clearCount s).maxHigh = s.maxHigh := rfl
@[simp] theorem clearCount_count (s : State) : (clearCount s).count = 0 := rfl
@[simp] theorem clearCount_loCnt (s : State) : (clearCount s).loCnt = s.loCnt := rfl
@[simp] theorem clearCount_phase (s : State) : (clearCount s).phase = s.phase := rfl
@[simp] theorem clearCount_shreg (s : State) : (clearCount s).shreg = s.shreg := rfl
@[simp] theorem clearCount_cause (s : State) : (clearCount s).cause = s.cause := rfl
@[simp] theorem clearCount_dqOe (s : State) : (clearCount s).dqOe = s.dqOe := rfl
@[simp] theorem clearCount_dqOut (s : State) : (clearCount s).dqOut = s.dqOut := rfl
@[simp] theorem clearCount_trace (s : State) : (clearCount s).trace = s.trace := rfl
@[simp] theorem clearCount_resetAsserted (s : State) : (clearCount s).resetAsserted = s.resetAsserted := rfl
@[simp] theorem clearCount_params (s : State) : (clearCount s).params = s.params := rfl
@[simp] theorem clearCount_script (s : State) : (clearCount s).script = s.script := rfl
@[simp] theorem clearCount_tail (s : State) : (clearCount s).tail = s.tail := rfl
@[simp] theorem clearCount_hostOps (s : State) : (clearCount s).hostOps = s.hostOps := rfl
@[simp] theorem clearCount_turns (s : State) : (clearCount s).turns = s.turns := rfl
@[simp] theorem clearCount_answers (s : State) : (clearCount s).answers = s.answers := rfl
@[simp] theorem clearCount_draws (s : State) : (clearCount s).draws = s.draws := rfl

/-! ### saveLow -/

@[simp] theorem saveLow_frame (s : State) : (saveLow s).frame = s.frame := rfl
@[simp] theorem saveLow_threshold (s : State) : (saveLow s).threshold = s.threshold := rfl
@[simp] theorem saveLow_timeout (s : State) : (saveLow s).timeout = s.timeout := rfl
@[simp] theorem saveLow_rawT (s : State) : (saveLow s).rawT = s.rawT := rfl
@[simp] theorem saveLow_rawH (s : State) : (saveLow s).rawH = s.rawH := rfl
@[simp] theorem saveLow_seq (s : State) : (saveLow s).seq = s.seq := rfl
@[simp] theorem saveLow_bitIdx (s : State) : (saveLow s).bitIdx = s.bitIdx := rfl
@[simp] theorem saveLow_attN (s : State) : (saveLow s).attN = s.attN := rfl
@[simp] theorem saveLow_calN (s : State) : (saveLow s).calN = s.calN := rfl
@[simp] theorem saveLow_cmdW (s : State) : (saveLow s).cmdW = s.cmdW := rfl
@[simp] theorem saveLow_status (s : State) : (saveLow s).status = s.status := rfl
@[simp] theorem saveLow_variant (s : State) : (saveLow s).variant = s.variant := rfl
@[simp] theorem saveLow_cap (s : State) : (saveLow s).cap = s.cap := rfl
@[simp] theorem saveLow_t (s : State) : (saveLow s).t = s.t := rfl
@[simp] theorem saveLow_h (s : State) : (saveLow s).h = s.h := rfl
@[simp] theorem saveLow_bitErr (s : State) : (saveLow s).bitErr = s.bitErr := rfl
@[simp] theorem saveLow_sumLow (s : State) : (saveLow s).sumLow = s.sumLow := rfl
@[simp] theorem saveLow_maxHigh (s : State) : (saveLow s).maxHigh = s.maxHigh := rfl
@[simp] theorem saveLow_count (s : State) : (saveLow s).count = s.count := rfl
@[simp] theorem saveLow_loCnt (s : State) : (saveLow s).loCnt = s.count := rfl
@[simp] theorem saveLow_phase (s : State) : (saveLow s).phase = s.phase := rfl
@[simp] theorem saveLow_shreg (s : State) : (saveLow s).shreg = s.shreg := rfl
@[simp] theorem saveLow_cause (s : State) : (saveLow s).cause = s.cause := rfl
@[simp] theorem saveLow_dqOe (s : State) : (saveLow s).dqOe = s.dqOe := rfl
@[simp] theorem saveLow_dqOut (s : State) : (saveLow s).dqOut = s.dqOut := rfl
@[simp] theorem saveLow_trace (s : State) : (saveLow s).trace = s.trace := rfl
@[simp] theorem saveLow_resetAsserted (s : State) : (saveLow s).resetAsserted = s.resetAsserted := rfl
@[simp] theorem saveLow_params (s : State) : (saveLow s).params = s.params := rfl
@[simp] theorem saveLow_script (s : State) : (saveLow s).script = s.script := rfl
@[simp] theorem saveLow_tail (s : State) : (saveLow s).tail = s.tail := rfl
@[simp] theorem saveLow_hostOps (s : State) : (saveLow s).hostOps = s.hostOps := rfl
@[simp] theorem saveLow_turns (s : State) : (saveLow s).turns = s.turns := rfl
@[simp] theorem saveLow_answers (s : State) : (saveLow s).answers = s.answers := rfl
@[simp] theorem saveLow_draws (s : State) : (saveLow s).draws = s.draws := rfl

/-! ### setBitIdx -/

@[simp] theorem setBitIdx_frame (k : Fin 40) (s : State) : (setBitIdx k s).frame = s.frame := rfl
@[simp] theorem setBitIdx_threshold (k : Fin 40) (s : State) : (setBitIdx k s).threshold = s.threshold := rfl
@[simp] theorem setBitIdx_timeout (k : Fin 40) (s : State) : (setBitIdx k s).timeout = s.timeout := rfl
@[simp] theorem setBitIdx_rawT (k : Fin 40) (s : State) : (setBitIdx k s).rawT = s.rawT := rfl
@[simp] theorem setBitIdx_rawH (k : Fin 40) (s : State) : (setBitIdx k s).rawH = s.rawH := rfl
@[simp] theorem setBitIdx_seq (k : Fin 40) (s : State) : (setBitIdx k s).seq = s.seq := rfl
@[simp] theorem setBitIdx_bitIdx (k : Fin 40) (s : State) : (setBitIdx k s).bitIdx = k := rfl
@[simp] theorem setBitIdx_attN (k : Fin 40) (s : State) : (setBitIdx k s).attN = s.attN := rfl
@[simp] theorem setBitIdx_calN (k : Fin 40) (s : State) : (setBitIdx k s).calN = s.calN := rfl
@[simp] theorem setBitIdx_cmdW (k : Fin 40) (s : State) : (setBitIdx k s).cmdW = s.cmdW := rfl
@[simp] theorem setBitIdx_status (k : Fin 40) (s : State) : (setBitIdx k s).status = s.status := rfl
@[simp] theorem setBitIdx_variant (k : Fin 40) (s : State) : (setBitIdx k s).variant = s.variant := rfl
@[simp] theorem setBitIdx_cap (k : Fin 40) (s : State) : (setBitIdx k s).cap = s.cap := rfl
@[simp] theorem setBitIdx_t (k : Fin 40) (s : State) : (setBitIdx k s).t = s.t := rfl
@[simp] theorem setBitIdx_h (k : Fin 40) (s : State) : (setBitIdx k s).h = s.h := rfl
@[simp] theorem setBitIdx_bitErr (k : Fin 40) (s : State) : (setBitIdx k s).bitErr = s.bitErr := rfl
@[simp] theorem setBitIdx_sumLow (k : Fin 40) (s : State) : (setBitIdx k s).sumLow = s.sumLow := rfl
@[simp] theorem setBitIdx_maxHigh (k : Fin 40) (s : State) : (setBitIdx k s).maxHigh = s.maxHigh := rfl
@[simp] theorem setBitIdx_count (k : Fin 40) (s : State) : (setBitIdx k s).count = s.count := rfl
@[simp] theorem setBitIdx_loCnt (k : Fin 40) (s : State) : (setBitIdx k s).loCnt = s.loCnt := rfl
@[simp] theorem setBitIdx_phase (k : Fin 40) (s : State) : (setBitIdx k s).phase = s.phase := rfl
@[simp] theorem setBitIdx_shreg (k : Fin 40) (s : State) : (setBitIdx k s).shreg = s.shreg := rfl
@[simp] theorem setBitIdx_cause (k : Fin 40) (s : State) : (setBitIdx k s).cause = s.cause := rfl
@[simp] theorem setBitIdx_dqOe (k : Fin 40) (s : State) : (setBitIdx k s).dqOe = s.dqOe := rfl
@[simp] theorem setBitIdx_dqOut (k : Fin 40) (s : State) : (setBitIdx k s).dqOut = s.dqOut := rfl
@[simp] theorem setBitIdx_trace (k : Fin 40) (s : State) : (setBitIdx k s).trace = s.trace := rfl
@[simp] theorem setBitIdx_resetAsserted (k : Fin 40) (s : State) : (setBitIdx k s).resetAsserted = s.resetAsserted := rfl
@[simp] theorem setBitIdx_params (k : Fin 40) (s : State) : (setBitIdx k s).params = s.params := rfl
@[simp] theorem setBitIdx_script (k : Fin 40) (s : State) : (setBitIdx k s).script = s.script := rfl
@[simp] theorem setBitIdx_tail (k : Fin 40) (s : State) : (setBitIdx k s).tail = s.tail := rfl
@[simp] theorem setBitIdx_hostOps (k : Fin 40) (s : State) : (setBitIdx k s).hostOps = s.hostOps := rfl
@[simp] theorem setBitIdx_turns (k : Fin 40) (s : State) : (setBitIdx k s).turns = s.turns := rfl
@[simp] theorem setBitIdx_answers (k : Fin 40) (s : State) : (setBitIdx k s).answers = s.answers := rfl
@[simp] theorem setBitIdx_draws (k : Fin 40) (s : State) : (setBitIdx k s).draws = s.draws := rfl

/-! ### clearCalN -/

@[simp] theorem clearCalN_frame (s : State) : (clearCalN s).frame = s.frame := rfl
@[simp] theorem clearCalN_threshold (s : State) : (clearCalN s).threshold = s.threshold := rfl
@[simp] theorem clearCalN_timeout (s : State) : (clearCalN s).timeout = s.timeout := rfl
@[simp] theorem clearCalN_rawT (s : State) : (clearCalN s).rawT = s.rawT := rfl
@[simp] theorem clearCalN_rawH (s : State) : (clearCalN s).rawH = s.rawH := rfl
@[simp] theorem clearCalN_seq (s : State) : (clearCalN s).seq = s.seq := rfl
@[simp] theorem clearCalN_bitIdx (s : State) : (clearCalN s).bitIdx = s.bitIdx := rfl
@[simp] theorem clearCalN_attN (s : State) : (clearCalN s).attN = s.attN := rfl
@[simp] theorem clearCalN_calN (s : State) : (clearCalN s).calN = 0 := rfl
@[simp] theorem clearCalN_cmdW (s : State) : (clearCalN s).cmdW = s.cmdW := rfl
@[simp] theorem clearCalN_status (s : State) : (clearCalN s).status = s.status := rfl
@[simp] theorem clearCalN_variant (s : State) : (clearCalN s).variant = s.variant := rfl
@[simp] theorem clearCalN_cap (s : State) : (clearCalN s).cap = s.cap := rfl
@[simp] theorem clearCalN_t (s : State) : (clearCalN s).t = s.t := rfl
@[simp] theorem clearCalN_h (s : State) : (clearCalN s).h = s.h := rfl
@[simp] theorem clearCalN_bitErr (s : State) : (clearCalN s).bitErr = s.bitErr := rfl
@[simp] theorem clearCalN_sumLow (s : State) : (clearCalN s).sumLow = s.sumLow := rfl
@[simp] theorem clearCalN_maxHigh (s : State) : (clearCalN s).maxHigh = s.maxHigh := rfl
@[simp] theorem clearCalN_count (s : State) : (clearCalN s).count = s.count := rfl
@[simp] theorem clearCalN_loCnt (s : State) : (clearCalN s).loCnt = s.loCnt := rfl
@[simp] theorem clearCalN_phase (s : State) : (clearCalN s).phase = s.phase := rfl
@[simp] theorem clearCalN_shreg (s : State) : (clearCalN s).shreg = s.shreg := rfl
@[simp] theorem clearCalN_cause (s : State) : (clearCalN s).cause = s.cause := rfl
@[simp] theorem clearCalN_dqOe (s : State) : (clearCalN s).dqOe = s.dqOe := rfl
@[simp] theorem clearCalN_dqOut (s : State) : (clearCalN s).dqOut = s.dqOut := rfl
@[simp] theorem clearCalN_trace (s : State) : (clearCalN s).trace = s.trace := rfl
@[simp] theorem clearCalN_resetAsserted (s : State) : (clearCalN s).resetAsserted = s.resetAsserted := rfl
@[simp] theorem clearCalN_params (s : State) : (clearCalN s).params = s.params := rfl
@[simp] theorem clearCalN_script (s : State) : (clearCalN s).script = s.script := rfl
@[simp] theorem clearCalN_tail (s : State) : (clearCalN s).tail = s.tail := rfl
@[simp] theorem clearCalN_hostOps (s : State) : (clearCalN s).hostOps = s.hostOps := rfl
@[simp] theorem clearCalN_turns (s : State) : (clearCalN s).turns = s.turns := rfl
@[simp] theorem clearCalN_answers (s : State) : (clearCalN s).answers = s.answers := rfl
@[simp] theorem clearCalN_draws (s : State) : (clearCalN s).draws = s.draws := rfl

/-! ### clearAttN -/

@[simp] theorem clearAttN_frame (s : State) : (clearAttN s).frame = s.frame := rfl
@[simp] theorem clearAttN_threshold (s : State) : (clearAttN s).threshold = s.threshold := rfl
@[simp] theorem clearAttN_timeout (s : State) : (clearAttN s).timeout = s.timeout := rfl
@[simp] theorem clearAttN_rawT (s : State) : (clearAttN s).rawT = s.rawT := rfl
@[simp] theorem clearAttN_rawH (s : State) : (clearAttN s).rawH = s.rawH := rfl
@[simp] theorem clearAttN_seq (s : State) : (clearAttN s).seq = s.seq := rfl
@[simp] theorem clearAttN_bitIdx (s : State) : (clearAttN s).bitIdx = s.bitIdx := rfl
@[simp] theorem clearAttN_attN (s : State) : (clearAttN s).attN = 0 := rfl
@[simp] theorem clearAttN_calN (s : State) : (clearAttN s).calN = s.calN := rfl
@[simp] theorem clearAttN_cmdW (s : State) : (clearAttN s).cmdW = s.cmdW := rfl
@[simp] theorem clearAttN_status (s : State) : (clearAttN s).status = s.status := rfl
@[simp] theorem clearAttN_variant (s : State) : (clearAttN s).variant = s.variant := rfl
@[simp] theorem clearAttN_cap (s : State) : (clearAttN s).cap = s.cap := rfl
@[simp] theorem clearAttN_t (s : State) : (clearAttN s).t = s.t := rfl
@[simp] theorem clearAttN_h (s : State) : (clearAttN s).h = s.h := rfl
@[simp] theorem clearAttN_bitErr (s : State) : (clearAttN s).bitErr = s.bitErr := rfl
@[simp] theorem clearAttN_sumLow (s : State) : (clearAttN s).sumLow = s.sumLow := rfl
@[simp] theorem clearAttN_maxHigh (s : State) : (clearAttN s).maxHigh = s.maxHigh := rfl
@[simp] theorem clearAttN_count (s : State) : (clearAttN s).count = s.count := rfl
@[simp] theorem clearAttN_loCnt (s : State) : (clearAttN s).loCnt = s.loCnt := rfl
@[simp] theorem clearAttN_phase (s : State) : (clearAttN s).phase = s.phase := rfl
@[simp] theorem clearAttN_shreg (s : State) : (clearAttN s).shreg = s.shreg := rfl
@[simp] theorem clearAttN_cause (s : State) : (clearAttN s).cause = s.cause := rfl
@[simp] theorem clearAttN_dqOe (s : State) : (clearAttN s).dqOe = s.dqOe := rfl
@[simp] theorem clearAttN_dqOut (s : State) : (clearAttN s).dqOut = s.dqOut := rfl
@[simp] theorem clearAttN_trace (s : State) : (clearAttN s).trace = s.trace := rfl
@[simp] theorem clearAttN_resetAsserted (s : State) : (clearAttN s).resetAsserted = s.resetAsserted := rfl
@[simp] theorem clearAttN_params (s : State) : (clearAttN s).params = s.params := rfl
@[simp] theorem clearAttN_script (s : State) : (clearAttN s).script = s.script := rfl
@[simp] theorem clearAttN_tail (s : State) : (clearAttN s).tail = s.tail := rfl
@[simp] theorem clearAttN_hostOps (s : State) : (clearAttN s).hostOps = s.hostOps := rfl
@[simp] theorem clearAttN_turns (s : State) : (clearAttN s).turns = s.turns := rfl
@[simp] theorem clearAttN_answers (s : State) : (clearAttN s).answers = s.answers := rfl
@[simp] theorem clearAttN_draws (s : State) : (clearAttN s).draws = s.draws := rfl

/-! ### countAttempt -/

@[simp] theorem countAttempt_frame (m : BitVec 8) (s : State) : (countAttempt m s).frame = s.frame := rfl
@[simp] theorem countAttempt_threshold (m : BitVec 8) (s : State) : (countAttempt m s).threshold = s.threshold := rfl
@[simp] theorem countAttempt_timeout (m : BitVec 8) (s : State) : (countAttempt m s).timeout = s.timeout := rfl
@[simp] theorem countAttempt_rawT (m : BitVec 8) (s : State) : (countAttempt m s).rawT = s.rawT := rfl
@[simp] theorem countAttempt_rawH (m : BitVec 8) (s : State) : (countAttempt m s).rawH = s.rawH := rfl
@[simp] theorem countAttempt_seq (m : BitVec 8) (s : State) : (countAttempt m s).seq = s.seq := rfl
@[simp] theorem countAttempt_bitIdx (m : BitVec 8) (s : State) : (countAttempt m s).bitIdx = s.bitIdx := rfl
@[simp] theorem countAttempt_attN (m : BitVec 8) (s : State) : (countAttempt m s).attN = if 0 < maxattValue m then s.attN + 1 else s.attN := rfl
@[simp] theorem countAttempt_calN (m : BitVec 8) (s : State) : (countAttempt m s).calN = s.calN := rfl
@[simp] theorem countAttempt_cmdW (m : BitVec 8) (s : State) : (countAttempt m s).cmdW = s.cmdW := rfl
@[simp] theorem countAttempt_status (m : BitVec 8) (s : State) : (countAttempt m s).status = s.status := rfl
@[simp] theorem countAttempt_variant (m : BitVec 8) (s : State) : (countAttempt m s).variant = s.variant := rfl
@[simp] theorem countAttempt_cap (m : BitVec 8) (s : State) : (countAttempt m s).cap = s.cap := rfl
@[simp] theorem countAttempt_t (m : BitVec 8) (s : State) : (countAttempt m s).t = s.t := rfl
@[simp] theorem countAttempt_h (m : BitVec 8) (s : State) : (countAttempt m s).h = s.h := rfl
@[simp] theorem countAttempt_bitErr (m : BitVec 8) (s : State) : (countAttempt m s).bitErr = s.bitErr := rfl
@[simp] theorem countAttempt_sumLow (m : BitVec 8) (s : State) : (countAttempt m s).sumLow = s.sumLow := rfl
@[simp] theorem countAttempt_maxHigh (m : BitVec 8) (s : State) : (countAttempt m s).maxHigh = s.maxHigh := rfl
@[simp] theorem countAttempt_count (m : BitVec 8) (s : State) : (countAttempt m s).count = s.count := rfl
@[simp] theorem countAttempt_loCnt (m : BitVec 8) (s : State) : (countAttempt m s).loCnt = s.loCnt := rfl
@[simp] theorem countAttempt_phase (m : BitVec 8) (s : State) : (countAttempt m s).phase = s.phase := rfl
@[simp] theorem countAttempt_shreg (m : BitVec 8) (s : State) : (countAttempt m s).shreg = s.shreg := rfl
@[simp] theorem countAttempt_cause (m : BitVec 8) (s : State) : (countAttempt m s).cause = s.cause := rfl
@[simp] theorem countAttempt_dqOe (m : BitVec 8) (s : State) : (countAttempt m s).dqOe = s.dqOe := rfl
@[simp] theorem countAttempt_dqOut (m : BitVec 8) (s : State) : (countAttempt m s).dqOut = s.dqOut := rfl
@[simp] theorem countAttempt_trace (m : BitVec 8) (s : State) : (countAttempt m s).trace = s.trace := rfl
@[simp] theorem countAttempt_resetAsserted (m : BitVec 8) (s : State) : (countAttempt m s).resetAsserted = s.resetAsserted := rfl
@[simp] theorem countAttempt_params (m : BitVec 8) (s : State) : (countAttempt m s).params = s.params := rfl
@[simp] theorem countAttempt_script (m : BitVec 8) (s : State) : (countAttempt m s).script = s.script := rfl
@[simp] theorem countAttempt_tail (m : BitVec 8) (s : State) : (countAttempt m s).tail = s.tail := rfl
@[simp] theorem countAttempt_hostOps (m : BitVec 8) (s : State) : (countAttempt m s).hostOps = s.hostOps := rfl
@[simp] theorem countAttempt_turns (m : BitVec 8) (s : State) : (countAttempt m s).turns = s.turns := rfl
@[simp] theorem countAttempt_answers (m : BitVec 8) (s : State) : (countAttempt m s).answers = s.answers := rfl
@[simp] theorem countAttempt_draws (m : BitVec 8) (s : State) : (countAttempt m s).draws = s.draws := rfl

/-! ### countCalFailure -/

@[simp] theorem countCalFailure_frame (s : State) : (countCalFailure s).frame = s.frame := rfl
@[simp] theorem countCalFailure_threshold (s : State) : (countCalFailure s).threshold = s.threshold := rfl
@[simp] theorem countCalFailure_timeout (s : State) : (countCalFailure s).timeout = s.timeout := rfl
@[simp] theorem countCalFailure_rawT (s : State) : (countCalFailure s).rawT = s.rawT := rfl
@[simp] theorem countCalFailure_rawH (s : State) : (countCalFailure s).rawH = s.rawH := rfl
@[simp] theorem countCalFailure_seq (s : State) : (countCalFailure s).seq = s.seq := rfl
@[simp] theorem countCalFailure_bitIdx (s : State) : (countCalFailure s).bitIdx = s.bitIdx := rfl
@[simp] theorem countCalFailure_attN (s : State) : (countCalFailure s).attN = s.attN := rfl
@[simp] theorem countCalFailure_calN (s : State) : (countCalFailure s).calN = s.calN + 1 := rfl
@[simp] theorem countCalFailure_cmdW (s : State) : (countCalFailure s).cmdW = s.cmdW := rfl
@[simp] theorem countCalFailure_status (s : State) : (countCalFailure s).status = s.status := rfl
@[simp] theorem countCalFailure_variant (s : State) : (countCalFailure s).variant = s.variant := rfl
@[simp] theorem countCalFailure_cap (s : State) : (countCalFailure s).cap = s.cap := rfl
@[simp] theorem countCalFailure_t (s : State) : (countCalFailure s).t = s.t := rfl
@[simp] theorem countCalFailure_h (s : State) : (countCalFailure s).h = s.h := rfl
@[simp] theorem countCalFailure_bitErr (s : State) : (countCalFailure s).bitErr = s.bitErr := rfl
@[simp] theorem countCalFailure_sumLow (s : State) : (countCalFailure s).sumLow = s.sumLow := rfl
@[simp] theorem countCalFailure_maxHigh (s : State) : (countCalFailure s).maxHigh = s.maxHigh := rfl
@[simp] theorem countCalFailure_count (s : State) : (countCalFailure s).count = s.count := rfl
@[simp] theorem countCalFailure_loCnt (s : State) : (countCalFailure s).loCnt = s.loCnt := rfl
@[simp] theorem countCalFailure_phase (s : State) : (countCalFailure s).phase = s.phase := rfl
@[simp] theorem countCalFailure_shreg (s : State) : (countCalFailure s).shreg = s.shreg := rfl
@[simp] theorem countCalFailure_cause (s : State) : (countCalFailure s).cause = s.cause := rfl
@[simp] theorem countCalFailure_dqOe (s : State) : (countCalFailure s).dqOe = s.dqOe := rfl
@[simp] theorem countCalFailure_dqOut (s : State) : (countCalFailure s).dqOut = s.dqOut := rfl
@[simp] theorem countCalFailure_trace (s : State) : (countCalFailure s).trace = s.trace := rfl
@[simp] theorem countCalFailure_resetAsserted (s : State) : (countCalFailure s).resetAsserted = s.resetAsserted := rfl
@[simp] theorem countCalFailure_params (s : State) : (countCalFailure s).params = s.params := rfl
@[simp] theorem countCalFailure_script (s : State) : (countCalFailure s).script = s.script := rfl
@[simp] theorem countCalFailure_tail (s : State) : (countCalFailure s).tail = s.tail := rfl
@[simp] theorem countCalFailure_hostOps (s : State) : (countCalFailure s).hostOps = s.hostOps := rfl
@[simp] theorem countCalFailure_turns (s : State) : (countCalFailure s).turns = s.turns := rfl
@[simp] theorem countCalFailure_answers (s : State) : (countCalFailure s).answers = s.answers := rfl
@[simp] theorem countCalFailure_draws (s : State) : (countCalFailure s).draws = s.draws := rfl

/-! ### initAssign -/

@[simp] theorem initAssign_frame (v : Variant) (c : BitVec 8) (s : State) : (initAssign v c s).frame = 0 := rfl
@[simp] theorem initAssign_threshold (v : Variant) (c : BitVec 8) (s : State) : (initAssign v c s).threshold = Config.thresholdDefault := rfl
@[simp] theorem initAssign_timeout (v : Variant) (c : BitVec 8) (s : State) : (initAssign v c s).timeout = s.params.timeoutInit := rfl
@[simp] theorem initAssign_rawT (v : Variant) (c : BitVec 8) (s : State) : (initAssign v c s).rawT = 0 := rfl
@[simp] theorem initAssign_rawH (v : Variant) (c : BitVec 8) (s : State) : (initAssign v c s).rawH = 0 := rfl
@[simp] theorem initAssign_seq (v : Variant) (c : BitVec 8) (s : State) : (initAssign v c s).seq = s.seq := rfl
@[simp] theorem initAssign_bitIdx (v : Variant) (c : BitVec 8) (s : State) : (initAssign v c s).bitIdx = s.bitIdx := rfl
@[simp] theorem initAssign_attN (v : Variant) (c : BitVec 8) (s : State) : (initAssign v c s).attN = s.attN := rfl
@[simp] theorem initAssign_calN (v : Variant) (c : BitVec 8) (s : State) : (initAssign v c s).calN = s.calN := rfl
@[simp] theorem initAssign_cmdW (v : Variant) (c : BitVec 8) (s : State) : (initAssign v c s).cmdW = s.cmdW := rfl
@[simp] theorem initAssign_status (v : Variant) (c : BitVec 8) (s : State) : (initAssign v c s).status = s.status.initStarted := rfl
@[simp] theorem initAssign_variant (v : Variant) (c : BitVec 8) (s : State) : (initAssign v c s).variant = v := rfl
@[simp] theorem initAssign_cap (v : Variant) (c : BitVec 8) (s : State) : (initAssign v c s).cap = capValue c := rfl
@[simp] theorem initAssign_t (v : Variant) (c : BitVec 8) (s : State) : (initAssign v c s).t = s.t.initStarted := rfl
@[simp] theorem initAssign_h (v : Variant) (c : BitVec 8) (s : State) : (initAssign v c s).h = s.h.initStarted := rfl
@[simp] theorem initAssign_bitErr (v : Variant) (c : BitVec 8) (s : State) : (initAssign v c s).bitErr = s.bitErr := rfl
@[simp] theorem initAssign_sumLow (v : Variant) (c : BitVec 8) (s : State) : (initAssign v c s).sumLow = s.sumLow := rfl
@[simp] theorem initAssign_maxHigh (v : Variant) (c : BitVec 8) (s : State) : (initAssign v c s).maxHigh = s.maxHigh := rfl
@[simp] theorem initAssign_count (v : Variant) (c : BitVec 8) (s : State) : (initAssign v c s).count = s.count := rfl
@[simp] theorem initAssign_loCnt (v : Variant) (c : BitVec 8) (s : State) : (initAssign v c s).loCnt = s.loCnt := rfl
@[simp] theorem initAssign_phase (v : Variant) (c : BitVec 8) (s : State) : (initAssign v c s).phase = s.phase := rfl
@[simp] theorem initAssign_shreg (v : Variant) (c : BitVec 8) (s : State) : (initAssign v c s).shreg = s.shreg := rfl
@[simp] theorem initAssign_cause (v : Variant) (c : BitVec 8) (s : State) : (initAssign v c s).cause = s.cause := rfl
@[simp] theorem initAssign_dqOe (v : Variant) (c : BitVec 8) (s : State) : (initAssign v c s).dqOe = s.dqOe := rfl
@[simp] theorem initAssign_dqOut (v : Variant) (c : BitVec 8) (s : State) : (initAssign v c s).dqOut = s.dqOut := rfl
@[simp] theorem initAssign_trace (v : Variant) (c : BitVec 8) (s : State) : (initAssign v c s).trace = s.trace := rfl
@[simp] theorem initAssign_resetAsserted (v : Variant) (c : BitVec 8) (s : State) : (initAssign v c s).resetAsserted = s.resetAsserted := rfl
@[simp] theorem initAssign_params (v : Variant) (c : BitVec 8) (s : State) : (initAssign v c s).params = s.params := rfl
@[simp] theorem initAssign_script (v : Variant) (c : BitVec 8) (s : State) : (initAssign v c s).script = s.script := rfl
@[simp] theorem initAssign_tail (v : Variant) (c : BitVec 8) (s : State) : (initAssign v c s).tail = s.tail := rfl
@[simp] theorem initAssign_hostOps (v : Variant) (c : BitVec 8) (s : State) : (initAssign v c s).hostOps = s.hostOps := rfl
@[simp] theorem initAssign_turns (v : Variant) (c : BitVec 8) (s : State) : (initAssign v c s).turns = s.turns := rfl
@[simp] theorem initAssign_answers (v : Variant) (c : BitVec 8) (s : State) : (initAssign v c s).answers = s.answers := rfl
@[simp] theorem initAssign_draws (v : Variant) (c : BitVec 8) (s : State) : (initAssign v c s).draws = s.draws := rfl

/-! ### Status.taken -/

@[simp] theorem Status.taken_busy (f : Status) : (f.taken).busy = true := rfl
@[simp] theorem Status.taken_done (f : Status) : (f.taken).done = false := rfl
@[simp] theorem Status.taken_ok (f : Status) : (f.taken).ok = false := rfl
@[simp] theorem Status.taken_inited (f : Status) : (f.taken).inited = f.inited := rfl
@[simp] theorem Status.taken_calOk (f : Status) : (f.taken).calOk = f.calOk := rfl
@[simp] theorem Status.taken_frameOk (f : Status) : (f.taken).frameOk = f.frameOk := rfl
@[simp] theorem Status.taken_tAcc (f : Status) : (f.taken).tAcc = false := rfl
@[simp] theorem Status.taken_hAcc (f : Status) : (f.taken).hAcc = false := rfl
@[simp] theorem Status.taken_overrun (f : Status) : (f.taken).overrun = f.overrun := rfl
@[simp] theorem Status.taken_err (f : Status) : (f.taken).err = .none := rfl

/-! ### Status.completed -/

@[simp] theorem Status.completed_busy (o : Bool) (e : ErrorCode) (f : Status) : (f.completed o e).busy = false := rfl
@[simp] theorem Status.completed_done (o : Bool) (e : ErrorCode) (f : Status) : (f.completed o e).done = true := rfl
@[simp] theorem Status.completed_ok (o : Bool) (e : ErrorCode) (f : Status) : (f.completed o e).ok = o := rfl
@[simp] theorem Status.completed_inited (o : Bool) (e : ErrorCode) (f : Status) : (f.completed o e).inited = f.inited := rfl
@[simp] theorem Status.completed_calOk (o : Bool) (e : ErrorCode) (f : Status) : (f.completed o e).calOk = f.calOk := rfl
@[simp] theorem Status.completed_frameOk (o : Bool) (e : ErrorCode) (f : Status) : (f.completed o e).frameOk = f.frameOk := rfl
@[simp] theorem Status.completed_tAcc (o : Bool) (e : ErrorCode) (f : Status) : (f.completed o e).tAcc = f.tAcc := rfl
@[simp] theorem Status.completed_hAcc (o : Bool) (e : ErrorCode) (f : Status) : (f.completed o e).hAcc = f.hAcc := rfl
@[simp] theorem Status.completed_overrun (o : Bool) (e : ErrorCode) (f : Status) : (f.completed o e).overrun = f.overrun := rfl
@[simp] theorem Status.completed_err (o : Bool) (e : ErrorCode) (f : Status) : (f.completed o e).err = e := rfl

/-! ### Status.initStarted -/

@[simp] theorem Status.initStarted_busy (f : Status) : (f.initStarted).busy = f.busy := rfl
@[simp] theorem Status.initStarted_done (f : Status) : (f.initStarted).done = f.done := rfl
@[simp] theorem Status.initStarted_ok (f : Status) : (f.initStarted).ok = f.ok := rfl
@[simp] theorem Status.initStarted_inited (f : Status) : (f.initStarted).inited = true := rfl
@[simp] theorem Status.initStarted_calOk (f : Status) : (f.initStarted).calOk = false := rfl
@[simp] theorem Status.initStarted_frameOk (f : Status) : (f.initStarted).frameOk = false := rfl
@[simp] theorem Status.initStarted_tAcc (f : Status) : (f.initStarted).tAcc = f.tAcc := rfl
@[simp] theorem Status.initStarted_hAcc (f : Status) : (f.initStarted).hAcc = f.hAcc := rfl
@[simp] theorem Status.initStarted_overrun (f : Status) : (f.initStarted).overrun = false := rfl
@[simp] theorem Status.initStarted_err (f : Status) : (f.initStarted).err = f.err := rfl

/-! ### Filter.initStarted -/

@[simp] theorem Filter.initStarted_buf (f : Filter) : (f.initStarted).buf = f.buf := rfl
@[simp] theorem Filter.initStarted_written (f : Filter) : (f.initStarted).written = f.written := rfl
@[simp] theorem Filter.initStarted_wr (f : Filter) : (f.initStarted).wr = 0 := rfl
@[simp] theorem Filter.initStarted_fill (f : Filter) : (f.initStarted).fill = 0 := rfl
@[simp] theorem Filter.initStarted_dev (f : Filter) : (f.initStarted).dev = Config.devDefault := rfl
@[simp] theorem Filter.initStarted_last (f : Filter) : (f.initStarted).last = Config.sentinel := rfl

/-! ### Filter.insert -/

@[simp] theorem Filter.insert_buf (c : Fin 17) (x : Word) (f : Filter) : (f.insert c x).buf = f.buf.set f.wr x := rfl
@[simp] theorem Filter.insert_written (c : Fin 17) (x : Word) (f : Filter) : (f.insert c x).written = f.written.set f.wr true := rfl
@[simp] theorem Filter.insert_wr (c : Fin 17) (x : Word) (f : Filter) : (f.insert c x).wr = nextSlot c f.wr := rfl
@[simp] theorem Filter.insert_fill (c : Fin 17) (x : Word) (f : Filter) : (f.insert c x).fill = if f.fill < c then f.fill + 1 else f.fill := rfl
@[simp] theorem Filter.insert_dev (c : Fin 17) (x : Word) (f : Filter) : (f.insert c x).dev = f.dev := rfl
@[simp] theorem Filter.insert_last (c : Fin 17) (x : Word) (f : Filter) : (f.insert c x).last = f.last := rfl

end Sys2Proof.Machine
end

