-- ==== Sys2Proof/Laws/Filter.lean ====
section
/-! SUPPORT. The noise filter: sorting, one insertion, and that an insertion keeps the filter's invariant; and the ranges of the decoder. -/

namespace Sys2Proof.Machine

/-! ### Sorting -/

theorem insertSorted_perm (x : Int) (l : List Int) : (insertSorted x l).Perm (x :: l) := by
  induction l with
  | nil => exact List.Perm.refl _
  | cons y ys ih =>
    unfold insertSorted
    split
    · exact List.Perm.refl _
    · exact (ih.cons y).trans (List.Perm.swap x y ys)

theorem insertSorted_sorted (x : Int) (l : List Int) (h : l.Pairwise (fun a b => a ≤ b)) :
    (insertSorted x l).Pairwise (fun a b => a ≤ b) := by
  induction l with
  | nil => simp [insertSorted]
  | cons y ys ih =>
    unfold insertSorted
    split <;> rename_i hxy <;> refine List.pairwise_cons.2 ⟨fun a ha => ?_, ?_⟩
    · rcases List.mem_cons.1 ha with rfl | ha
      · exact hxy
      · exact hxy.trans (List.rel_of_pairwise_cons h ha)
    · exact h
    · rcases List.mem_cons.1 ((insertSorted_perm x ys).mem_iff.1 ha) with rfl | ha
      · omega
      · exact List.rel_of_pairwise_cons h ha
    · exact ih (List.Pairwise.of_cons h)

theorem sortInts_perm (l : List Int) : (sortInts l).Perm l := by
  induction l with
  | nil => exact List.Perm.refl _
  | cons x xs ih => exact (insertSorted_perm x _).trans (ih.cons x)

theorem sortInts_sorted (l : List Int) : (sortInts l).Pairwise (fun a b => a ≤ b) := by
  induction l with
  | nil => exact List.Pairwise.nil
  | cons x xs ih => exact insertSorted_sorted x _ ih

/-! ### Insertion -/

theorem nextSlot_val (cap : Fin 17) (wr : Fin 16) (h : 1 ≤ cap.val) : (nextSlot cap wr).val = (wr.val + 1) % cap.val := by
  have h1 : (wr.val + 1) % cap.val < cap.val := Nat.mod_lt _ (by omega)
  have h2 := cap.isLt
  simp only [nextSlot, Fin.ofNat]
  omega

theorem insert_fill_val (cap : Fin 17) (x : Word) (f : Filter) :
    (f.insert cap x).fill.val = if f.fill.val < cap.val then f.fill.val + 1 else f.fill.val := by
  have h := cap.isLt
  by_cases hl : f.fill.val < cap.val
  · rw [if_pos hl]
    show (if f.fill < cap then f.fill + 1 else f.fill).val = _
    rw [if_pos (Fin.lt_def.2 hl), Fin.val_add_one_of_lt]
    rw [Fin.lt_def, Fin.val_last]
    omega
  · rw [if_neg hl]
    show (if f.fill < cap then f.fill + 1 else f.fill).val = _
    rw [if_neg (fun e => hl (Fin.lt_def.1 e))]

theorem insert_wr_val (cap : Fin 17) (x : Word) (f : Filter) (h : 1 ≤ cap.val) :
    (f.insert cap x).wr.val = (f.wr.val + 1) % cap.val := nextSlot_val cap f.wr h

theorem insert_buf (cap : Fin 17) (x : Word) (f : Filter) (i : Fin 16) :
    (f.insert cap x).buf[i] = if f.wr = i then x else f.buf[i] := by
  show (f.buf.set f.wr x)[i.val] = _
  rw [Vector.getElem_set]
  by_cases h : f.wr = i
  · rw [if_pos h, if_pos (congrArg Fin.val h)]
  · rw [if_neg h, if_neg (fun e => h (Fin.ext e))]; rfl

theorem insert_written (cap : Fin 17) (x : Word) (f : Filter) (i : Fin 16) :
    (f.insert cap x).written[i] = if f.wr = i then true else f.written[i] := by
  show (f.written.set f.wr true)[i.val] = _
  rw [Vector.getElem_set]
  by_cases h : f.wr = i
  · rw [if_pos h, if_pos (congrArg Fin.val h)]
  · rw [if_neg h, if_neg (fun e => h (Fin.ext e))]; rfl

/-- What accepting or rejecting a value does to the two indices does not depend on the value (44_noise_filter.md R135). -/
theorem accept_wr (cap : Fin 17) (x : Word) (f : Filter) :
    (f.accept cap x).wr = if cap.val = 0 then f.wr else nextSlot cap f.wr := by
  unfold Filter.accept
  simp only []
  split <;> split <;> rfl

theorem accept_fill (cap : Fin 17) (x : Word) (f : Filter) :
    (f.accept cap x).fill = if cap.val = 0 then f.fill else if f.fill < cap then f.fill + 1 else f.fill := by
  unfold Filter.accept
  simp only []
  split <;> split <;> rfl

theorem accept_dev (cap : Fin 17) (x : Word) (f : Filter) : (f.accept cap x).dev = f.dev := by
  unfold Filter.accept
  simp only []
  split <;> split <;> rfl

theorem filterInv_insert (cap : Fin 17) (x : Word) (f : Filter) (hc : 1 ≤ cap.val) (h : FilterInv cap f) :
    FilterInv cap (f.insert cap x) := by
  have hv := insert_wr_val cap x f hc
  have hfill := insert_fill_val cap x f
  have hwl := h.wr_lt
  have hfl : f.fill.val ≤ cap.val := h.fill_le
  have hmod := Nat.mod_lt (f.wr.val + 1) (show cap.val > 0 by omega)
  refine ⟨?_, ?_, ?_, ?_⟩
  · rw [Fin.le_def, hfill]; split <;> omega
  · rw [hv]; omega
  · intro hlt
    rw [Fin.lt_def, hfill] at hlt
    rw [hfill, hv]
    split at hlt
    · rename_i hl
      rw [if_pos hl, h.wr_warm hl]
      exact Nat.mod_eq_of_lt hlt
    · omega
  · intro i hi
    rw [hfill] at hi
    rw [insert_written]
    split
    · rfl
    · rename_i hne
      apply h.written
      split at hi
      · rename_i hl
        have hw := h.wr_warm hl
        have hne' : f.wr.val ≠ i.val := fun e => hne (Fin.ext e)
        omega
      · exact hi

theorem filterInv_accept (cap : Fin 17) (x : Word) (f : Filter) (h : FilterInv cap f) :
    FilterInv cap (f.accept cap x) := by
  have hl : FilterInv cap (if f.accepts cap x then { f with last := x } else f) := by
    split
    · exact ⟨h.1, h.2, h.3, h.4⟩
    · exact h
  unfold Filter.accept
  simp only []
  split
  · exact hl
  · exact filterInv_insert cap x _ (by omega) hl

/-! ### The decoder -/

theorem frac_le (n : BitVec 8) : frac n ≤ 990 := by
  have h := n.isLt
  unfold frac
  split <;> (try split) <;> (try split) <;> omega

/-- A reading's range fits the signed 32-bit register. -/
theorem toInt_ofInt_reading (x : Int) (h1 : -6553500 ≤ x) (h2 : x ≤ 6553500) : (BitVec.ofInt 32 x).toInt = x := by
  rw [BitVec.toInt_ofInt, Int.bmod_def]
  norm_num
  omega

end Sys2Proof.Machine
end

