-- ==== Sys2Proof/Laws/Ops.lean ====
section
/-! SUPPORT. What each shared operation can do, said once: the checks at DISPATCH, the register reads and writes of the host, one step of one command in the control states that all commands share. -/

namespace Sys2Proof.Machine

/-! ### The checks of 30_encoding.md R66 -/

theorem checked_illFormed {i : Instr} {s : State} (go : Out) (h : i.wellFormed = false) :
    checked i s go = .next (raise .invalidArgument s) := by
  unfold checked; rw [if_pos h]

theorem checked_notInitialised {i : Instr} {s : State} (go : Out) (h : i.wellFormed = true) (hn : needsInit i = true)
    (hi : s.status.inited = false) : checked i s go = .next (raise .notInitialised s) := by
  unfold checked; rw [if_neg (by simp [h]), if_pos ⟨hn, hi⟩]

theorem checked_pass {i : Instr} {s : State} (go : Out) (h : i.wellFormed = true)
    (hi : needsInit i = true → s.status.inited = true) : checked i s go = go := by
  unfold checked
  rw [if_neg (by simp [h]), if_neg]
  rintro ⟨hn, h0⟩
  simp [hi hn] at h0

/-- The checks let a command go on, or complete it with InvalidArgument or NotInitialised. -/
theorem checked_cases (i : Instr) (s : State) (go : Out) :
    (i.wellFormed = false ∧ checked i s go = .next (raise .invalidArgument s)) ∨
    (i.wellFormed = true ∧ needsInit i = true ∧ s.status.inited = false ∧
      checked i s go = .next (raise .notInitialised s)) ∨
    (i.wellFormed = true ∧ (needsInit i = true → s.status.inited = true) ∧ checked i s go = go) := by
  cases h : i.wellFormed
  · exact .inl ⟨rfl, checked_illFormed go h⟩
  · by_cases hn : needsInit i = true ∧ s.status.inited = false
    · exact .inr (.inl ⟨rfl, hn.1, hn.2, checked_notInitialised go h hn.1 hn.2⟩)
    · have hi : needsInit i = true → s.status.inited = true := by
        intro h1
        cases h2 : s.status.inited
        · exact absurd ⟨h1, h2⟩ hn
        · rfl
      exact .inr (.inr ⟨rfl, hi, checked_pass go h hi⟩)

theorem wellFormed_init {v : Variant} {cap : BitVec 8} :
    (Instr.init v cap).wellFormed = true ↔ cap.toNat ≤ 16 := decide_eq_true_iff

theorem wellFormed_acquire {m : BitVec 8} {r : BitVec 16} :
    (Instr.acquire m r).wellFormed = true ↔ 0 ≤ m.toInt := by
  simp [Instr.wellFormed, maxattLegal]

theorem wellFormed_read {m : BitVec 8} {r : BitVec 16} : (Instr.read m r).wellFormed = true ↔ 0 ≤ m.toInt := by
  simp [Instr.wellFormed, maxattLegal]

@[simp] theorem wellFormed_calibrate : Instr.calibrate.wellFormed = true := rfl
@[simp] theorem wellFormed_setdev {q : Quantity} {p : BitVec 16} : (Instr.setdev q p).wellFormed = true := rfl

/-! ### The DISPATCH step of each command -/

theorem exec_dispatch_init {v : Variant} {cap : BitVec 8} {s : State} (h : s.seq = .dispatch) :
    exec (.init v cap) s = checked (.init v cap) s (.next (startCalibration (initAssign v cap s))) := by
  simp only [exec, execInit, controlStep, h]

theorem exec_dispatch_calibrate {s : State} (h : s.seq = .dispatch) :
    exec .calibrate s = checked .calibrate s (.next (startCalibration s)) := by
  simp only [exec, execCalibrate, controlStep, h]

theorem exec_dispatch_acquire {m : BitVec 8} {r : BitVec 16} {s : State} (h : s.seq = .dispatch) :
    exec (.acquire m r) s = checked (.acquire m r) s (.next (startAcquire s)) := by
  simp only [exec, execAcquire, controlStep, h]

theorem exec_dispatch_read {m : BitVec 8} {r : BitVec 16} {s : State} (h : s.seq = .dispatch) :
    exec (.read m r) s = checked (.read m r) s (.next (startAcquire s)) := by
  simp only [exec, execRead, controlStep, h]

theorem exec_dispatch_setdev {q : Quantity} {p : BitVec 16} {s : State} (h : s.seq = .dispatch) :
    exec (.setdev q p) s = checked (.setdev q p) s (.next (complete true .none (setDeviation q p s))) := by
  simp only [exec, execSetdev, h]

/-! ### The control states all commands share -/

/-- Whether a command calibrates. -/
def calibrates : Instr → Bool
  | .init _ _ | .calibrate => true
  | .acquire _ _ | .read _ _ | .setdev _ _ => false

/-- In the control states that drive the line a command's step does not depend on the command, but for `cal`. -/
theorem exec_line {i : Instr} (hi : ∀ q p, i ≠ .setdev q p) {s : State} (hd : s.seq ≠ .dispatch)
    (ha : s.seq ≠ .attEnd) (hr : s.seq ≠ .retry) (hf : s.seq ≠ .filter) (a b c d : Out) :
    exec i s = controlStep (calibrates i) s a b c d := by
  cases i with
  | setdev q p => exact absurd rfl (hi q p)
  | init v c => cases hs : s.seq <;> simp_all [exec, execInit, controlStep, calibrates]
  | calibrate => cases hs : s.seq <;> simp_all [exec, execCalibrate, controlStep, calibrates]
  | acquire m r => cases hs : s.seq <;> simp_all [exec, execAcquire, controlStep, calibrates]
  | read m r => cases hs : s.seq <;> simp_all [exec, execRead, controlStep, calibrates]

/-- What the sequencer's step can be: the command's own in four control states, else one that goes on. -/
theorem controlStep_cases {cal : Bool} {s t : State} {a b c d : Out} (h : controlStep cal s a b c d = .next t) :
    (s.seq = .dispatch ∧ a = .next t) ∨ (s.seq = .attEnd ∧ b = .next t) ∨ (s.seq = .retry ∧ c = .next t) ∨
    (s.seq = .filter ∧ d = .next t) ∨ (s.seq = .idle ∧ t = s) ∨
    (s.seq = .hs0 ∧ t = goto .hs1 (portSetMode .output (clearAttempt s))) ∨
    (s.seq = .hs1 ∧ t = goto .hs2 (portWrite .low s)) ∨
    (s.seq = .hs2 ∧ t = goto .hs3 (portDelayMillis Config.startLowMs s)) ∨
    (s.seq = .hs3 ∧ t = goto .hs4 (portWrite .high s)) ∨
    (s.seq = .hs4 ∧ t = goto .hs5 (portDelayMicros s.params.startHighUs s)) ∨
    (s.seq = .hs5 ∧ t = startPhase .ackLow (portSetMode .input s)) ∨
    (s.seq = .poll ∧ t = pollStep s) ∨ (s.seq = .pdelay ∧ t = pdelayStep s) ∨
    (s.seq = .phaseEnd ∧ t = phaseEndStep cal s) := by
  unfold controlStep at h
  split at h <;> rename_i hq
  case h_2 | h_12 | h_13 | h_14 => simp [hq, h]
  all_goals (injection h with h; subst h; simp [hq])

/-- What the line steps leave: everything but the control state, the port, the trace, the script and the attempt's
accumulators. -/
theorem pollStep_eq (s : State) :
    pollStep s = if lineLevel s = s.phase.level then goto .pdelay (countPoll (portRead s))
      else goto .phaseEnd (portRead s) := by
  unfold pollStep; split <;> simp_all

/-! ### The end of an attempt -/

/-- The cause of an attempt: none exactly when no slot timed out and the frame is valid (R87, R88). -/
theorem attemptCause_none {bitErr : Bool} {f : Frame} :
    attemptCause bitErr f = .none ↔ bitErr = false ∧ frameValid f = true := by
  unfold attemptCause frameValid
  cases bitErr <;> cases checksumMatches f <;> by_cases hf : f = 0#40 <;> simp [hf]

theorem attemptCause_checksum {bitErr : Bool} {f : Frame} :
    attemptCause bitErr f = .checksumMismatch ↔ bitErr = true ∨ checksumMatches f = false := by
  unfold attemptCause
  cases bitErr <;> cases checksumMatches f <;> by_cases hf : f = 0#40 <;> simp [hf]

theorem attemptCause_degenerate {bitErr : Bool} {f : Frame} :
    attemptCause bitErr f = .degenerateFrame ↔ bitErr = false ∧ f = 0 := by
  have h0 : checksumMatches 0#40 = true := by decide
  unfold attemptCause
  cases bitErr <;> by_cases hf : f = 0#40
  · subst hf; simp [h0]
  · cases checksumMatches f <;> simp [hf]
  · simp
  · simp

/-- An attempt ends with one of three causes (60_exceptions.md R169). -/
theorem attemptCause_cases (bitErr : Bool) (f : Frame) :
    attemptCause bitErr f = .none ∨ attemptCause bitErr f = .checksumMismatch ∨
      attemptCause bitErr f = .degenerateFrame := by
  unfold attemptCause
  cases bitErr <;> cases checksumMatches f <;> by_cases hf : f = 0#40 <;> simp [hf]

/-- How a calibration attempt ends (45_sequencer.md R153). -/
theorem calibrationAttEnd_cases (s : State) :
    (attemptCause s.bitErr s.shreg = .none ∧
      calibrationAttEnd s = complete true .none (calibrateSuccess (attemptTail s))) ∨
    (attemptCause s.bitErr s.shreg ≠ .none ∧ (s.calN + 1).val = 5 ∧
      calibrationAttEnd s =
        complete false .calibrationFallback (calibrateFallback (countCalFailure (attemptTail s)))) ∨
    (attemptCause s.bitErr s.shreg ≠ .none ∧ (s.calN + 1).val ≠ 5 ∧
      calibrationAttEnd s = goto .hs0 (countCalFailure (attemptTail s))) := by
  unfold calibrationAttEnd
  simp only []
  by_cases h : (attemptTail s).cause = .none
  · exact .inl ⟨h, if_pos h⟩
  · rw [if_neg h]
    by_cases h5 : (countCalFailure (attemptTail s)).calN.val = Config.calAttempts
    · exact .inr (.inl ⟨h, h5, if_pos h5⟩)
    · exact .inr (.inr ⟨h, h5, if_neg h5⟩)

/-- How an attempt of `ACQUIRE` or `READ` ends (45_sequencer.md R153). -/
theorem acquireAttEnd_cases (m : BitVec 8) (success : State → State) (s : State) :
    (attemptCause s.bitErr s.shreg = .none ∧ acquireAttEnd m success s = success (attemptTail s)) ∨
    (attemptCause s.bitErr s.shreg ≠ .none ∧ budgetExhausted m (countAttempt m s) = true ∧
      acquireAttEnd m success s =
        complete false (attemptCause s.bitErr s.shreg) (countAttempt m (attemptTail s))) ∨
    (attemptCause s.bitErr s.shreg ≠ .none ∧ budgetExhausted m (countAttempt m s) = false ∧
      acquireAttEnd m success s = goto .retry (countAttempt m (attemptTail s))) := by
  unfold acquireAttEnd
  simp only []
  by_cases h : (attemptTail s).cause = .none
  · exact .inl ⟨h, if_pos h⟩
  · rw [if_neg h]
    by_cases hb : budgetExhausted m (countAttempt m (attemptTail s)) = true
    · exact .inr (.inl ⟨h, hb, if_pos hb⟩)
    · exact .inr (.inr ⟨h, Bool.eq_false_iff.mpr hb, if_neg hb⟩)

/-- How the `FILTER` step ends (44_noise_filter.md R138). -/
theorem filterStep_cases (s : State) :
    ((filterReading s).status.tAcc = true ∧ (filterReading s).status.hAcc = true ∧
      filterStep s = complete true .none (filterReading s)) ∨
    (¬ ((filterReading s).status.tAcc = true ∧ (filterReading s).status.hAcc = true) ∧
      filterStep s = complete false .deviationReject (filterReading s)) := by
  unfold filterStep
  simp only []
  by_cases h : (filterReading s).status.tAcc = true ∧ (filterReading s).status.hAcc = true
  · exact .inl ⟨h.1, h.2, if_pos h⟩
  · exact .inr ⟨h, if_neg h⟩

/-! ### The host register space -/

/-- A command write is taken or dropped (45_sequencer.md R146). -/
theorem memWrite_cases (addr : Addr) (w : Word) (s : State) :
    (addr ≠ 0x00 ∧ memWrite addr w s = s) ∨
    (addr = 0x00 ∧ s.status.busy = true ∧ memWrite addr w s = { s with status := { s.status with overrun := true } }) ∨
    (addr = 0x00 ∧ s.status.busy = false ∧ memWrite addr w s = latchCommand w s) := by
  unfold memWrite commandWrite
  by_cases h : addr = 0x00
  · cases hb : s.status.busy
    · exact .inr (.inr ⟨h, rfl, by simp [h]⟩)
    · exact .inr (.inl ⟨h, rfl, by simp [h]⟩)
  · exact .inl ⟨h, if_neg h⟩

end Sys2Proof.Machine
end

