-- ==== Sys2Proof/Laws/Run.lean ====
section
/-! SUPPORT. Runs: composing them, and what one step is while a command runs. -/

namespace Sys2Proof

open Sys2Proof.Machine

theorem run_zero (s : State) : core.run 0 s = .next s := rfl

theorem run_succ (n : Nat) {s t : State} (h : step s = .next t) : core.run (n + 1) s = core.run n t := by
  have h' : core.step s = .next t := h
  simp only [Host.Core.run]
  rw [h']

/-- A run that goes on goes on step by step. -/
theorem run_succ_cases {n : Nat} {s t : State} (h : core.run (n + 1) s = .next t) :
    ∃ u, step s = .next u ∧ core.run n u = .next t := by
  cases hs : step s with
  | next u => exact ⟨u, rfl, (run_succ n hs).symm.trans h⟩
  | fault r =>
    have h' : core.step s = .fault r := hs
    simp only [Host.Core.run] at h; rw [h'] at h; cases h
  | refused r =>
    have h' : core.step s = .refused r := hs
    simp only [Host.Core.run] at h; rw [h'] at h; cases h

theorem run_add (m n : Nat) {s t : State} (h : core.run m s = .next t) : core.run (m + n) s = core.run n t := by
  induction m generalizing s with
  | zero => cases h; rw [Nat.zero_add]
  | succ m ih =>
    obtain ⟨u, hs, hu⟩ := run_succ_cases h
    rw [show m + 1 + n = (m + n) + 1 by omega, run_succ _ hs]
    exact ih hu

theorem Reaches.refl (s : State) : Reaches s s := ⟨0, rfl⟩

theorem Reaches.trans {a b c : State} (h : Reaches a b) (k : Reaches b c) : Reaches a c := by
  obtain ⟨m, hm⟩ := h
  obtain ⟨n, hn⟩ := k
  exact ⟨m + n, (run_add m n hm).trans hn⟩

theorem Reaches.step {a b : State} (h : Machine.step a = .next b) : Reaches a b := ⟨1, run_succ 0 h⟩

/-- What every step keeps holds after every run. -/
theorem Reaches.induct {P : State → Prop} (hstep : ∀ s t, P s → Machine.step s = .next t → P t) {a b : State}
    (h : Reaches a b) (ha : P a) : P b := by
  obtain ⟨n, hn⟩ := h
  induction n generalizing a with
  | zero => cases hn; exact ha
  | succ n ih =>
    obtain ⟨u, hs, hu⟩ := run_succ_cases hn
    exact ih (hstep _ _ ha hs) hu

theorem passTurn_nil {s : State} (h : s.turns = []) : passTurn s = s := by
  cases s; simp_all [passTurn]

theorem step_running {s : State} (h : Undisturbed s) (hq : s.seq ≠ .idle) : step s = sequencerStep s := by
  simp [step, machineStep, nextAgent, h.1, h.2, hq, passTurn_nil h.1]

/-- While the word in `cmd_w` is a command, the sequencer's step is that command's. -/
theorem sequencerStep_exec {i : Instr} {s : State} (hw : decode s.cmdW = .ok i) (hq : s.seq ≠ .idle) :
    sequencerStep s = exec i s := by
  cases hs : s.seq <;> simp_all [sequencerStep]

theorem step_exec {i : Instr} {s : State} (h : Undisturbed s) (hw : decode s.cmdW = .ok i) (hq : s.seq ≠ .idle) :
    step s = exec i s := by
  rw [step_running h hq, sequencerStep_exec hw hq]

/-! ### One step of a command with an attempt, control state by control state (45_sequencer.md R150) -/

section LineSteps

variable {i : Instr} {s : State}

/-- Where the shared step answers the same whatever the command does in its own four control states, it is the machine's. -/
theorem step_line (hi : ∀ q p, i ≠ .setdev q p) (ht : Undisturbed s) (hw : decode s.cmdW = .ok i) (h0 : s.seq ≠ .idle)
    {t : State} (hs : ∀ a b c d, controlStep (calibrates i) s a b c d = .next t) : step s = .next t := by
  have own {q : Seq} (hq : q = .dispatch ∨ q = .attEnd ∨ q = .retry ∨ q = .filter) : s.seq ≠ q := by
    intro h
    have h1 := hs (.fault .strayControl) (.fault .strayControl) (.fault .strayControl) (.fault .strayControl)
    rcases hq with rfl | rfl | rfl | rfl <;> simp [controlStep, h] at h1
  rw [step_exec ht hw h0, ← hs (.next s) (.next s) (.next s) (.next s)]
  exact exec_line hi (own (by simp)) (own (by simp)) (own (by simp)) (own (by simp)) _ _ _ _

theorem step_hs0 (hi : ∀ q p, i ≠ .setdev q p) (ht : Undisturbed s) (hw : decode s.cmdW = .ok i)
    (hq : s.seq = .hs0) : step s = .next (goto .hs1 (portSetMode .output (clearAttempt s))) :=
  step_line hi ht hw (by simp [hq]) fun a b c d => by simp only [controlStep, hq]

theorem step_hs1 (hi : ∀ q p, i ≠ .setdev q p) (ht : Undisturbed s) (hw : decode s.cmdW = .ok i)
    (hq : s.seq = .hs1) : step s = .next (goto .hs2 (portWrite .low s)) :=
  step_line hi ht hw (by simp [hq]) fun a b c d => by simp only [controlStep, hq]

theorem step_hs2 (hi : ∀ q p, i ≠ .setdev q p) (ht : Undisturbed s) (hw : decode s.cmdW = .ok i)
    (hq : s.seq = .hs2) : step s = .next (goto .hs3 (portDelayMillis Config.startLowMs s)) :=
  step_line hi ht hw (by simp [hq]) fun a b c d => by simp only [controlStep, hq]

theorem step_hs3 (hi : ∀ q p, i ≠ .setdev q p) (ht : Undisturbed s) (hw : decode s.cmdW = .ok i)
    (hq : s.seq = .hs3) : step s = .next (goto .hs4 (portWrite .high s)) :=
  step_line hi ht hw (by simp [hq]) fun a b c d => by simp only [controlStep, hq]

theorem step_hs4 (hi : ∀ q p, i ≠ .setdev q p) (ht : Undisturbed s) (hw : decode s.cmdW = .ok i)
    (hq : s.seq = .hs4) : step s = .next (goto .hs5 (portDelayMicros s.params.startHighUs s)) :=
  step_line hi ht hw (by simp [hq]) fun a b c d => by simp only [controlStep, hq]

theorem step_hs5 (hi : ∀ q p, i ≠ .setdev q p) (ht : Undisturbed s) (hw : decode s.cmdW = .ok i)
    (hq : s.seq = .hs5) : step s = .next (startPhase .ackLow (portSetMode .input s)) :=
  step_line hi ht hw (by simp [hq]) fun a b c d => by simp only [controlStep, hq]

theorem step_poll (hi : ∀ q p, i ≠ .setdev q p) (ht : Undisturbed s) (hw : decode s.cmdW = .ok i)
    (hq : s.seq = .poll) : step s = .next (pollStep s) :=
  step_line hi ht hw (by simp [hq]) fun a b c d => by simp only [controlStep, hq]

theorem step_pdelay (hi : ∀ q p, i ≠ .setdev q p) (ht : Undisturbed s) (hw : decode s.cmdW = .ok i)
    (hq : s.seq = .pdelay) : step s = .next (pdelayStep s) :=
  step_line hi ht hw (by simp [hq]) fun a b c d => by simp only [controlStep, hq]

theorem step_phaseEnd (hi : ∀ q p, i ≠ .setdev q p) (ht : Undisturbed s) (hw : decode s.cmdW = .ok i)
    (hq : s.seq = .phaseEnd) : step s = .next (phaseEndStep (calibrates i) s) :=
  step_line hi ht hw (by simp [hq]) fun a b c d => by simp only [controlStep, hq]

end LineSteps

/-- What the sequencer's step can be. -/
theorem sequencerStep_cases {s t : State} (h : sequencerStep s = .next t) :
    (s.seq = .idle ∧ t = s) ∨ (s.seq ≠ .idle ∧ ∃ i, decode s.cmdW = .ok i ∧ exec i s = .next t) ∨
    (s.seq = .dispatch ∧ (∃ e, decode s.cmdW = .error e) ∧ t = raise .illegalCommand s) := by
  cases hw : decode s.cmdW with
  | ok i =>
    by_cases hq : s.seq = .idle
    · exact .inl ⟨hq, by simp_all [sequencerStep]⟩
    · exact .inr (.inl ⟨hq, i, rfl, by rw [← h, sequencerStep_exec hw hq]⟩)
  | error e => cases hs : s.seq <;> simp_all [sequencerStep]

/-- No host operation drives the reset input. -/
@[simp] theorem hostStep_resetAsserted (s : State) : (hostStep s).resetAsserted = s.resetAsserted := by
  unfold hostStep
  split
  · rfl
  · rfl
  · unfold memWrite commandWrite; split <;> [split; skip] <;> rfl
  · rfl

/-- What one step of the machine can be: the turn of an agent, or of the reset input, while the reset input is released,
or any turn while it is asserted. -/
theorem step_cases {s t : State} (h : step s = .next t) :
    (nextAgent s = .host ∧ s.resetAsserted = false ∧ t = hostStep (passTurn s)) ∨
    (nextAgent s = .host ∧ s.resetAsserted = true ∧ t = hardReset (hostStep (passTurn s))) ∨
    (nextAgent s = .sequencer ∧ s.resetAsserted = false ∧ sequencerStep (passTurn s) = .next t) ∨
    (nextAgent s = .sequencer ∧ s.resetAsserted = true ∧ t = hardReset (passTurn s)) ∨
    ∃ b, nextAgent s = .resetInput b ∧ t = setResetInput b (passTurn s) := by
  cases ha : nextAgent s <;> cases hr : s.resetAsserted <;> simp [step, machineStep, holdReset, ha, hr] at h <;>
    simp [h]

/-- What one host operation can be. -/
theorem hostStep_cases (s : State) :
    hostStep s = s ∨ (∃ addr ops, hostStep s = memRead addr { s with hostOps := ops }) ∨
    ∃ addr w ops, hostStep s = memWrite addr w { s with hostOps := ops } := by
  cases hs : s.hostOps with
  | nil => exact .inl (by simp [hostStep, hs])
  | cons op rest =>
    cases op with
    | read addr => exact .inr (.inl ⟨addr, rest, by simp [hostStep, hs]⟩)
    | write addr w => exact .inr (.inr ⟨addr, w, rest, by simp [hostStep, hs]⟩)
    | wait => exact .inr (.inl ⟨0x01, _, by simp [hostStep, hs]; rfl⟩)

end Sys2Proof
end

