-- ==== Sys2Proof/Laws/Host.lean ====
section
/-! SUPPORT. The host register space: the words of the packed registers, the addresses of the buffer slots, and when two states answer the same word. -/

namespace Sys2Proof.Machine

theorem statWord_toNat (f : Filter) : f.statWord.toNat = f.wr.val + 256 * f.fill.val := by
  have h1 := f.wr.isLt
  have h2 := f.fill.isLt
  simp only [Filter.statWord, BitVec.toNat_append, BitVec.toNat_ofNat]
  rw [← Nat.shiftLeft_add_eq_or_of_lt (by omega), ← Nat.shiftLeft_add_eq_or_of_lt (by omega)]
  simp only [Nat.shiftLeft_eq]
  omega

theorem cfgWord_toNat (s : State) :
    (cfgWord s).toNat = s.cap.val + (match s.variant with | .a => 0 | .b => 256) := by
  unfold cfgWord
  generalize s.cap = c
  cases s.variant <;> revert c <;> decide

theorem slotOf_t (i : Fin 16) : slotOf (0x10 + BitVec.ofNat 6 i.val) = i := by revert i; decide
theorem slotOf_h (i : Fin 16) : slotOf (0x20 + BitVec.ofNat 6 i.val) = i := by revert i; decide
theorem slotAddr_t (i : Fin 16) : (0x10 + BitVec.ofNat 6 i.val : Addr).toNat = 16 + i.val := by revert i; decide
theorem slotAddr_h (i : Fin 16) : (0x20 + BitVec.ofNat 6 i.val : Addr).toNat = 32 + i.val := by revert i; decide

/-- An address is below the buffers, above them, or one slot's. -/
theorem addr_cases (a : Addr) : a.toNat < 16 ∨ 48 ≤ a.toNat ∨ (∃ i : Fin 16, a = 0x10 + BitVec.ofNat 6 i.val) ∨
    ∃ i : Fin 16, a = 0x20 + BitVec.ofNat 6 i.val := by
  revert a; decide

/-- Two states with the same registers behind an address answer the same word there (20_memory.md R41). -/
theorem regWord_congr {s t : State} {addr : Addr} (h1 : addr = 0x01 → t.status = s.status)
    (h2 : addr = 0x02 → t.variant = s.variant ∧ t.cap = s.cap) (h3 : addr = 0x03 → t.threshold = s.threshold)
    (h4 : addr = 0x04 → t.timeout = s.timeout) (h5 : addr = 0x05 ∨ addr = 0x06 → t.frame = s.frame)
    (h7 : addr = 0x07 → t.rawT = s.rawT) (h8 : addr = 0x08 → t.rawH = s.rawH)
    (h9 : addr = 0x09 → t.t.last = s.t.last) (h10 : addr = 0x0A → t.h.last = s.h.last)
    (h11 : addr = 0x0B → t.t.dev = s.t.dev) (h12 : addr = 0x0C → t.h.dev = s.h.dev)
    (h13 : addr = 0x0D → t.t.wr = s.t.wr ∧ t.t.fill = s.t.fill)
    (h14 : addr = 0x0E → t.h.wr = s.h.wr ∧ t.h.fill = s.h.fill)
    (h15 : 0x10 ≤ addr.toNat → addr.toNat < 0x30 → t.t.buf = s.t.buf ∧ t.h.buf = s.h.buf) :
    regWord t addr = regWord s addr := by
  have key : ∀ n : Nat, n < 64 → addr.toNat = n → addr = BitVec.ofNat 6 n := by
    intro n _ h; apply BitVec.eq_of_toNat_eq; simp [h]; omega
  unfold regWord
  split
  all_goals first
    | (rename_i h; have e := key _ (by decide) h; simp_all [cfgWord, Filter.statWord])
    | skip
  split
  · rename_i h; rw [(h15 (by omega) (by omega)).1]
  · split
    · rename_i h; rw [(h15 (by omega) (by omega)).2]
    · rfl

/-- What one host operation leaves while a command runs: all but the operations left, the answers, the free draws and
`OVERRUN`. -/
theorem hostStep_busy (s : State) (h : s.status.busy = true) :
    ∃ ops answers draws overrun, hostStep s = { s with
      hostOps := ops, answers := answers, draws := draws, status := { s.status with overrun := overrun } } := by
  rcases hostStep_cases s with e | ⟨a, ops, e⟩ | ⟨a, w, ops, e⟩
  · exact ⟨_, _, _, _, e⟩
  · exact ⟨_, _, _, _, e⟩
  · rw [e]
    rcases memWrite_cases a w { s with hostOps := ops } with ⟨_, e⟩ | ⟨_, _, e⟩ | ⟨_, hb, _⟩
    · exact ⟨_, _, _, _, e⟩
    · exact ⟨_, _, _, _, e⟩
    · simp [h] at hb

end Sys2Proof.Machine
end

