-- ==== Sys2Proof/Laws/Line.lean ====
section
/-! SUPPORT. What driving the line leaves unchanged: one step of the sequencer, WaitWhile, and an attempt as a procedure. -/

namespace Sys2Proof.Machine

/-- The state without what a step that drives the line may write: the control state, the port, and the attempt's
accumulators. -/
def lineErased (s : State) : State :=
  { s with
    seq := .idle
    bitIdx := 0
    bitErr := false
    sumLow := 0
    maxHigh := 0
    count := 0
    loCnt := 0
    phase := .ackLow
    shreg := 0
    dqOe := false
    dqOut := .high
    trace := []
    script := [] }

/-- The state without what an attempt and completing with an error may write. -/
def attemptErased (s : State) : State :=
  { lineErased s with
    frame := 0
    threshold := 0
    timeout := 0
    calN := 0
    attN := 0
    cause := .none
    status := { s.status with
      busy := false, done := false, ok := false, calOk := false, frameOk := false, err := .none } }

/-- Nothing but what driving the line writes is different. -/
def SameButLine (x y : State) : Prop := lineErased x = lineErased y

/-- Nothing but what an attempt, or completing with an error, writes is different. -/
def SameOutside (x y : State) : Prop := attemptErased x = attemptErased y

theorem SameButLine.refl (x : State) : SameButLine x x := rfl

theorem SameButLine.trans {x y z : State} (h : SameButLine x y) (k : SameButLine y z) : SameButLine x z := Eq.trans h k

theorem SameOutside.trans {x y z : State} (h : SameOutside x y) (k : SameOutside y z) : SameOutside x z := Eq.trans h k

theorem SameButLine.toSameOutside {x y : State} (h : SameButLine x y) : SameOutside x y :=
  congrArg (a₁ := lineErased x) (a₂ := lineErased y) attemptErased h

/-- Whatever a function reads that is blind to what was erased is the same; so each register not erased. -/
theorem SameButLine.congr {α : Type} {x y : State} (h : SameButLine x y) (f : State → α)
    (blind : ∀ s, f (lineErased s) = f s) : f x = f y :=
  (blind x).symm.trans ((congrArg (a₁ := lineErased x) f h).trans (blind y))

theorem SameOutside.congr {α : Type} {x y : State} (h : SameOutside x y) (f : State → α)
    (blind : ∀ s, f (attemptErased s) = f s) : f x = f y :=
  (blind x).symm.trans ((congrArg (a₁ := attemptErased x) f h).trans (blind y))

theorem SameButLine.attN {x y : State} (h : SameButLine x y) : x.attN = y.attN := h.congr State.attN fun _ => rfl
theorem SameButLine.calN {x y : State} (h : SameButLine x y) : x.calN = y.calN := h.congr State.calN fun _ => rfl
theorem SameButLine.frame {x y : State} (h : SameButLine x y) : x.frame = y.frame := h.congr State.frame fun _ => rfl
theorem SameButLine.status {x y : State} (h : SameButLine x y) : x.status = y.status := h.congr State.status fun _ => rfl
theorem SameButLine.threshold {x y : State} (h : SameButLine x y) : x.threshold = y.threshold :=
  h.congr State.threshold fun _ => rfl
theorem SameButLine.timeout {x y : State} (h : SameButLine x y) : x.timeout = y.timeout :=
  h.congr State.timeout fun _ => rfl
theorem SameOutside.t {x y : State} (h : SameOutside x y) : x.t = y.t := h.congr State.t fun _ => rfl
theorem SameOutside.h {x y : State} (h : SameOutside x y) : x.h = y.h := h.congr State.h fun _ => rfl
theorem SameOutside.cmdW {x y : State} (h : SameOutside x y) : x.cmdW = y.cmdW := h.congr State.cmdW fun _ => rfl
theorem SameOutside.params {x y : State} (h : SameOutside x y) : x.params = y.params := h.congr State.params fun _ => rfl

/-- Completing with an error leaves everything but the result flags and the control state. -/
theorem sameOutside_complete (ok : Bool) (err : ErrorCode) (s : State) : SameOutside (complete ok err s) s := rfl

theorem sameOutside_attemptTail (s : State) : SameOutside (attemptTail s) s := rfl

theorem sameButLine_goto (q : Seq) (s : State) : SameButLine (goto q s) s := rfl

theorem sameButLine_portRead (s : State) : SameButLine (portRead s) s := rfl

theorem sameButLine_countPoll (s : State) : SameButLine (countPoll s) s := rfl

theorem sameButLine_startPhase (p : Phase) (s : State) : SameButLine (startPhase p s) s := rfl

theorem sameButLine_recordBit (cal : Bool) (s : State) : SameButLine (recordBit cal s) s := rfl

theorem sameButLine_saveLow (s : State) : SameButLine (saveLow s) s := rfl

theorem sameButLine_setBitIdx (k : Fin 40) (s : State) : SameButLine (setBitIdx k s) s := rfl

theorem sameButLine_pollStep (s : State) : SameButLine (pollStep s) s := by
  rw [pollStep_eq]
  split
  · exact (sameButLine_goto _ _).trans ((sameButLine_countPoll _).trans (sameButLine_portRead s))
  · exact (sameButLine_goto _ _).trans (sameButLine_portRead s)

theorem sameButLine_phaseEndStep (cal : Bool) (s : State) : SameButLine (phaseEndStep cal s) s := by
  unfold phaseEndStep
  split
  · exact sameButLine_startPhase _ _
  · exact (sameButLine_startPhase _ _).trans (sameButLine_setBitIdx _ s)
  · exact (sameButLine_startPhase _ _).trans (sameButLine_saveLow s)
  · split
    · exact (sameButLine_startPhase _ _).trans ((sameButLine_setBitIdx _ _).trans (sameButLine_recordBit cal s))
    · exact (sameButLine_goto _ _).trans (sameButLine_recordBit cal s)

/-- The sequencer's step of a command is the command's own in four control states, else a step that drives the line. -/
theorem controlStep_line_cases {cal : Bool} {s t : State} {a b c d : Out} (h : controlStep cal s a b c d = .next t) :
    (s.seq = .dispatch ∧ a = .next t) ∨ (s.seq = .attEnd ∧ b = .next t) ∨ (s.seq = .retry ∧ c = .next t) ∨
    (s.seq = .filter ∧ d = .next t) ∨ SameButLine t s := by
  unfold controlStep at h
  split at h <;> rename_i hq
  case h_2 | h_12 | h_13 | h_14 => simp [hq, h]
  all_goals
    injection h with h
    subst h
    right; right; right; right
    first
      | rfl
      | exact sameButLine_pollStep s
      | exact sameButLine_phaseEndStep cal s

/-! ### The procedures of 40_line_and_pulse_counter.md -/

theorem lineLevel_scripted {s : State} {l : Level} {rest : List Level} (h : s.script = l :: rest) : lineLevel s = l := by
  simp [lineLevel, h]

/-- `WaitWhile` writes the count, and consumes and records what it reads; nothing else. -/
theorem waitLoop_frame (l : Level) (n : Nat) (b : State) :
    ∃ count script trace, waitLoop l n b = { b with count := count, script := script, trace := trace } := by
  induction n generalizing b with
  | zero => exact ⟨b.count, b.script, b.trace, rfl⟩
  | succ n ih =>
    unfold waitLoop
    split
    · exact ⟨b.count, _, _, rfl⟩
    · obtain ⟨c, sc, tr, h⟩ := ih (portDelayMicros b.params.pollUs (countPoll (portRead b)))
      exact ⟨c, sc, tr, h.trans (by simp only [portDelayMicros, countPoll, portRead, emit])⟩

theorem waitLoop_count_le (l : Level) (n : Nat) (b : State) (h : b.count.toNat + n ≤ 65535) :
    (waitLoop l n b).count.toNat ≤ b.count.toNat + n := by
  induction n generalizing b with
  | zero => simp [waitLoop]
  | succ n ih =>
    unfold waitLoop
    split
    · simp
    · have hc : (b.count + 1).toNat = b.count.toNat + 1 := by simp [BitVec.toNat_add]; omega
      refine (ih _ ?_).trans ?_ <;> simp only [portDelayMicros_count, countPoll_count, portRead_count, hc] <;> omega

theorem sameButLine_waitWhile (l : Level) (s : State) : SameButLine (waitWhile l s) s := by
  obtain ⟨c, sc, tr, h⟩ := waitLoop_frame l s.timeout.toNat (clearCount s)
  unfold waitWhile
  rw [h]
  exact rfl

theorem sameButLine_portSetMode (m : PortMode) (s : State) : SameButLine (portSetMode m s) s := rfl

theorem sameButLine_portWrite (l : Level) (s : State) : SameButLine (portWrite l s) s := rfl

theorem sameButLine_portDelayMillis (n : Nat) (s : State) : SameButLine (portDelayMillis n s) s := rfl

theorem sameButLine_portDelayMicros (n : Nat) (s : State) : SameButLine (portDelayMicros n s) s := rfl

theorem sameButLine_handshake (s : State) : SameButLine (handshake s) s :=
  (sameButLine_portSetMode _ _).trans ((sameButLine_portDelayMicros _ _).trans ((sameButLine_portWrite _ _).trans
    ((sameButLine_portDelayMillis _ _).trans ((sameButLine_portWrite _ _).trans (sameButLine_portSetMode _ s)))))

theorem sameButLine_ackSkip (s : State) : SameButLine (ackSkip s) s :=
  (sameButLine_waitWhile _ _).trans (sameButLine_waitWhile _ _)

theorem sameButLine_bitRead (s : State) : SameButLine (bitRead s) s :=
  (sameButLine_waitWhile _ _).trans ((sameButLine_saveLow _).trans (sameButLine_waitWhile _ _))

theorem sameButLine_readBits (cal : Bool) (n : Nat) (s : State) : SameButLine (readBits cal n s) s := by
  induction n generalizing s with
  | zero => exact SameButLine.refl s
  | succ n ih => exact (ih _).trans ((sameButLine_recordBit cal _).trans (sameButLine_bitRead s))

theorem sameButLine_clearAttempt (s : State) : SameButLine (clearAttempt s) s :=
  rfl

theorem sameButLine_attemptBits (cal : Bool) (s : State) : SameButLine (attemptBits cal s) s :=
  (sameButLine_readBits cal 40 _).trans ((sameButLine_ackSkip _).trans ((sameButLine_handshake _).trans
    (sameButLine_clearAttempt s)))

/-- An attempt changes only the frame, its cause, `FRAME_OK`, the accumulators and the port (R88). -/
theorem sameOutside_attempt (cal : Bool) (s : State) : SameOutside (attempt cal s) s :=
  (sameOutside_attemptTail _).trans (sameButLine_attemptBits cal s).toSameOutside

/-- A command that passes the checks of 30_encoding.md R66 runs its own procedure. -/
theorem checkedProcedure_pass {i : Instr} {s : State} (go : Option State) (h : i.wellFormed = true)
    (hi : needsInit i = true → s.status.inited = true) : checkedProcedure i s go = go := by
  unfold checkedProcedure
  rw [if_neg (by simp [h]), if_neg]
  rintro ⟨hn, h0⟩
  simp [hi hn] at h0

theorem attempt_eq (cal : Bool) (s : State) : attempt cal s = attemptTail (attemptBits cal s) := rfl

end Sys2Proof.Machine
end

