-- ==== Sys2Proof/Laws/PerInstr.lean ====
section
/-! SUPPORT. For every command: its encoded word has the opcode and the must-be-zero bits of its row of the opcode table (30_encoding.md R61 to R64). -/

namespace Sys2Proof.Laws.EncodedWordFitsItsRow

/-- The word of the command has the mask and match of its row. -/
def Statement : Instr → Prop := fun i => i.row.fits (encode i) = true

/-- Two words are equal when all 32 bits are. -/
theorem word_ext {w v : Word} (h : ∀ k, k < 32 → w.getLsbD k = v.getLsbD k) : w = v :=
  BitVec.eq_of_getLsbD_eq (fun k hk => h k hk)

theorem init (variant : Variant) (cap : BitVec 8) : Statement (.init variant cap) := by
  simp only [Statement, Instr.row, Row.fits, rowInit, encode, beq_iff_eq]
  apply word_ext
  intro k hk
  simp only [BitVec.getLsbD_and, BitVec.getLsbD_append]
  interval_cases k <;> simp

theorem calibrate : Statement .calibrate := by
  unfold Statement
  decide

theorem acquire (maxatt : BitVec 8) (retryMs : BitVec 16) : Statement (.acquire maxatt retryMs) := by
  simp only [Statement, Instr.row, Row.fits, rowAcquire, encode, beq_iff_eq]
  apply word_ext
  intro k hk
  simp only [BitVec.getLsbD_and, BitVec.getLsbD_append]
  interval_cases k <;> simp

theorem read (maxatt : BitVec 8) (retryMs : BitVec 16) : Statement (.read maxatt retryMs) := by
  simp only [Statement, Instr.row, Row.fits, rowRead, encode, beq_iff_eq]
  apply word_ext
  intro k hk
  simp only [BitVec.getLsbD_and, BitVec.getLsbD_append]
  interval_cases k <;> simp

theorem setdev (q : Quantity) (permille : BitVec 16) : Statement (.setdev q permille) := by
  simp only [Statement, Instr.row, Row.fits, rowSetdev, encode, beq_iff_eq]
  apply word_ext
  intro k hk
  simp only [BitVec.getLsbD_and, BitVec.getLsbD_append]
  interval_cases k <;> simp

end Sys2Proof.Laws.EncodedWordFitsItsRow
end

