-- ==== Sys2Proof/Tests/Slice0.lean ====
section
/-! SUPPORT. Tests of the model against words and vectors written out from the spec (95_test_vectors.md, 30_encoding.md), and for every obligation with hypotheses a state and operands that meet them. -/

namespace Sys2Proof.Tests

open Sys2Proof Sys2Proof.Machine

/-- The state a step leads to, if it goes on. -/
def next? (o : Out) : Option State :=
  match o with
  | .next t => some t
  | .fault _ | .refused _ => none

/-- The parameters of the vectors (95_test_vectors.md section 2), line HIGH for ever, block idle after reset. -/
def calm : State :=
  { State.reset with params := ⟨1000, 30, 1, .threshold⟩, timeout := 1000, tail := some .high }

/-- `calm`, initialised, with the command word `w` just taken. -/
def taken (w : Word) : State := latchCommand w { calm with status := { Status.reset with inited := true } }

/-- `taken w`, in control state `q`. -/
def midway (w : Word) (q : Seq) : State := goto q (taken w)

/-! ### WellFormed refuses each ill-formed operand (30_encoding.md R66 (c)) -/

theorem test_wellFormed_init : (Instr.init .a 16).wellFormed = true ∧ (Instr.init .a 17).wellFormed = false := by decide
theorem test_wellFormed_acquire : (Instr.acquire 127 0).wellFormed = true ∧
    (Instr.acquire (BitVec.ofInt 8 (-128)) 0).wellFormed = false := by decide
theorem test_wellFormed_read : (Instr.read 0 0).wellFormed = true ∧
    (Instr.read (BitVec.ofInt 8 (-1)) 0).wellFormed = false := by decide

/-! ### Decoding, words written out bit by bit from R61 to R64 -/

/-- OP 0001, 19 zeros, VARIANT 1, CAP 00010000. -/
theorem test_decode_init : decode 0b0001_0000000000000000000_1_00010000 = .ok (.init .b 16) := by decide
/-- OP 0010, 28 zeros. -/
theorem test_decode_calibrate : decode 0b0010_0000000000000000000000000000 = .ok .calibrate := by decide
/-- OP 0011, 4 zeros, MAXATT 00000011, RETRY_MS 0000000011111010 (V30: `ACQUIRE 3, 250`). -/
theorem test_decode_acquire : decode 0b0011_0000_00000011_0000000011111010 = .ok (.acquire 3 250) := by decide
/-- OP 0100, 4 zeros, MAXATT 11111111, RETRY_MS 0000000000000001. -/
theorem test_decode_read : decode 0b0100_0000_11111111_0000000000000001 = .ok (.read (BitVec.ofInt 8 (-1)) 1) := by
  decide
/-- OP 0101, 11 zeros, Q 1, PERMILLE 1111111111111111 (V104). -/
theorem test_decode_setdev : decode 0b0101_00000000000_1_1111111111111111 = .ok (.setdev .humidity 65535) := by decide

/-- V92, V93 and the last opcode: check (a). -/
theorem test_decode_unassigned : decode 0x00000000 = .error .unassignedOpcode ∧
    decode 0x60000000 = .error .unassignedOpcode ∧ decode 0xFFFFFFFF = .error .unassignedOpcode := by decide
/-- V94, V96, V97, V98 and `ACQUIRE` with bit 27: check (b). -/
theorem test_decode_mustBeZero : decode 0x20000001 = .error .mustBeZero ∧ decode 0x10000200 = .error .mustBeZero ∧
    decode 0x50020000 = .error .mustBeZero ∧ decode 0x41010000 = .error .mustBeZero ∧
    decode 0x38000000 = .error .mustBeZero := by decide
theorem test_decodeTableWord : decodeTableWord 32 0x10000107 = some (.init .b 7) ∧ decodeTableWord 32 0 = none := by
  decide

/-! ### STATUS after the command checks (95_test_vectors.md section 3.7) -/

/-- V90: `READ 1, 0` before `INIT`: NotInitialised. -/
theorem test_read_not_initialised :
    (next? (exec (.read 1 0) (latchCommand 0x40010000 calm))).map (fun t => t.status.toWord) = some 0x00003002 := by
  decide
/-- V101: `ACQUIRE −128, 0` is InvalidArgument; the calibration flags stay. -/
theorem test_acquire_negative :
    (next? (exec (.acquire 128 0) (latchCommand 0x30800000 { calm with
      status := { Status.reset with inited := true, calOk := true, frameOk := true } }))).map
        (fun t => t.status.toWord) = some 0x0000203A := by
  decide
/-- V95: `INIT A, 17` is InvalidArgument; `INITED` stays 0. -/
theorem test_init_cap_17 :
    (next? (exec (.init .a 17) (latchCommand 0x10000011 calm))).map (fun t => t.status.toWord) = some 0x00002002 := by
  decide
/-- V103: `SETDEV T, 100` writes `DEV_T`, not `DEV_H`. -/
theorem test_setdev_temperature :
    (next? (exec (.setdev .temperature 100) (taken 0x50000064))).map
      (fun t => (t.t.dev, t.h.dev, t.status.toWord)) = some (100, 200, 0x0000000E) := by
  decide

/-! ### One step of each command -/

/-- R104: `INIT B, 5` before its first attempt; the old slots stay. -/
theorem test_init_assigns :
    (next? (exec (.init .b 5) { taken 0x10000105 with
      frame := 7, t := { Filter.reset with buf := Vector.replicate 16 9, wr := 3, fill := 4 } })).map
        (fun t => (cfgWord t, t.frame, t.t.statWord, t.t.buf[2], t.seq)) = some (0x105, 0, 0, 9, .hs0) := by
  decide
/-- R151: a slot of counts (19, 29) against `THRESHOLD = 16` shifts in a 1. -/
theorem test_calibrate_phase_end :
    (next? (exec .calibrate { midway 0x20000000 .phaseEnd with
      phase := .bitHigh, bitIdx := 38, loCnt := 19, count := 29, shreg := 5 })).map
        (fun t => (t.shreg, t.sumLow, t.maxHigh, t.bitIdx, t.seq)) = some (11, 19, 29, 39, .poll) := by
  decide
/-- V21: 40 slots of sum 760 and greatest HIGH count 29 give `THRESHOLD = 19`, `TIMEOUT = 36`. -/
theorem test_calibrate_success :
    (next? (exec .calibrate { midway 0x20000000 .attEnd with
      shreg := 0x028C015FEE, sumLow := 760, maxHigh := 29 })).map
        (fun t => (t.threshold, t.timeout, t.status.toWord)) = some (19, 36, 0x0000003E) := by
  decide
/-- V33: `ACQUIRE 1, 0` on a wrong checksum completes with ChecksumMismatch (`CAL_OK` is 0 here). -/
theorem test_acquire_exhausted :
    (next? (exec (.acquire 1 0) { midway 0x30010000 .attEnd with shreg := 0x028C015FEF })).map
      (fun t => (t.attN, t.frame, t.status.toWord)) = some (1, 0x028C015FEF, 0x0000400A) := by
  decide
/-- V32: `ACQUIRE 0, 5` never counts, and goes on to the delay. -/
theorem test_acquire_forever :
    (next? (exec (.acquire 0 5) { midway 0x30000005 .attEnd with shreg := 0x028C015FEF })).map
      (fun t => (t.attN, t.status.frameOk, t.seq)) = some (0, false, .retry) := by
  decide
/-- P2 step 5: 30000 is rejected, 57000 accepted, both inserted (`CAL_OK` and `FRAME_OK` are 0 here). -/
theorem test_read_filter :
    (next? (exec (.read 1 0) { midway 0x40010000 .filter with
      frame := 0x39001E0057, cap := 3
      t := { Filter.reset with buf := (Vector.replicate 16 0).set 0 24500 |>.set 1 24000 |>.set 2 25000, fill := 3 }
      h := { Filter.reset with
        buf := (Vector.replicate 16 0).set 0 55000 |>.set 1 56000 |>.set 2 54000, fill := 3 } })).map
        (fun t => (t.t.buf[0], t.h.buf[0], t.t.statWord, t.h.last, t.status.toWord)) =
          some (30000, 57000, 0x0301, 57000, 0x0000608A) := by
  decide
/-- P5 step 2: variant B below zero, capacity 1. -/
theorem test_read_variant_b :
    (next? (exec (.read 1 0) { midway 0x40010000 .filter with frame := 0x01F48033A8, variant := .b, cap := 1 })).map
      (fun t => (t.rawT, t.rawH, t.t.last, t.status.ok)) = some (0xFFFFEC14, 50000, 0xFFFFEC14, true) := by
  decide

/-! ### Line, decoder and filter -/

/-- V1 and V4: three matching samples and another; four matching samples of a `TIMEOUT` of 4. -/
theorem test_waitWhile :
    (waitWhile .low { calm with timeout := 4, script := [.low, .low, .low, .high, .low] }).count = 3 ∧
    (waitWhile .low { calm with timeout := 4, script := [.low, .low, .low, .low, .high] }).count = 4 ∧
    (waitWhile .low { calm with timeout := 4, script := [.low, .low, .low, .low, .high] }).script = [.high] := by
  decide
/-- S1: the instances of the checksum property. -/
theorem test_frameValid : frameValid 0x028C015FEE = true ∧ frameValid 0x028C015FEF = false ∧ frameValid 0 = false ∧
    frameValid 0xFFFFFFFFFC = true ∧ frameValid 0x8080000000 = true ∧ frameValid 1 = false := by
  decide
/-- V20. -/
theorem test_calibration_arithmetic : calThreshold 799 = 19 ∧ calThreshold 2621400 = 65535 ∧ calTimeout 4 = 5 ∧
    calTimeout 52428 = 65535 ∧ calTimeout 52429 = 65535 := by
  decide
/-- S2. -/
theorem test_frac : frac 5 = 500 ∧ frac 23 = 230 ∧ frac 100 = 100 := by decide
/-- V40, V42, S3. -/
theorem test_decodeFrame : decodeFrame .a 0x3700180554 = (24500, 55000) ∧ decodeFrame .a 0xFF63FF6300 = (255990, 255990) ∧
    (decodeFrame .b 0x0000191000).1 = 641600 ∧ (decodeFrame .b 0x0000810000).1 = -25600 := by
  decide
/-- V60 to V62, V68, V73. -/
theorem test_within : within 24000 20000 200 = true ∧ within 24010 20000 200 = false ∧ within 24001 20000 200 = false ∧
    within (-5000) (-5000) 200 = false ∧ within 67 1 65535 = false := by
  decide
/-- S4: seven insertions into a filter of capacity 5. -/
theorem test_insert_median :
    let f := [1000, 2000, 3000, 4000, 5000, 6000, 7000].foldl (fun a x => a.insert 5 x) Filter.reset
    (f.buf.toList.take 5 = [6000, 7000, 3000, 4000, 5000] ∧ f.wr = 2 ∧ f.fill = 5) ∧ f.median 5 = 5000 := by
  decide

/-! ### The host -/

/-- V110, V111: addresses after reset; a write to `THRESHOLD` is ignored. -/
theorem test_registers : regWord calm 0x03 = 16 ∧ regWord calm 0x09 = 0xFFFE7960 ∧ regWord calm 0x0C = 200 ∧
    regWord calm 0x3F = 0 ∧ regWord (memWrite 0x03 99 calm) 0x03 = 16 := by
  decide
/-- P4 step 5: a command while busy is dropped; `STATUS` goes from 0x39 to 0x139. -/
theorem test_overrun :
    (commandWrite 0x50000000 { midway 0x40010000 .poll with
      status := { Status.reset with busy := true, inited := true, calOk := true, frameOk := true } }).status.toWord =
        0x00000139 := by
  decide
/-- A command word put in place by `withFetchWord` runs in the next step: `SETDEV T, 100` (V103). -/
theorem test_withFetchWord :
    (next? (step ((taken 0).withFetchWord 32 0x50000064))).map (fun t => (t.t.dev, t.seq)) = some (100, .idle) := by
  decide

/-- R185: a `CMD` write while the reset input is asserted leaves the block idle, with nothing latched. -/
theorem test_reset_held :
    (next? (step { calm with resetAsserted := true, turns := [.host], hostOps := [.write 0x00 0x10000000] })).map
      (fun t => (t.seq, t.status.busy, t.cmdW, t.hostOps)) = some (.idle, false, 0, []) := by
  decide
/-- R72: what the host takes from its reads. `s[2]` of the last `STATUS` read with `s[0] = 0`; byte 4 of the frame in
`FRAME_HI`; 35.1 °C (P1). -/
theorem test_results :
    acquireFrameResult { calm with
      answers := [(0x06, 0x000000EE), (0x05, 0x028C015F), (0x01, 0x0000002E), (0x01, 0x00000029)] } =
        some (true, 0x028C015FEE) ∧
    readingValue 0x0000891C = 351 / 10 ∧ readingValue 0xFFFFEC14 = -51 / 10 := by
  decide +kernel

/-! ### Every obligation's hypotheses can be met -/

/-- A line that answers a frame of zeros at once: every count is 0. -/
def quick (w : Word) : State := { taken w with timeout := 1, params := ⟨1, 30, 1, .threshold⟩ }

theorem witness_EncodeDecodeRoundTrip : decode 0x40010000 = .ok (.read 1 0) := by decide
theorem witness_StepRunsTheDecodedCommand : nextAgent (taken 0x20000000) = .sequencer ∧
    (taken 0x20000000).resetAsserted = false ∧
    (taken 0x20000000).seq ≠ .idle ∧ decode (taken 0x20000000).cmdW = .ok .calibrate ∧
    0x20000000 < 2 ^ 32 ∧ decode (BitVec.ofNat 32 0x20000000) = .ok .calibrate := by decide
theorem witness_StepTakesTheNextTurn : ({ calm with turns := [.host] } : State).turns = .host :: [] ∧
    ({ calm with turns := [.sequencer] } : State).turns = .sequencer :: [] ∧ calm.seq = .idle ∧
    calm.resetAsserted = false ∧ ({ calm with resetAsserted := true } : State).resetAsserted = true ∧
    ({ calm with turns := [.resetInput true] } : State).turns = .resetInput true :: [] ∧
    Undisturbed (taken 0) ∧ (taken 0).seq ≠ .idle ∧ Undisturbed calm := by decide
theorem witness_HostStep : calm.hostOps = [] ∧
    ({ calm with hostOps := [.read 0x3F] } : State).hostOps = .read 0x3F :: [] ∧
    ({ calm with hostOps := [.write 0x00 7, .wait] } : State).hostOps = .write 0x00 7 :: [.wait] ∧
    ({ calm with hostOps := [.wait] } : State).hostOps = .wait :: [] ∧ calm.status.busy = false ∧
    ({ taken 0 with hostOps := [.wait] } : State).hostOps = .wait :: [] ∧ (taken 0).status.busy = true := by decide
theorem witness_IllegalWordCompletes : Undisturbed (taken 0x60000000) ∧ (taken 0x60000000).seq = .dispatch ∧
    decode (taken 0x60000000).cmdW = .error .unassignedOpcode := by decide
theorem witness_OperandOutOfRangeIsRefused : (taken 0x10000011).seq = .dispatch ∧ 16 < (17 : BitVec 8).toNat ∧
    (0xFF : BitVec 8).toInt < 0 := by decide
theorem witness_CommandBeforeInitIsRefused : (latchCommand 0x40000000 calm).seq = .dispatch ∧
    (latchCommand 0x40000000 calm).status.inited = false ∧ (0 : Int) ≤ (0 : BitVec 8).toInt ∧
    (∀ v cap, Instr.read 0 0 ≠ .init v cap) ∧
    (∀ m r, Instr.read 0 0 = .acquire m r ∨ Instr.read 0 0 = .read m r → 0 ≤ m.toInt) := by
  refine ⟨by decide, by decide, by decide, by simp, ?_⟩
  intro m r h
  rcases h with h | h <;> cases h
  decide
theorem witness_InitAssigns : (taken 0x10000010).seq = .dispatch ∧ (16 : BitVec 8).toNat ≤ 16 := by decide
theorem witness_CommandsStart : (taken 0x30000000).seq = .dispatch ∧ (taken 0x30000000).status.inited = true ∧
    (0 : Int) ≤ (0 : BitVec 8).toInt := by decide
theorem witness_Setdev : (taken 0x50000000).seq = .dispatch ∧ (taken 0x50000000).status.inited = true := by decide
theorem witness_CommandWrite : (taken 0).status.busy = true ∧ calm.status.busy = false ∧ (0x3F : Addr) ≠ 0x00 := by
  decide
theorem witness_StatusReserved : (9 ≤ 9 ∧ 9 ≤ 11) ∧ 16 ≤ 16 := by decide
theorem witness_RegisterMap : 0x30 ≤ (0x30 : Addr).toNat ∧ (0x01 : Addr) ≠ 0x00 := by decide
theorem witness_ReadAnswers : ((taken 0).status.busy = true ∧ (0x03 : Addr) ≠ 0x01) ∧
    ((0x1F : Addr) = 0x10 + BitVec.ofNat 6 15 ∧ calm.t.written[(15 : Fin 16)] = false) ∧
    ((0x20 : Addr) = 0x20 + BitVec.ofNat 6 0 ∧ calm.h.written[(0 : Fin 16)] = false) := by decide
theorem witness_ReadAnswersRegister : ¬ (calm.status.busy = true ∧ (0x03 : Addr) ≠ 0x01) ∧
    ¬ ∃ i : Fin 16, ((0x03 : Addr) = 0x10 + BitVec.ofNat 6 i.val ∧ calm.t.written[i] = false) ∨
      ((0x03 : Addr) = 0x20 + BitVec.ofNat 6 i.val ∧ calm.h.written[i] = false) := by decide
theorem witness_HostOperations : (taken 0x50000000).status.busy = true ∧
    (next? (sequencerStep (taken 0x50000000))).isSome = true := by decide
theorem witness_Handshake : (∀ q p, Instr.calibrate ≠ .setdev q p) ∧ Undisturbed (midway 0x20000000 .hs0) ∧
    (midway 0x20000000 .hs0).seq = .hs0 ∧ decode (midway 0x20000000 .hs0).cmdW = .ok .calibrate := by
  exact ⟨by simp, by decide⟩
theorem witness_HandshakeOutside : (next? (exec .calibrate (midway 0x20000000 .hs2))).isSome = true ∧
    (midway 0x20000000 .hs2).seq ≠ .hs0 ∧ (midway 0x20000000 .hs2).seq ≠ .hs1 ∧
    (midway 0x20000000 .hs2).seq ≠ .hs3 ∧ (midway 0x20000000 .hs2).seq ≠ .hs5 := by decide
theorem witness_Poll : (∀ q p, Instr.calibrate ≠ .setdev q p) ∧ (midway 0x20000000 .poll).seq = .poll ∧
    lineLevel (midway 0x20000000 .poll) ≠ (midway 0x20000000 .poll).phase.level ∧
    lineLevel { midway 0x20000000 .poll with script := [.low] } = Phase.ackLow.level ∧
    (midway 0x20000000 .pdelay).seq = .pdelay ∧ (midway 0x20000000 .pdelay).count ≠ 1000 := by
  exact ⟨by simp, by decide⟩
theorem witness_PhaseEnd : (∀ q p, Instr.read 1 0 ≠ .setdev q p) ∧ (midway 0x40010000 .phaseEnd).seq = .phaseEnd ∧
    (midway 0x40010000 .phaseEnd).phase = .ackLow := by
  exact ⟨by simp, by decide⟩
/-- The last slot, timed out: its LOW count is `TIMEOUT`. -/
theorem witness_PhaseEndBit :
    let s := { midway 0x40010000 .phaseEnd with phase := .bitHigh, bitIdx := 39, loCnt := 1000 }
    s.seq = .phaseEnd ∧ s.phase = .bitHigh ∧ (true = true ↔ s.loCnt = s.timeout ∨ s.count = s.timeout) ∧
      (false = true ↔ true = false ∧ s.threshold.toNat < s.count.toNat) := by decide
theorem witness_WaitWhile : Level.high ≠ .low ∧ 3 < (4 : Count).toNat ∧
    [Level.low, .low, .low, .high] = List.replicate 3 .low ++ .high :: [] ∧
    [Level.low, .low, .low, .low] = List.replicate (4 : Count).toNat .low ++ [] := by decide
theorem witness_ReceivedBit : (List.replicate 40 ((19, 29) : Count × Count)).length = 40 ∧
    (List.replicate 40 ((19, 29) : Count × Count))[39]? = some (19, 29) := by decide
theorem witness_BitValue : calm.params.calBitRule = .threshold ∧
    ({ calm with params := ⟨1000, 30, 1, .self⟩ } : State).params.calBitRule = .self := by decide
theorem witness_CalibrationArithmetic : (2621400 : BitVec 22).toNat ≤ 40 * 65535 := by decide
theorem witness_CalibrationSucceeds :
    let s := { midway 0x20000000 .attEnd with shreg := 0x028C015FEE, sumLow := 760, maxHigh := 29 }
    s.seq = .attEnd ∧ s.bitErr = false ∧ frameValid s.shreg = true ∧ s.sumLow.toNat ≤ 40 * 65535 := by decide
theorem witness_CalibrationFails :
    let s := { midway 0x20000000 .attEnd with shreg := 0x028C015FEF, calN := 4 }
    s.seq = .attEnd ∧ s.calN.val < 5 ∧ s.calN.val = 4 ∧ checksumMatches s.shreg = false ∧
      (midway 0x20000000 .attEnd).calN.val < 4 ∧ (midway 0x20000000 .attEnd).bitErr = false ∧
      (midway 0x20000000 .attEnd).shreg = 0 := by decide
theorem witness_AcquireEnds :
    let s := { midway 0x307F0000 .attEnd with shreg := 0x028C015FEF, attN := 126 }
    s.seq = .attEnd ∧ checksumMatches s.shreg = false ∧ 0 < (127 : BitVec 8).toInt ∧ s.attN.val < 127 ∧
      ((127 : Fin 128).val : Int) = (127 : BitVec 8).toInt ∧ ((1 : Fin 128).val : Int) ≠ (127 : BitVec 8).toInt ∧
      (0 : BitVec 8).toInt = 0 ∧ frameValid 0x028C015FEE = true := by decide
theorem witness_Retry : (midway 0x30030064 .retry).seq = .retry := by decide
theorem witness_DecoderSign : (frameByte 0x0000191000 2).getLsbD 7 = false ∧
    (frameByte 0x0000810000 2).getLsbD 7 = true := by decide
theorem witness_InsertFillsTheRing : 1 ≤ (1 : Fin 17).val ∧ Filter.reset.wr = 0 ∧ Filter.reset.fill = 0 ∧
    1 < [(1 : Word), 2].length ∧ [(1 : Word), 2].length ≤ 1 + (1 : Fin 17).val := by decide
theorem witness_Median : 1 ≤ (4 : Fin 17).val ∧
    [(0 : Int), 0, 0, 0].Perm ((Filter.reset.buf.toList.take (4 : Fin 17).val).map BitVec.toInt) ∧
    [(0 : Int), 0, 0, 0].Pairwise (fun a b => a ≤ b) := by decide
theorem witness_Accept : 1 ≤ (16 : Fin 17).val ∧ Filter.reset.fill.val < (16 : Fin 17).val ∧
    (16 : Fin 17).val ≤ ({ Filter.reset with fill := 16 } : Filter).fill.val ∧
    within (24000 : Word).toInt 20000 200 = true ∧ within (24010 : Word).toInt 20000 200 = false := by decide
theorem witness_Within : (-5000 : Int) < 0 ∧ 0 < (200 : BitVec 16).toNat ∧ |(0 : Int) - 6553500| ≤ 6553500 ∧
    |(6553500 : Int)| ≤ 6553500 := by
  refine ⟨by decide, by decide, ?_, ?_⟩ <;> norm_num
theorem witness_FilterStep : (midway 0x40010000 .filter).seq = .filter := by decide
theorem witness_InitFrame : (next? (exec (.init .b 5) (taken 0x10000105))).isSome = true ∧
    (midway 0x10000105 .poll).seq ≠ .dispatch ∧ (next? (exec (.init .b 5) (midway 0x10000105 .poll))).isSome = true := by
  decide
theorem witness_CalibrateFrame : (next? (exec .calibrate (taken 0x20000000))).isSome = true ∧
    (taken 0x20000000).seq ≠ .attEnd := by decide
theorem witness_AcquireFrame : (next? (exec (.acquire 3 250) (midway 0x300300FA .attEnd))).isSome = true ∧
    (next? (exec (.acquire 3 250) (midway 0x300300FA .retry))).isSome = true := by decide
theorem witness_ReadFrame : (next? (exec (.read 1 0) (midway 0x40010000 .filter))).isSome = true ∧
    (next? (exec (.read 1 0) (midway 0x40010000 .attEnd))).isSome = true := by decide
theorem witness_SetdevFrame : (next? (exec (.setdev .humidity 5) (taken 0x50010005))).isSome = true := by decide
theorem witness_StrayControl : (midway 0x50000000 .hs0).seq ≠ .idle ∧ (midway 0x50000000 .hs0).seq ≠ .dispatch ∧
    (midway 0x20000000 .retry).seq = .retry ∧ (midway 0x30000000 .filter).seq = .filter := by decide
theorem witness_ResetInput :
    nextAgent { taken 0x20000000 with turns := [.resetInput true] } = .resetInput true ∧
    ({ calm with resetAsserted := true, turns := [.host], hostOps := [.write 0x00 0x10000000] } : State).resetAsserted =
      true ∧
    (∀ b, nextAgent { calm with resetAsserted := true, turns := [.host], hostOps := [.write 0x00 0x10000000] } ≠
      .resetInput b) ∧
    nextAgent { calm with resetAsserted := true } = .sequencer ∧ calm.status.busy = false := by decide
/-- One attempt is the whole budget: a call with `maxatt = 1` returns. -/
theorem acquireFrame_returns (s : State) : ∃ t, acquireFrame 1 1 0 s = some t := by
  have h0 : (attempt false (clearAttN s)).attN = 0 := by
    rw [attempt_eq, attemptTail_attN, (sameButLine_attemptBits _ _).attN]
    rfl
  unfold acquireFrame acquireLoop
  generalize attempt false (clearAttN s) = a at h0
  by_cases h : a.cause = .none
  · exact ⟨a, if_pos h⟩
  · refine ⟨countAttempt 1 a, (if_neg h).trans (if_pos ?_)⟩
    unfold budgetExhausted countAttempt
    simp only [h0]
    decide
theorem acquire_returns (s : State) (h : s.status.inited = true) : ∃ t, procedure 1 (.acquire 1 0) s = some t := by
  obtain ⟨a, ha⟩ := acquireFrame_returns s
  exact ⟨complete (decide (a.cause = .none)) a.cause a,
    (checkedProcedure_pass _ (by decide) fun _ => h).trans (congrArg (Option.map _) ha)⟩
theorem calibrate_returns (fuel : Nat) (s : State) (h : s.status.inited = true) :
    ∃ t, procedure fuel .calibrate s = some t :=
  ⟨calibrateAndComplete s, checkedProcedure_pass _ rfl fun _ => h⟩
/-- A whole `CALIBRATE` and a whole `ACQUIRE`, each with attempts on a line that times out at once, are procedures that
return; so is `SETDEV`. -/
theorem witness_SequencerAgrees : Undisturbed (quick 0x20000000) ∧ (quick 0x20000000).seq = .dispatch ∧
    decode (quick 0x20000000).cmdW = .ok .calibrate ∧ 1 ≤ (timeoutOf .calibrate (quick 0x20000000)).toNat ∧
    (∃ t, procedure 0 .calibrate (quick 0x20000000) = some t) ∧
    Undisturbed (quick 0x30010000) ∧ (quick 0x30010000).seq = .dispatch ∧
    decode (quick 0x30010000).cmdW = .ok (.acquire 1 0) ∧
    1 ≤ (timeoutOf (.acquire 1 0) (quick 0x30010000)).toNat ∧
    (∃ t, procedure 1 (.acquire 1 0) (quick 0x30010000) = some t) ∧
    1 ≤ (timeoutOf (.init .a 0) (quick 0x10000000)).toNat ∧
    (procedure 0 (.setdev .temperature 100) (quick 0x50000064)).isSome = true := by
  refine ⟨by decide, rfl, by decide, by decide, calibrate_returns _ _ rfl, by decide, rfl, by decide, by decide,
    acquire_returns _ rfl, by decide, by decide⟩
/-- The host may read, wait and write `CMD` in turns taken before and during a `CALIBRATE`. -/
theorem witness_Interleaving :
    let s := { quick 0x20000000 with
      turns := [.host, .sequencer, .host, .host, .sequencer]
      hostOps := [.read 0x03, .write 0x00 0x50000064, .wait] }
    (∀ b, Agent.resetInput b ∉ s.turns) ∧ s.resetAsserted = false ∧ s.seq = .dispatch ∧ s.status.busy = true ∧
      decode s.cmdW = .ok .calibrate ∧ 1 ≤ (timeoutOf .calibrate s).toNat ∧
      ∃ t, procedure 0 .calibrate { s with turns := [], hostOps := [] } = some t :=
  ⟨by decide, rfl, rfl, rfl, by decide, by decide, calibrate_returns _ _ rfl⟩
theorem witness_RetryLoop : (0 : Int) ≤ (1 : BitVec 8).toInt ∧
    ∃ t, acquireFrame 1 1 0 (quick 0x30010000) = some t := ⟨by decide, acquireFrame_returns _⟩
theorem witness_Bounded : (1 : BitVec 8).toInt ≠ 0 ∧ Undisturbed (quick 0x30010000) ∧
    (quick 0x30010000).seq = .dispatch ∧ decode (quick 0x30010000).cmdW = .ok (.acquire 1 0) ∧
    1 ≤ (timeoutOf (.acquire 1 0) (quick 0x30010000)).toNat := by decide

/-- The slot counts of V10: LOW 19, HIGH 29 for a 1 and 9 for a 0, for the frame 02 8C 01 5F EE. -/
def slotsV10 : List (Nat × Nat) :=
  (List.range 40).map fun i => (19, if (0x028C015FEE : Frame).getLsbD (39 - i) then 29 else 9)

theorem witness_CountsSend (cal : Bool) (s : State) (ht : s.timeout = 1000) (hr : s.threshold = 16)
    (hp : s.params.calBitRule = .threshold) : CountsSend cal s slotsV10 0x028C015FEE := by
  refine ⟨by decide, ?_⟩
  intro i lo hi h
  have hx : ∀ i : Fin 40, slotsV10[i.val]? =
      some (19, if (0x028C015FEE : Frame).getLsbD (39 - i.val) then 29 else 9) := by decide
  have hb : ∀ b : Bool, (b = true ↔ 16 < if b then 29 else 9) ∧ (if b then 29 else 9) < 1000 := by decide
  have key : ∀ i : Fin 40, ∀ c, slotsV10[i.val]? = some c →
      c.1 < 1000 ∧ c.2 < 1000 ∧ ((0x028C015FEE : Frame).getLsbD (39 - i.val) = true ↔ 16 < c.2) := by
    intro i c hc
    rw [hx] at hc
    cases hc
    exact ⟨by omega, (hb _).2, (hb _).1⟩
  have hi40 : i < 40 := by
    have := (List.getElem?_eq_some_iff.1 h).1
    simpa [slotsV10] using this
  obtain ⟨h1, h2, h3⟩ := key ⟨i, hi40⟩ (lo, hi) h
  rw [ht, hr, hp]
  refine ⟨h1, h2, ?_⟩
  simpa using h3

/-- The command word `w` taken on the wire of V10. -/
def onWire (w : Word) : State := { taken w with script := wireSamples 8 7 slotsV10 ++ [] }

theorem witness_AttemptReceives : CountsSend false (onWire 0x300300FA) slotsV10 0x028C015FEE ∧
    CountsSend true (onWire 0x20000000) slotsV10 0x028C015FEE ∧
    (onWire 0x20000000).script = wireSamples 8 7 slotsV10 ++ [] ∧ 8 < (onWire 0x20000000).timeout.toNat ∧
    7 < (onWire 0x20000000).timeout.toNat ∧ frameValid 0x028C015FEE = true := by
  exact ⟨witness_CountsSend _ _ rfl rfl rfl, witness_CountsSend _ _ rfl rfl rfl, rfl, by decide⟩
theorem witness_CalibrateLearns : CountsSend true (onWire 0x20000000) slotsV10 0x028C015FEE ∧
    (onWire 0x20000000).script = wireSamples 8 7 slotsV10 ++ [] ∧ Undisturbed (onWire 0x20000000) ∧
    (onWire 0x20000000).seq = .dispatch ∧ decode (onWire 0x20000000).cmdW = .ok .calibrate ∧
    (onWire 0x20000000).status.inited = true ∧ 8 < (onWire 0x20000000).timeout.toNat ∧
    7 < (onWire 0x20000000).timeout.toNat ∧ frameValid 0x028C015FEE = true := by
  exact ⟨witness_CountsSend _ _ rfl rfl rfl, rfl, by decide⟩
/-- Here under `TIMEOUT_INIT` and the default threshold. -/
theorem witness_InitLearns : CountsSend true { onWire 0x10000100 with
      timeout := (onWire 0x10000100).params.timeoutInit, threshold := 16 } slotsV10 0x028C015FEE ∧
    (onWire 0x10000100).script = wireSamples 8 7 slotsV10 ++ [] ∧ Undisturbed (onWire 0x10000100) ∧
    (onWire 0x10000100).seq = .dispatch ∧
    decode (onWire 0x10000100).cmdW = .ok (.init .b 0) ∧ (0 : BitVec 8).toNat ≤ 16 ∧
    8 < (onWire 0x10000100).params.timeoutInit.toNat ∧ 7 < (onWire 0x10000100).params.timeoutInit.toNat ∧
    frameValid 0x028C015FEE = true := by
  exact ⟨witness_CountsSend _ _ rfl rfl rfl, rfl, by decide⟩
theorem witness_AcquireDelivers : CountsSend false (onWire 0x300300FA) slotsV10 0x028C015FEE ∧
    (onWire 0x300300FA).script = wireSamples 8 7 slotsV10 ++ [] ∧ Undisturbed (onWire 0x300300FA) ∧
    (onWire 0x300300FA).seq = .dispatch ∧ decode (onWire 0x300300FA).cmdW = .ok (.acquire 3 250) ∧
    (onWire 0x300300FA).status.inited = true ∧ (0 : Int) ≤ (3 : BitVec 8).toInt ∧
    8 < (onWire 0x300300FA).timeout.toNat ∧ 7 < (onWire 0x300300FA).timeout.toNat := by
  exact ⟨witness_CountsSend _ _ rfl rfl rfl, rfl, by decide⟩
theorem witness_ReadDelivers : CountsSend false (onWire 0x40010000) slotsV10 0x028C015FEE ∧
    (onWire 0x40010000).script = wireSamples 8 7 slotsV10 ++ [] ∧ Undisturbed (onWire 0x40010000) ∧
    (onWire 0x40010000).seq = .dispatch ∧ decode (onWire 0x40010000).cmdW = .ok (.read 1 0) ∧
    (onWire 0x40010000).status.inited = true ∧ (0 : Int) ≤ (1 : BitVec 8).toInt ∧
    8 < (onWire 0x40010000).timeout.toNat ∧ 7 < (onWire 0x40010000).timeout.toNat := by
  exact ⟨witness_CountsSend _ _ rfl rfl rfl, rfl, by decide⟩

/-- An idle block whose host is about to make the blocking call `acquireFrame(1, 0)`, then the two reads of readings. -/
theorem witness_PseudoOperations :
    let s := { goto .idle (quick 0) with
      status := { Status.reset with inited := true }, hostOps := acquireFrameOps 1 0 }
    Undisturbed s ∧ s.seq = .idle ∧ s.status.busy = false ∧ 1 ≤ (timeoutOf (.acquire 1 0) s).toNat ∧
      s.hostOps = commandLine (.acquire 1 0) ++ [.read 0x05, .read 0x06] ∧
      (∃ t, procedure 1 (.acquire 1 0) (latchCommand (encode (.acquire 1 0))
        { s with hostOps := .wait :: [.read 0x05, .read 0x06] }) = some t) ∧
      ({ s with hostOps := lastTemperatureOps } : State).hostOps = lastTemperatureOps := by
  exact ⟨by decide, rfl, rfl, by decide, rfl, acquire_returns _ rfl, rfl⟩
/-- R137's example: a humidity tolerance of 10 %; the ends of the operand's range; a fraction that no command holds. -/
theorem witness_SetMaxDeviation :
    setMaxDeviationOps .humidity (1 / 10) = some [.write 0x00 0x50010064, .wait] ∧
    |(1 / 10 : Rat) * 1000 - ((100 : BitVec 16).toNat : Rat)| < 1 / 2 ∧
    |(65535 / 1000 : Rat) * 1000 - ((65535 : BitVec 16).toNat : Rat)| < 1 / 2 ∧
    setMaxDeviationOps .temperature (65536 / 1000) = none := by
  decide +kernel

/-- A state in the middle of a `READ`, at `POLL`, meets the invariant, and its next step goes on. -/
theorem witness_Inv : Inv (midway 0x40010000 .poll) ∧ ∃ t, step (midway 0x40010000 .poll) = .next t := by
  have hf : FilterInv 0 Filter.reset :=
    ⟨by decide, by decide, by decide, by intro i hi; exact absurd hi (by revert i; decide)⟩
  exact ⟨
    { params := show 1 ≤ (1000 : Count).toNat ∧ 20 ≤ 30 ∧ 30 ≤ 40 by decide
      timeout_pos := by decide
      busy_iff := by decide
      quiet := by decide
      result := by decide
      frame_ok := nofun
      running := fun _ _ => ⟨.read 1 0, by decide, by decide, by decide, by constructor <;> decide⟩
      filter_frame := nofun
      direction := by decide
      latch := by decide
      counting := show (0 : Count) < 1000 by decide
      sum_bound := by decide
      high_seen := by decide
      filter_t := hf
      filter_h := hf
      lockstep := ⟨rfl, rfl⟩
      raw_t := by decide
      raw_h := by decide
      in_reset := nofun }, _, rfl⟩

end Sys2Proof.Tests
end

section
/-! PROOF. The layout of `STATUS` (10_state.md R15, 60_exceptions.md R165), and the word it has at reset. -/

namespace Sys2Proof.Machine

/-- Bits 8:0 of `STATUS` are the flags. -/
theorem toWord_flags (f : Status) :
    f.toWord.getLsbD 0 = f.busy ∧ f.toWord.getLsbD 1 = f.done ∧ f.toWord.getLsbD 2 = f.ok ∧
    f.toWord.getLsbD 3 = f.inited ∧ f.toWord.getLsbD 4 = f.calOk ∧ f.toWord.getLsbD 5 = f.frameOk ∧
    f.toWord.getLsbD 6 = f.tAcc ∧ f.toWord.getLsbD 7 = f.hAcc ∧ f.toWord.getLsbD 8 = f.overrun := by
  simp only [Status.toWord, BitVec.getLsbD_append]
  simp

/-- Bits 11:9 and 31:16 of `STATUS`, and every bit past the word, are 0. -/
theorem toWord_reserved (f : Status) (k : Nat) (hk : (9 ≤ k ∧ k ≤ 11) ∨ 16 ≤ k) : f.toWord.getLsbD k = false := by
  simp only [Status.toWord, BitVec.getLsbD_append]
  rcases hk with hk | hk
  · have h : k = 9 ∨ k = 10 ∨ k = 11 := by omega
    rcases h with rfl | rfl | rfl <;> simp
  · obtain ⟨j, rfl⟩ := Nat.exists_eq_add_of_le' hk
    simp

/-- Bits 15:12 of `STATUS` are the error's code. -/
theorem toWord_err (f : Status) : f.toWord.extractLsb' 12 4 = f.err.code := by
  apply BitVec.eq_of_getLsbD_eq
  intro k hk
  simp only [BitVec.getLsbD_extractLsb', Status.toWord, BitVec.getLsbD_append]
  interval_cases k <;> simp

/-- `STATUS` reads 0 exactly when it holds its reset value (10_state.md R23). -/
theorem eq_reset_of_toWord_eq_zero {f : Status} (h : f.toWord = 0) : f = Status.reset := by
  have hflags := toWord_flags f
  have herr := toWord_err f
  rw [h] at hflags herr
  obtain ⟨busy, done, ok, inited, calOk, frameOk, tAcc, hAcc, overrun, err⟩ := f
  cases err with
  | none => simp_all [Status.reset]
  | _ => simp [ErrorCode.code] at herr

end Sys2Proof.Machine

namespace Sys2Proof

open Sys2Proof.Machine

/-- Settles O15: each bit is read off the concatenation that `Status.toWord` is, the code as the word's bits 15:12. -/
theorem statusWordLayout : Obligations.StatusWordLayout := by
  intro f
  obtain ⟨busy, done, ok, inited, calOk, frameOk, tAcc, hAcc, overrun⟩ := toWord_flags f
  have hcode : (f.toWord.toNat / 2 ^ 12) % 16 = f.err.code.toNat := by
    rw [← toWord_err, BitVec.extractLsb'_toNat, Nat.shiftRight_eq_div_pow]
  refine ⟨busy, done, ok, inited, calOk, frameOk, tAcc, hAcc, overrun, toWord_reserved f, ?_⟩
  rw [hcode]
  cases f.err <;> rfl

end Sys2Proof
end

section
/-! PROOF. Power-on and the reset input (10_state.md R23, 70_reset_and_hazards.md R185), and that a block at its reset values meets the invariant. -/

namespace Sys2Proof

open Sys2Proof.Machine

/-! ### The reset values -/

theorem blockAtReset_reset : BlockAtReset State.reset := by
  constructor
  case unwritten_t | unwritten_h => decide
  case timeout => rfl
  all_goals decide

/-- A reset differs from power-on in what stands outside the block only. -/
theorem blockAtReset_hardReset (s : State) : BlockAtReset (hardReset s) := { blockAtReset_reset with timeout := rfl }

/-- R5's ranges are built into the open constants that `State.reset` takes (log 1). -/
theorem config_params_wf : Config.params.wf := by
  have h := Config.timeoutInitLess1.isLt
  have k := Config.startHighUsLess20.isLt
  simp only [Params.wf, Config.params, BitVec.toNat_ofNat]
  omega

/-- An empty filter of capacity 0. -/
theorem filterInv_zero {f : Filter} (hwr : f.wr = 0) (hfill : f.fill = 0) : FilterInv 0 f where
  fill_le := by rw [hfill]
  wr_lt := by rw [hwr]; decide
  wr_warm := by rw [hwr, hfill]; decide
  written := fun i hi => by rw [hfill] at hi; exact absurd hi (Nat.not_lt_zero _)

/-- The invariant asks no more of a block at its reset values than the ranges of its parameters. -/
theorem BlockAtReset.inv {s : State} (h : BlockAtReset s) (hp : s.params.wf) : Inv s := by
  have hst : s.status = Status.reset := eq_reset_of_toWord_eq_zero h.status_word
  exact {
    params := hp
    timeout_pos := by rw [h.timeout]; exact hp.1
    busy_iff := by simp [hst, h.seq, Status.reset]
    quiet := by simp [hst, Status.reset]
    result := by simp [hst, Status.reset]
    frame_ok := by simp [hst, Status.reset]
    running := fun hq => absurd h.seq hq
    filter_frame := by simp [h.seq]
    direction := by rw [h.dq_oe, h.seq]; rfl
    latch := by rw [h.dq_out, h.seq]; rfl
    counting := by simp [CountInv, h.seq]
    sum_bound := by simp [h.sum_low]
    high_seen := fun h0 => absurd h.shreg h0
    filter_t := by rw [h.cap]; exact filterInv_zero h.wr_t h.fill_t
    filter_h := by rw [h.cap]; exact filterInv_zero h.wr_h h.fill_h
    lockstep := ⟨by rw [h.wr_t, h.wr_h], by rw [h.fill_t, h.fill_h]⟩
    raw_t := by rw [h.raw_t]; decide
    raw_h := by rw [h.raw_h]; decide
    in_reset := fun _ => h }

theorem inv_hardReset {s : State} (hp : s.params.wf) : Inv (hardReset s) := (blockAtReset_hardReset s).inv hp

/-! ### What a host operation leaves outside the block -/

/-- A host operation moves neither the line nor the parameters. -/
theorem hostStep_environment (s : State) :
    (hostStep s).trace = s.trace ∧ (hostStep s).params = s.params ∧ (hostStep s).script = s.script ∧
      (hostStep s).tail = s.tail := by
  rcases hostStep_cases s with e | ⟨addr, ops, e⟩ | ⟨addr, w, ops, e⟩
  · simp [e]
  · simp [e]
  · rcases memWrite_cases addr w { s with hostOps := ops } with ⟨_, e'⟩ | ⟨_, _, e'⟩ | ⟨_, _, e'⟩ <;> simp [e, e']

/-- A write to the host register space leaves the operations not yet issued. -/
theorem memWrite_hostOps (addr : Addr) (w : Word) (s : State) : (memWrite addr w s).hostOps = s.hostOps := by
  rcases memWrite_cases addr w s with ⟨_, e⟩ | ⟨_, _, e⟩ | ⟨_, _, e⟩ <;> simp [e]

/-- On an idle block every host operation, a `WAIT` included, is over in one turn. -/
theorem hostStep_hostOps_of_idle {s : State} {op : HostOp} {rest : List HostOp} (h : s.hostOps = op :: rest)
    (hb : s.status.busy = false) : (hostStep s).hostOps = rest := by
  cases op with
  | read addr => simp [hostStep, h]
  | write addr w => simp [hostStep, h, memWrite_hostOps]
  | wait => simp [hostStep, h, hb]

/-! ### The two statements -/

/-- Settles O48: power-on, both edges and every turn in between end in `State.reset` or `hardReset`, which hold R23's
values. -/
theorem resetInputResetsTheBlock : Obligations.ResetInputResetsTheBlock := by
  refine ⟨blockAtReset_reset, rfl, ?edge, ?held⟩
  case edge =>
    intro s asserted ha
    exact ⟨setResetInput asserted (passTurn s), by simp [step, machineStep, ha], blockAtReset_hardReset _,
      rfl, rfl, rfl, rfl, rfl, rfl, rfl⟩
  case held =>
    intro s hr hno
    cases ha : nextAgent s with
    | resetInput asserted => exact absurd ha (hno asserted)
    | sequencer =>
      exact ⟨hardReset (passTurn s), by simp [step, machineStep, ha, hr], blockAtReset_hardReset _, hr,
        rfl, rfl, rfl, rfl, nofun, fun _ => ⟨rfl, rfl⟩⟩
    | host =>
      obtain ⟨htrace, hparams, hscript, htail⟩ := hostStep_environment (passTurn s)
      exact ⟨hardReset (hostStep (passTurn s)), by simp [step, machineStep, holdReset, ha, hr],
        blockAtReset_hardReset _, (hostStep_resetAsserted _).trans hr, htrace, hparams, hscript, htail,
        fun _ _ _ hops hb => hostStep_hostOps_of_idle hops hb, nofun⟩

/-- Settles O49: the machine right after reset is a block at its reset values, with parameters in R5's ranges. -/
theorem resetMeetsTheInvariant : Obligations.ResetMeetsTheInvariant := blockAtReset_reset.inv config_params_wf

end Sys2Proof
end

section
/-! PROOF. The invariant in a control state in which the line rests: what each operation on the registers keeps, and the two ways on, completing and moving to the next control state. -/

namespace Sys2Proof

open Sys2Proof.Machine

/-! ### The parts of the invariant -/

/-- The clauses of `Inv` about registers that no step driving the line writes. -/
structure DataInv (s : State) : Prop where
  params : s.params.wf
  timeout_pos : 1 ≤ s.timeout.toNat
  frame_ok : s.status.frameOk = true → frameValid s.frame = true
  filter_t : FilterInv s.cap s.t
  filter_h : FilterInv s.cap s.h
  lockstep : s.t.wr = s.h.wr ∧ s.t.fill = s.h.fill
  raw_t : -3276700 ≤ s.rawT.toInt ∧ s.rawT.toInt ≤ 3276700
  raw_h : 0 ≤ s.rawH.toInt ∧ s.rawH.toInt ≤ 6553500

/-- The clauses of `Inv` about the line and the attempt's accumulators. -/
structure LineInv (s : State) : Prop where
  direction : s.dqOe = Driving s.seq
  latch : s.dqOut = LatchLevel s.seq
  counting : CountInv s
  sum_bound : s.sumLow.toNat ≤ 65535 * bitsCounted s
  high_seen : s.shreg ≠ 0 → s.maxHigh ≠ 0

/-- The flags of a running command (10_state.md R15, 45_sequencer.md R146). -/
def RunningFlags (f : Status) : Prop :=
  f.busy = true ∧ f.done = false ∧ f.ok = false ∧ f.err = .none ∧ f.tAcc = false ∧ f.hAcc = false

/-- `cmd_w` holds a command, and the command can be in this state. -/
def RunsCommand (s : State) : Prop := ∃ i, decode s.cmdW = .ok i ∧ RunsIn i s

theorem Inv.data {s : State} (h : Inv s) : DataInv s := { h with }

theorem Inv.line {s : State} (h : Inv s) : LineInv s := { h with }

theorem Inv.runningFlags {s : State} (h : Inv s) (hq : s.seq ≠ .idle) : RunningFlags s.status :=
  ⟨h.busy_iff.2 hq, h.quiet (h.busy_iff.2 hq)⟩

/-- The invariant of a running machine, from its parts. -/
theorem inv_of_running {s : State} (hd : DataInv s) (hl : LineInv s) (hf : RunningFlags s.status)
    (hr : s.resetAsserted = false) (hq : s.seq ≠ .idle) (hrun : s.seq ≠ .dispatch → RunsCommand s)
    (hff : s.seq = .filter → s.status.frameOk = true) : Inv s :=
  { hd, hl with
    busy_iff := iff_of_true hf.1 hq
    quiet := fun _ => hf.2
    result := fun hdone => absurd (hf.2.1.symm.trans hdone) nofun
    running := fun _ => hrun
    filter_frame := hff
    in_reset := fun h => absurd (hr.symm.trans h) nofun }

/-! ### The line at rest -/

/-- The control states in which the line rests: outside the handshake and the phases that are counted. -/
def AtRest : Seq → Bool
  | .idle | .dispatch | .hs0 | .attEnd | .retry | .filter => true
  | .hs1 | .hs2 | .hs3 | .hs4 | .hs5 | .poll | .pdelay | .phaseEnd => false

/-- What the invariant says where the line rests, but for the control state, the result flags and the attempt counters:
so it passes from one such control state to the next. -/
structure Settled (s : State) : Prop extends DataInv s where
  released : s.resetAsserted = false
  input_mode : s.dqOe = false
  latch_high : s.dqOut = .high
  sum_le : s.sumLow.toNat ≤ 65535 * 40
  high_seen : s.shreg ≠ 0 → s.maxHigh ≠ 0

/-- Where the line rests, the clauses about it say the same in every control state. -/
theorem lineInv_iff_of_atRest {s : State} (hq : AtRest s.seq = true) :
    LineInv s ↔ s.dqOe = false ∧ s.dqOut = .high ∧ s.sumLow.toNat ≤ 65535 * 40 ∧ (s.shreg ≠ 0 → s.maxHigh ≠ 0) := by
  have hdrive : Driving s.seq = false := by revert hq; cases s.seq <;> decide
  have hlatch : LatchLevel s.seq = .high := by revert hq; cases s.seq <;> decide
  have hcount : CountInv s := by unfold CountInv; revert hq; cases s.seq <;> simp [AtRest]
  have hbits : bitsCounted s = 40 := by unfold bitsCounted; revert hq; cases s.seq <;> simp [AtRest]
  constructor
  · intro ⟨hoe, hout, _, hsum, hhigh⟩
    exact ⟨hoe.trans hdrive, hout.trans hlatch, hbits ▸ hsum, hhigh⟩
  · intro ⟨hoe, hout, hsum, hhigh⟩
    exact ⟨hoe.trans hdrive.symm, hout.trans hlatch.symm, hcount, hbits ▸ hsum, hhigh⟩

theorem Inv.settled {s : State} (h : Inv s) (hr : s.resetAsserted = false) {q : Seq} (hq : s.seq = q)
    (hrest : AtRest q = true) : Settled s := by
  obtain ⟨hoe, hout, hsum, hhigh⟩ := (lineInv_iff_of_atRest (hq ▸ hrest)).1 h.line
  exact { h.data with released := hr, input_mode := hoe, latch_high := hout, sum_le := hsum, high_seen := hhigh }

section Settled

variable {s : State} (h : Settled s)

include h

theorem Settled.lineInv (hq : AtRest s.seq = true) : LineInv s :=
  (lineInv_iff_of_atRest hq).2 ⟨h.input_mode, h.latch_high, h.sum_le, h.high_seen⟩

/-! ### The two ways on -/

theorem Settled.complete (ok : Bool) (err : ErrorCode) : Settled (complete ok err s) := { h with }

/-- Completing a command, whichever it is, leads to a state that meets the invariant (45_sequencer.md R148). -/
theorem Settled.inv_complete {ok : Bool} {err : ErrorCode} (hres : ok = true ↔ err = .none) :
    Inv (Machine.complete ok err s) :=
  { (h.complete ok err).toDataInv, (h.complete ok err).lineInv rfl with
    busy_iff := by simp
    quiet := by simp
    result := fun _ => hres
    running := fun hq => absurd rfl hq
    filter_frame := nofun
    in_reset := fun hr => absurd (h.released.symm.trans hr) nofun }

theorem Settled.goto (q : Seq) : Settled (goto q s) := { h with }

/-- Moving a running command to a control state in which it can be. -/
theorem Settled.inv_goto {q : Seq} (hrest : AtRest q = true) (hq : q ≠ .idle) (hf : RunningFlags s.status)
    (hrun : q ≠ .dispatch → RunsCommand (Machine.goto q s)) (hff : q = .filter → s.status.frameOk = true) :
    Inv (Machine.goto q s) :=
  inv_of_running (h.goto q).toDataInv ((h.goto q).lineInv hrest) hf h.released hq hrun hff

/-! ### What the operations keep -/

theorem Settled.portDelayMillis (n : Nat) : Settled (portDelayMillis n s) := { h with }
theorem Settled.clearAttN : Settled (clearAttN s) := { h with }
theorem Settled.clearCalN : Settled (clearCalN s) := { h with }
theorem Settled.countAttempt (m : BitVec 8) : Settled (countAttempt m s) := { h with }
theorem Settled.countCalFailure : Settled (countCalFailure s) := { h with }
theorem Settled.calibrateFallback : Settled (calibrateFallback s) := { h with }

/-- `FRAME_OK` is set only with a valid frame (40_line_and_pulse_counter.md R88). -/
theorem Settled.attemptTail : Settled (attemptTail s) :=
  { h with frame_ok := fun hok => (attemptCause_none.1 (of_decide_eq_true hok)).2 }

end Settled

/-- A valid frame is not the all-zero one (R87). -/
theorem ne_zero_of_frameValid {f : Frame} (h : frameValid f = true) : f ≠ 0 := by
  rintro rfl
  exact absurd h (by decide)

/-- 41_calibrator.md R102 (a): a calibration in which some HIGH count was seen leaves `TIMEOUT ≥ 1`. -/
theorem calTimeout_pos {m : Count} (h : m ≠ 0) : 1 ≤ (calTimeout m).toNat := by
  have hm : m.toNat ≠ 0 := fun e => h (BitVec.eq_of_toNat_eq e)
  simp only [calTimeout, BitVec.toNat_ofNat]
  omega

theorem Settled.calibrateSuccess {s : State} (h : Settled s) (hs : s.shreg ≠ 0) : Settled (calibrateSuccess s) :=
  { h with timeout_pos := calTimeout_pos (h.high_seen hs) }

/-! ### The filters and the readings -/

/-- `INIT` empties a filter, whatever capacity it gives it (41_calibrator.md R104). -/
theorem filterInv_initStarted (cap : Fin 17) (f : Filter) : FilterInv cap f.initStarted where
  fill_le := Fin.zero_le cap
  wr_lt := by simp
  wr_warm := fun _ => rfl
  written := fun i hi => absurd hi (Nat.not_lt_zero _)

theorem Settled.initAssign {s : State} (h : Settled s) (v : Variant) (cap : BitVec 8) : Settled (initAssign v cap s) :=
  { h with
    timeout_pos := h.params.1
    frame_ok := nofun
    filter_t := filterInv_initStarted _ _
    filter_h := filterInv_initStarted _ _
    lockstep := ⟨rfl, rfl⟩
    raw_t := by simp
    raw_h := by simp }

theorem filterInv_dev {cap : Fin 17} {f : Filter} (h : FilterInv cap f) (dev : BitVec 16) :
    FilterInv cap { f with dev := dev } := { h with }

theorem Settled.setDeviation {s : State} (h : Settled s) (q : Quantity) (permille : BitVec 16) :
    Settled (setDeviation q permille s) := by
  cases q
  · exact { h with filter_t := filterInv_dev h.filter_t permille }
  · exact { h with filter_h := filterInv_dev h.filter_h permille }

/-- The ranges of a reading, in either variant (43_decoder.md R124). -/
theorem decodeFrame_range (v : Variant) (f : Frame) :
    (-3276700 ≤ (decodeFrame v f).1 ∧ (decodeFrame v f).1 ≤ 3276700) ∧
      0 ≤ (decodeFrame v f).2 ∧ (decodeFrame v f).2 ≤ 6553500 := by
  have b0 := (frameByte f 0).isLt
  have b1 := (frameByte f 1).isLt
  have b2 := (frameByte f 2).isLt
  have b3 := (frameByte f 3).isLt
  cases v with
  | a =>
    have fT := frac_le (frameByte f 3)
    have fH := frac_le (frameByte f 1)
    simp only [decodeFrame, decodeA]
    omega
  | b =>
    simp only [decodeFrame, decodeB]
    split <;> omega

/-- One `READ`'s decoded values keep both filters, in lockstep (44_noise_filter.md R135, R138). -/
theorem Settled.filterReading {s : State} (h : Settled s) : Settled (filterReading s) := by
  obtain ⟨hT, hH⟩ := decodeFrame_range s.variant s.frame
  obtain ⟨hwr, hfill⟩ := h.lockstep
  have eT := toInt_ofInt_reading (decodeFrame s.variant s.frame).1 (by omega) (by omega)
  have eH := toInt_ofInt_reading (decodeFrame s.variant s.frame).2 (by omega) (by omega)
  exact { h with
    filter_t := filterInv_accept _ _ _ h.filter_t
    filter_h := filterInv_accept _ _ _ h.filter_h
    lockstep := ⟨by simp only [Machine.filterReading, accept_wr, hwr],
      by simp only [Machine.filterReading, accept_fill, hfill]⟩
    raw_t := eT ▸ hT
    raw_h := eH ▸ hH }

end Sys2Proof
end

section
/-! PROOF. The steps that drive the line (45_sequencer.md R150, R151) keep the invariant. -/

namespace Sys2Proof

open Sys2Proof.Machine

/-! ### One bit slot -/

/-- One more slot adds at most 65535 to the LOW-count sum, which 40 slots do not make overflow (R88). -/
theorem recordBit_sumLow_le {cal : Bool} {s : State} {n : Nat} (hn : n < 40) (h : s.sumLow.toNat ≤ 65535 * n) :
    (recordBit cal s).sumLow.toNat ≤ 65535 * (n + 1) := by
  have hlo := s.loCnt.isLt
  have hsum : (recordBit cal s).sumLow.toNat ≤ s.sumLow.toNat + s.loCnt.toNat := by
    simp only [recordBit_sumLow, BitVec.toNat_add, BitVec.toNat_setWidth]
    omega
  omega

/-- A slot's bit is 1 only above a reference, so only with a HIGH count (41_calibrator.md R102 (a)). -/
theorem bitValue_count_ne_zero {cal : Bool} {lo hi : Count} {s : State} (h : bitValue cal lo hi s = true) : hi ≠ 0 := by
  rintro rfl
  simp [bitValue] at h

theorem recordBit_high_seen {cal : Bool} {s : State} (h : s.shreg ≠ 0 → s.maxHigh ≠ 0) :
    (recordBit cal s).shreg ≠ 0 → (recordBit cal s).maxHigh ≠ 0 := by
  have grows : s.maxHigh ≠ 0 ∨ s.count ≠ 0 → (recordBit cal s).maxHigh ≠ 0 := by
    rw [recordBit_maxHigh]
    split <;> bv_omega
  intro hshreg
  cases hbit : bitValue cal s.loCnt s.count s with
  | true => exact grows (.inr (bitValue_count_ne_zero hbit))
  | false =>
    refine grows (.inl (h fun h0 => hshreg ?_))
    simp [recordBit, hbit, h0]

/-! ### What the invariant says of the line, group of control states by group -/

/-- While the block drives the line, nothing has been counted. -/
theorem lineInv_iff_of_driving {s : State} (hq : Driving s.seq = true) :
    LineInv s ↔ s.dqOe = true ∧ s.dqOut = LatchLevel s.seq ∧ s.sumLow.toNat = 0 ∧ (s.shreg ≠ 0 → s.maxHigh ≠ 0) := by
  have hcount : CountInv s := by unfold CountInv; revert hq; cases s.seq <;> simp [Driving]
  have hbits : bitsCounted s = 0 := by unfold bitsCounted; revert hq; cases s.seq <;> simp [Driving]
  constructor
  · intro ⟨hoe, hout, _, hsum, hhigh⟩
    rw [hbits] at hsum
    exact ⟨hoe.trans hq, hout, Nat.le_zero.1 hsum, hhigh⟩
  · intro ⟨hoe, hout, hsum, hhigh⟩
    exact ⟨hoe.trans hq.symm, hout, hcount, by rw [hsum]; exact Nat.zero_le _, hhigh⟩

/-- The control states in which a phase is counted. -/
def Counts : Seq → Bool
  | .poll | .pdelay | .phaseEnd => true
  | .idle | .dispatch | .hs0 | .hs1 | .hs2 | .hs3 | .hs4 | .hs5 | .attEnd | .retry | .filter => false

/-- While a phase is counted, only the clause about the count depends on which of the control states it is. -/
theorem lineInv_iff_of_counts {s : State} (hq : Counts s.seq = true) :
    LineInv s ↔ s.dqOe = false ∧ s.dqOut = .high ∧ CountInv s ∧
      s.sumLow.toNat ≤ 65535 * bitsCounted (goto .poll s) ∧ (s.shreg ≠ 0 → s.maxHigh ≠ 0) := by
  have hdrive : Driving s.seq = false := by revert hq; cases s.seq <;> decide
  have hlatch : LatchLevel s.seq = .high := by revert hq; cases s.seq <;> decide
  have hbits : bitsCounted s = bitsCounted (goto .poll s) := by
    unfold bitsCounted; revert hq; cases s.seq <;> simp [Counts]
  constructor
  · intro ⟨hoe, hout, hcount, hsum, hhigh⟩
    exact ⟨hoe.trans hdrive, hout.trans hlatch, hcount, hbits ▸ hsum, hhigh⟩
  · intro ⟨hoe, hout, hcount, hsum, hhigh⟩
    exact ⟨hoe.trans hdrive.symm, hout.trans hlatch.symm, hcount, hbits ▸ hsum, hhigh⟩

/-- A phase starts to be counted with the line in input mode. -/
theorem lineInv_startPhase {p : Phase} {s : State} (hoe : s.dqOe = false) (hout : s.dqOut = .high)
    (ht : 1 ≤ s.timeout.toNat) (hsum : s.sumLow.toNat ≤ 65535 * bitsCounted (startPhase p s))
    (hhigh : s.shreg ≠ 0 → s.maxHigh ≠ 0) : LineInv (startPhase p s) :=
  (lineInv_iff_of_counts rfl).2 ⟨hoe, hout, show (0 : Count) < s.timeout by bv_omega, hsum, hhigh⟩

/-! ### The line, step by step -/

section LineSteps

variable {s : State} (h : LineInv s)

include h

theorem lineInv_hs0 (hq : s.seq = .hs0) : LineInv (goto .hs1 (portSetMode .output (clearAttempt s))) :=
  (lineInv_iff_of_driving rfl).2 ⟨rfl, by simp [h.latch, hq, LatchLevel], rfl, fun h0 => absurd rfl h0⟩

theorem lineInv_hs1 (hq : s.seq = .hs1) : LineInv (goto .hs2 (portWrite .low s)) := by
  obtain ⟨hoe, -, hsum, hhigh⟩ := (lineInv_iff_of_driving (by rw [hq]; rfl)).1 h
  exact (lineInv_iff_of_driving rfl).2 ⟨hoe, rfl, hsum, hhigh⟩

theorem lineInv_hs2 (hq : s.seq = .hs2) (n : Nat) : LineInv (goto .hs3 (portDelayMillis n s)) := by
  obtain ⟨hoe, hout, hsum, hhigh⟩ := (lineInv_iff_of_driving (by rw [hq]; rfl)).1 h
  exact (lineInv_iff_of_driving rfl).2 ⟨hoe, hout.trans (by rw [hq]; rfl), hsum, hhigh⟩

theorem lineInv_hs3 (hq : s.seq = .hs3) : LineInv (goto .hs4 (portWrite .high s)) := by
  obtain ⟨hoe, -, hsum, hhigh⟩ := (lineInv_iff_of_driving (by rw [hq]; rfl)).1 h
  exact (lineInv_iff_of_driving rfl).2 ⟨hoe, rfl, hsum, hhigh⟩

theorem lineInv_hs4 (hq : s.seq = .hs4) (n : Nat) : LineInv (goto .hs5 (portDelayMicros n s)) := by
  obtain ⟨hoe, hout, hsum, hhigh⟩ := (lineInv_iff_of_driving (by rw [hq]; rfl)).1 h
  exact (lineInv_iff_of_driving rfl).2 ⟨hoe, hout.trans (by rw [hq]; rfl), hsum, hhigh⟩

theorem lineInv_hs5 (hq : s.seq = .hs5) (ht : 1 ≤ s.timeout.toNat) :
    LineInv (startPhase .ackLow (portSetMode .input s)) := by
  obtain ⟨-, hout, hsum, hhigh⟩ := (lineInv_iff_of_driving (by rw [hq]; rfl)).1 h
  exact lineInv_startPhase rfl (hout.trans (by rw [hq]; rfl)) ht (Nat.le_of_eq hsum) hhigh

theorem lineInv_poll (hq : s.seq = .poll) : LineInv (pollStep s) := by
  obtain ⟨hoe, hout, hcount, hsum, hhigh⟩ := (lineInv_iff_of_counts (by rw [hq]; rfl)).1 h
  have hlt : s.count < s.timeout := by simpa only [CountInv, hq] using hcount
  rw [pollStep_eq]
  split
  · exact (lineInv_iff_of_counts rfl).2
      ⟨hoe, hout, show 0 < s.count + 1 ∧ s.count + 1 ≤ s.timeout by constructor <;> bv_omega, hsum, hhigh⟩
  · exact (lineInv_iff_of_counts rfl).2 ⟨hoe, hout, show s.count ≤ s.timeout by bv_omega, hsum, hhigh⟩

theorem lineInv_pdelay (hq : s.seq = .pdelay) : LineInv (pdelayStep s) := by
  obtain ⟨hoe, hout, hcount, hsum, hhigh⟩ := (lineInv_iff_of_counts (by rw [hq]; rfl)).1 h
  obtain ⟨-, hle⟩ : 0 < s.count ∧ s.count ≤ s.timeout := by simpa only [CountInv, hq] using hcount
  unfold pdelayStep
  split
  · exact (lineInv_iff_of_counts rfl).2 ⟨hoe, hout, hle, hsum, hhigh⟩
  · rename_i hne
    exact (lineInv_iff_of_counts rfl).2 ⟨hoe, hout, show s.count < s.timeout by bv_omega, hsum, hhigh⟩

theorem lineInv_phaseEnd (hq : s.seq = .phaseEnd) (ht : 1 ≤ s.timeout.toNat) (cal : Bool) :
    LineInv (phaseEndStep cal s) := by
  obtain ⟨hoe, hout, -, hsum, hhigh⟩ := (lineInv_iff_of_counts (by rw [hq]; rfl)).1 h
  unfold phaseEndStep
  split <;> rename_i hp
  case h_1 | h_2 =>
    have h0 : s.sumLow.toNat ≤ 0 := by simpa [bitsCounted, hp] using hsum
    exact lineInv_startPhase hoe hout ht h0 hhigh
  case h_3 =>
    have hk : s.sumLow.toNat ≤ 65535 * s.bitIdx.val := by simpa [bitsCounted, hp] using hsum
    exact lineInv_startPhase hoe hout ht hk hhigh
  case h_4 =>
    have hk : s.sumLow.toNat ≤ 65535 * s.bitIdx.val := by simpa [bitsCounted, hp] using hsum
    have hrec := recordBit_sumLow_le (cal := cal) s.bitIdx.isLt hk
    have hhigh' := recordBit_high_seen (cal := cal) hhigh
    split
    · rename_i hlt
      have hnext : (s.bitIdx + 1).val = s.bitIdx.val + 1 := Fin.val_add_one_of_lt hlt
      exact lineInv_startPhase hoe hout ht (by simpa [bitsCounted, hnext] using hrec) hhigh'
    · exact (lineInv_iff_of_atRest rfl).2 ⟨hoe, hout, hrec.trans (by omega), hhigh'⟩

end LineSteps

/-! ### A step that drives the line, whole -/

/-- Where a command can be does not depend on what driving the line writes, but for the control state. -/
theorem RunsIn.of_sameButLine {i : Instr} {s t : State} (h : RunsIn i s) (same : SameButLine t s) (hr : t.seq ≠ .retry)
    (hf : t.seq ≠ .filter) : RunsIn i t := by
  obtain ⟨hwf, hinit, hi⟩ := h
  refine ⟨hwf, same.status ▸ hinit, ?_⟩
  cases i with
  | init v cap => exact ⟨hr, hf, same.calN ▸ hi.2.2⟩
  | calibrate => exact ⟨hr, hf, same.calN ▸ hi.2.2⟩
  | acquire m r => exact ⟨hf, by simpa only [BudgetOpen, same.attN] using hi.2⟩
  | read m r => simpa only [BudgetOpen, same.attN] using hi
  | setdev q p => exact hi

theorem DataInv.of_sameButLine {s t : State} (h : DataInv s) (same : SameButLine t s) : DataInv t :=
  (same.congr DataInv fun _ => propext ⟨fun h => { h with }, fun h => { h with }⟩).mpr h

/-- The control states that an attempt goes through after its first step. -/
def InAttempt : Seq → Bool
  | .hs1 | .hs2 | .hs3 | .hs4 | .hs5 | .poll | .pdelay | .phaseEnd | .attEnd => true
  | .idle | .dispatch | .hs0 | .retry | .filter => false

theorem inAttempt_pollStep (s : State) : InAttempt (pollStep s).seq = true := by
  rw [pollStep_eq]; split <;> rfl

theorem inAttempt_pdelayStep (s : State) : InAttempt (pdelayStep s).seq = true := by
  unfold pdelayStep; split <;> rfl

theorem inAttempt_phaseEndStep (cal : Bool) (s : State) : InAttempt (phaseEndStep cal s).seq = true := by
  unfold phaseEndStep
  split
  case h_4 => split <;> rfl
  all_goals rfl

/-- A step within an attempt keeps the invariant when it keeps what the invariant says of the line. -/
theorem Inv.of_line_step {s t : State} (h : Inv s) (hr : s.resetAsserted = false) (hq : s.seq ≠ .idle)
    (hd : s.seq ≠ .dispatch) (same : SameButLine t s) (hin : InAttempt t.seq = true) (hl : LineInv t) : Inv t := by
  have out {q : Seq} (hq : InAttempt q = false) : t.seq ≠ q := fun e => by simp [e, hq] at hin
  obtain ⟨i, hw, hi⟩ := h.running hq hd
  have hcmd : t.cmdW = s.cmdW := same.toSameOutside.cmdW
  exact inv_of_running (h.data.of_sameButLine same) hl (same.status ▸ h.runningFlags hq)
    ((same.congr State.resetAsserted fun _ => rfl).trans hr) (out rfl)
    (fun _ => ⟨i, hcmd ▸ hw, hi.of_sameButLine same (out rfl) (out rfl)⟩) (fun hf => absurd hf (out rfl))

/-- The sequencer's step of a command is the command's own in four control states; in all others it keeps the
invariant. -/
theorem Inv.controlStep_cases {s t : State} (h : Inv s) (hr : s.resetAsserted = false) {cal : Bool} {a b c d : Out}
    (hs : controlStep cal s a b c d = .next t) :
    (s.seq = .dispatch ∧ a = .next t) ∨ (s.seq = .attEnd ∧ b = .next t) ∨ (s.seq = .retry ∧ c = .next t) ∨
    (s.seq = .filter ∧ d = .next t) ∨ Inv t := by
  have go (q : Seq) (hq : s.seq = q) (h0 : q ≠ .idle) (hd : q ≠ .dispatch) (same : SameButLine t s)
      (hin : InAttempt t.seq = true) (hl : LineInv t) : Inv t :=
    h.of_line_step hr (hq ▸ h0) (hq ▸ hd) same hin hl
  rcases Machine.controlStep_cases hs with
    own | own | own | own | ⟨-, rfl⟩ | ⟨hq, rfl⟩ | ⟨hq, rfl⟩ | ⟨hq, rfl⟩ | ⟨hq, rfl⟩ | ⟨hq, rfl⟩ | ⟨hq, rfl⟩ |
    ⟨hq, rfl⟩ | ⟨hq, rfl⟩ | ⟨hq, rfl⟩
  · exact .inl own
  · exact .inr (.inl own)
  · exact .inr (.inr (.inl own))
  · exact .inr (.inr (.inr (.inl own)))
  all_goals right; right; right; right
  · exact h
  · exact go _ hq nofun nofun rfl rfl (lineInv_hs0 h.line hq)
  · exact go _ hq nofun nofun rfl rfl (lineInv_hs1 h.line hq)
  · exact go _ hq nofun nofun rfl rfl (lineInv_hs2 h.line hq _)
  · exact go _ hq nofun nofun rfl rfl (lineInv_hs3 h.line hq)
  · exact go _ hq nofun nofun rfl rfl (lineInv_hs4 h.line hq _)
  · exact go _ hq nofun nofun rfl rfl (lineInv_hs5 h.line hq h.timeout_pos)
  · exact go _ hq nofun nofun (sameButLine_pollStep s) (inAttempt_pollStep s) (lineInv_poll h.line hq)
  · exact go _ hq nofun nofun rfl (inAttempt_pdelayStep s) (lineInv_pdelay h.line hq)
  · exact go _ hq nofun nofun (sameButLine_phaseEndStep cal s) (inAttempt_phaseEndStep cal s)
      (lineInv_phaseEnd h.line hq h.timeout_pos cal)

end Sys2Proof
end

section
/-! PROOF. The commands' own steps, the host's turn and the reset input keep the invariant; so every step does. -/

namespace Sys2Proof

open Sys2Proof.Machine

/-! ### The end of an attempt -/

theorem budgetOpen_zero (m : BitVec 8) {s : State} (h : s.attN = 0) : BudgetOpen m s :=
  ⟨fun hm => by simpa [h] using hm, fun _ => h⟩

/-- One more failure that does not exhaust the budget leaves it open; `att_n` does not wrap (42_frame_acquirer.md R112). -/
theorem budgetOpen_countAttempt {m : BitVec 8} {s : State} (h : BudgetOpen m s)
    (hne : budgetExhausted m (countAttempt m s) = false) : BudgetOpen m (countAttempt m s) := by
  obtain ⟨hpos, hzero⟩ := h
  by_cases hm : 0 < maxattValue m
  · have hlt := hpos hm
    have hmax : maxattValue m < 128 := BitVec.toInt_lt (x := m)
    have hnext : (countAttempt m s).attN.val = s.attN.val + 1 := by
      rw [countAttempt_attN, if_pos hm]
      exact Fin.val_add_one_of_lt (Fin.lt_def.2 (show s.attN.val < 127 by omega))
    have hnot : ((countAttempt m s).attN.val : Int) ≠ maxattValue m := fun e => of_decide_eq_false hne ⟨hm, e⟩
    exact ⟨fun _ => by omega, fun h0 => absurd h0 (by omega)⟩
  · rw [BudgetOpen, countAttempt_attN, if_neg hm]
    exact ⟨fun h0 => absurd h0 hm, hzero⟩

theorem inv_acquireAttEnd {m : BitVec 8} {success : State → State} {s : State} (h : Settled s)
    (hf : RunningFlags s.status) (hb : BudgetOpen m s)
    (hsuccess : attemptCause s.bitErr s.shreg = .none → Inv (success (attemptTail s)))
    (hretry : BudgetOpen m (countAttempt m s) → RunsCommand (goto .retry (countAttempt m (attemptTail s)))) :
    Inv (acquireAttEnd m success s) := by
  rcases acquireAttEnd_cases m success s with ⟨hc, e⟩ | ⟨hc, -, e⟩ | ⟨-, hne, e⟩ <;> rw [e]
  · exact hsuccess hc
  · exact (h.attemptTail.countAttempt m).inv_complete (iff_of_false nofun hc)
  · exact (h.attemptTail.countAttempt m).inv_goto rfl nofun hf (fun _ => hretry (budgetOpen_countAttempt hb hne)) nofun

/-- On success the frame received is not 0, so some HIGH count was seen and `TIMEOUT` stays positive. -/
theorem inv_calibrationAttEnd {s : State} (h : Settled s) (hf : RunningFlags s.status) (hn : s.calN.val < 5)
    (hnext : (s.calN + 1).val < 5 → RunsCommand (goto .hs0 (countCalFailure (attemptTail s)))) :
    Inv (calibrationAttEnd s) := by
  rcases calibrationAttEnd_cases s with ⟨hc, e⟩ | ⟨-, -, e⟩ | ⟨-, hne, e⟩ <;> rw [e]
  · have hframe := ne_zero_of_frameValid (attemptCause_none.1 hc).2
    exact (h.attemptTail.calibrateSuccess hframe).inv_complete (by simp)
  · exact h.attemptTail.countCalFailure.calibrateFallback.inv_complete (by simp)
  · have hval : (s.calN + 1).val = s.calN.val + 1 := Fin.val_add_one_of_lt (Fin.lt_def.2 hn)
    exact h.attemptTail.countCalFailure.inv_goto rfl nofun hf (fun _ => hnext (by omega)) nofun

theorem inv_filterStep {s : State} (h : Settled s) : Inv (filterStep s) := by
  rcases filterStep_cases s with ⟨-, -, e⟩ | ⟨-, e⟩ <;> rw [e]
  · exact h.filterReading.inv_complete (by simp)
  · exact h.filterReading.inv_complete (by simp)

/-- At `DISPATCH` a command is refused, or goes on with its operands and `INITED` as the checks leave them. -/
theorem inv_checked {i : Instr} {s t u : State} (h : Settled s) (hs : checked i s (.next u) = .next t)
    (hgo : i.wellFormed = true → (needsInit i = true → s.status.inited = true) → Inv u) : Inv t := by
  rcases checked_cases i s (.next u) with ⟨-, e⟩ | ⟨-, -, -, e⟩ | ⟨hwf, hinit, e⟩ <;>
    obtain rfl := Host.Outcome.next.inj (e.symm.trans hs)
  · exact h.inv_complete (by simp)
  · exact h.inv_complete (by simp)
  · exact hgo hwf hinit

/-! ### The sequencer's step -/

theorem Inv.runsIn {i : Instr} {s : State} (h : Inv s) (hw : decode s.cmdW = .ok i) {q : Seq} (hq : s.seq = q)
    (h0 : q ≠ .idle) (hd : q ≠ .dispatch) : RunsIn i s := by
  obtain ⟨j, hj, hrun⟩ := h.running (hq ▸ h0) (hq ▸ hd)
  cases hw.symm.trans hj
  exact hrun

section Exec

variable {s t : State} (h : Inv s) (hr : s.resetAsserted = false) (hq0 : s.seq ≠ .idle)

include h hr hq0

theorem Inv.execInit {v : Variant} {cap : BitVec 8} (hw : decode s.cmdW = .ok (.init v cap))
    (hs : exec (.init v cap) s = .next t) : Inv t := by
  have hf := h.runningFlags hq0
  rcases h.controlStep_cases hr hs with ⟨hq, e⟩ | ⟨hq, e⟩ | ⟨-, e⟩ | ⟨-, e⟩ | ht
  · have hset := h.settled hr hq rfl
    exact inv_checked hset e fun hwf _ => (hset.initAssign v cap).clearCalN.inv_goto rfl nofun hf
      (fun _ => ⟨_, hw, hwf, rfl, nofun, nofun, Nat.zero_lt_succ 4⟩) nofun
  · obtain ⟨hwf, hinit, -, -, hn⟩ := h.runsIn hw hq nofun nofun
    cases e
    exact inv_calibrationAttEnd (h.settled hr hq rfl) hf hn
      fun hlt => ⟨_, hw, hwf, hinit, nofun, nofun, hlt⟩
  · cases e
  · cases e
  · exact ht

theorem Inv.execCalibrate (hw : decode s.cmdW = .ok .calibrate) (hs : exec .calibrate s = .next t) : Inv t := by
  have hf := h.runningFlags hq0
  rcases h.controlStep_cases hr hs with ⟨hq, e⟩ | ⟨hq, e⟩ | ⟨-, e⟩ | ⟨-, e⟩ | ht
  · have hset := h.settled hr hq rfl
    exact inv_checked hset e fun hwf hinit => hset.clearCalN.inv_goto rfl nofun hf
      (fun _ => ⟨_, hw, hwf, hinit rfl, nofun, nofun, Nat.zero_lt_succ 4⟩) nofun
  · obtain ⟨hwf, hinit, -, -, hn⟩ := h.runsIn hw hq nofun nofun
    cases e
    exact inv_calibrationAttEnd (h.settled hr hq rfl) hf hn
      fun hlt => ⟨_, hw, hwf, hinit, nofun, nofun, hlt⟩
  · cases e
  · cases e
  · exact ht

theorem Inv.execAcquire {m : BitVec 8} {r : BitVec 16} (hw : decode s.cmdW = .ok (.acquire m r))
    (hs : exec (.acquire m r) s = .next t) : Inv t := by
  have hf := h.runningFlags hq0
  rcases h.controlStep_cases hr hs with ⟨hq, e⟩ | ⟨hq, e⟩ | ⟨hq, e⟩ | ⟨-, e⟩ | ht
  · have hset := h.settled hr hq rfl
    exact inv_checked hset e fun hwf hinit => hset.clearAttN.inv_goto rfl nofun hf
      (fun _ => ⟨_, hw, hwf, hinit rfl, nofun, budgetOpen_zero m rfl⟩) nofun
  · have hset := h.settled hr hq rfl
    obtain ⟨hwf, hinit, -, hb⟩ := h.runsIn hw hq nofun nofun
    cases e
    exact inv_acquireAttEnd hset hf hb (fun _ => hset.attemptTail.inv_complete (by simp))
      fun hb' => ⟨_, hw, hwf, hinit, nofun, hb'⟩
  · obtain ⟨hwf, hinit, -, hb⟩ := h.runsIn hw hq nofun nofun
    cases e
    exact ((h.settled hr hq rfl).portDelayMillis _).inv_goto rfl nofun hf
      (fun _ => ⟨_, hw, hwf, hinit, nofun, hb⟩) nofun
  · cases e
  · exact ht

theorem Inv.execRead {m : BitVec 8} {r : BitVec 16} (hw : decode s.cmdW = .ok (.read m r))
    (hs : exec (.read m r) s = .next t) : Inv t := by
  have hf := h.runningFlags hq0
  rcases h.controlStep_cases hr hs with ⟨hq, e⟩ | ⟨hq, e⟩ | ⟨hq, e⟩ | ⟨hq, e⟩ | ht
  · have hset := h.settled hr hq rfl
    exact inv_checked hset e fun hwf hinit => hset.clearAttN.inv_goto rfl nofun hf
      (fun _ => ⟨_, hw, hwf, hinit rfl, budgetOpen_zero m rfl⟩) nofun
  · have hset := h.settled hr hq rfl
    obtain ⟨hwf, hinit, hb⟩ := h.runsIn hw hq nofun nofun
    cases e
    refine inv_acquireAttEnd hset hf hb (fun hc => ?_) fun hb' => ⟨_, hw, hwf, hinit, hb'⟩
    exact hset.attemptTail.inv_goto rfl nofun hf (fun _ => ⟨_, hw, hwf, hinit, hb⟩) fun _ => decide_eq_true hc
  · obtain ⟨hwf, hinit, hb⟩ := h.runsIn hw hq nofun nofun
    cases e
    exact ((h.settled hr hq rfl).portDelayMillis _).inv_goto rfl nofun hf
      (fun _ => ⟨_, hw, hwf, hinit, hb⟩) nofun
  · cases e
    exact inv_filterStep (h.settled hr hq rfl)
  · exact ht

theorem Inv.execSetdev {q : Quantity} {p : BitVec 16} (hw : decode s.cmdW = .ok (.setdev q p))
    (hs : exec (.setdev q p) s = .next t) : Inv t := by
  by_cases hd : s.seq = .dispatch
  · have hset := h.settled hr hd rfl
    rw [exec_dispatch_setdev hd] at hs
    exact inv_checked hset hs fun _ _ => (hset.setDeviation q p).inv_complete (by simp)
  · exact (h.runsIn hw rfl hq0 hd).2.2.elim

end Exec

theorem Inv.exec {i : Instr} {s t : State} (h : Inv s) (hr : s.resetAsserted = false) (hq : s.seq ≠ .idle)
    (hw : decode s.cmdW = .ok i) (hs : exec i s = .next t) : Inv t := by
  cases i with
  | init v cap => exact h.execInit hr hq hw hs
  | calibrate => exact h.execCalibrate hr hq hw hs
  | acquire m r => exact h.execAcquire hr hq hw hs
  | read m r => exact h.execRead hr hq hw hs
  | setdev q p => exact h.execSetdev hr hq hw hs

theorem Inv.sequencerStep {s t : State} (h : Inv s) (hr : s.resetAsserted = false)
    (hs : sequencerStep s = .next t) : Inv t := by
  rcases sequencerStep_cases hs with ⟨-, rfl⟩ | ⟨hq, i, hw, he⟩ | ⟨hq, -, rfl⟩
  · exact h
  · exact h.exec hr hq hw he
  · exact (h.settled hr hq rfl).inv_complete (by simp)

/-! ### The host's turn, and what stands outside the block -/

theorem Inv.passTurn {s : State} (h : Inv s) : Inv (passTurn s) :=
  { h with in_reset := fun hr => { h.in_reset hr with } }

theorem Inv.withHostOps {s : State} (h : Inv s) (ops : List HostOp) : Inv { s with hostOps := ops } :=
  { h with in_reset := fun hr => { h.in_reset hr with } }

theorem Inv.memRead {s : State} (h : Inv s) (addr : Addr) : Inv (memRead addr s) :=
  { h with in_reset := fun hr => { h.in_reset hr with } }

theorem Inv.latchCommand {s : State} (h : Inv s) (hr : s.resetAsserted = false) (hb : s.status.busy = false) (w : Word) :
    Inv (latchCommand w s) := by
  have hq : s.seq = .idle := by
    by_contra hne
    exact absurd (hb.symm.trans (h.busy_iff.2 hne)) nofun
  have hset : Settled { s with cmdW := w, status := s.status.taken } := { h.settled hr hq rfl with }
  exact hset.inv_goto (q := .dispatch) rfl nofun ⟨rfl, rfl, rfl, rfl, rfl, rfl⟩ (fun hd => absurd rfl hd) nofun

theorem Inv.memWrite {s : State} (h : Inv s) (hr : s.resetAsserted = false) (addr : Addr) (w : Word) :
    Inv (memWrite addr w s) := by
  rcases memWrite_cases addr w s with ⟨-, e⟩ | ⟨-, -, e⟩ | ⟨-, hb, e⟩ <;> rw [e]
  · exact h
  · exact { h with in_reset := fun hr' => absurd (hr.symm.trans hr') nofun }
  · exact h.latchCommand hr hb w

theorem Inv.hostStep {s : State} (h : Inv s) (hr : s.resetAsserted = false) : Inv (hostStep s) := by
  rcases hostStep_cases s with e | ⟨addr, ops, e⟩ | ⟨addr, w, ops, e⟩ <;> rw [e]
  · exact h
  · exact (h.withHostOps ops).memRead addr
  · exact (h.withHostOps ops).memWrite hr addr w

/-! ### The statement -/

/-- Settles O50, by the agent whose turn it is; while the reset input is asserted, and when it changes, the block is
reset. -/
theorem everyStepKeepsTheInvariant : Obligations.EveryStepKeepsTheInvariant := by
  intro s t h hs
  rcases step_cases hs with ⟨-, hr, rfl⟩ | ⟨-, -, rfl⟩ | ⟨-, hr, hs'⟩ | ⟨-, -, rfl⟩ | ⟨b, -, rfl⟩
  · exact h.passTurn.hostStep hr
  · obtain ⟨-, hparams, -, -⟩ := hostStep_environment (passTurn s)
    exact inv_hardReset (hparams ▸ h.params)
  · exact h.passTurn.sequencerStep hr hs'
  · exact inv_hardReset h.params
  · exact inv_hardReset h.params

end Sys2Proof
end

section
/-! PROOF. The host register space (20_memory.md): what each address holds, what a read answers, what a write does. -/

namespace Sys2Proof.Machine

/-! ### Writes (20_memory.md R43, 45_sequencer.md R146) -/

/-- Only `CMD` takes a write. -/
theorem memWrite_of_ne {addr : Addr} (h : addr ≠ 0x00) (w : Word) (s : State) : memWrite addr w s = s := if_neg h

theorem memWrite_cmd_busy {s : State} (h : s.status.busy = true) (w : Word) :
    memWrite 0x00 w s = { s with status := { s.status with overrun := true } } :=
  if_pos h

theorem memWrite_cmd_idle {s : State} (h : s.status.busy = false) (w : Word) :
    memWrite 0x00 w s = latchCommand w s :=
  if_neg (Bool.eq_false_iff.mp h)

/-! ### The address map (20_memory.md R41) -/

/-- Past the registers an address is a slot of one of the two buffers, or reserved. -/
theorem regWord_of_ge (s : State) {addr : Addr} (h : 0x0F ≤ addr.toNat) :
    regWord s addr =
      if 0x10 ≤ addr.toNat ∧ addr.toNat < 0x20 then s.t.buf[slotOf addr]
      else if 0x20 ≤ addr.toNat ∧ addr.toNat < 0x30 then s.h.buf[slotOf addr]
      else 0 := by
  unfold regWord
  split
  case h_15 => rfl
  all_goals omega

theorem regWord_slot_t (s : State) (i : Fin 16) : regWord s (0x10 + BitVec.ofNat 6 i.val) = s.t.buf[i] := by
  have ha := slotAddr_t i
  rw [regWord_of_ge s (by omega), if_pos (by omega)]
  simp only [slotOf_t]

theorem regWord_slot_h (s : State) (i : Fin 16) : regWord s (0x20 + BitVec.ofNat 6 i.val) = s.h.buf[i] := by
  have ha := slotAddr_h i
  rw [regWord_of_ge s (by omega), if_neg (by omega), if_pos (by omega)]
  simp only [slotOf_h]

theorem regWord_reserved (s : State) {addr : Addr} (h : 0x30 ≤ addr.toNat) : regWord s addr = 0 := by
  rw [regWord_of_ge s (by omega), if_neg (by omega), if_neg (by omega)]

theorem regWord_frameLo_toNat (s : State) : (regWord s 0x05).toNat = s.frame.toNat / 256 := by
  have hf := s.frame.isLt
  change (s.frame.extractLsb' 8 32).toNat = _
  rw [BitVec.extractLsb'_toNat, Nat.shiftRight_eq_div_pow]
  omega

theorem regWord_frameHi_toNat (s : State) : (regWord s 0x06).toNat = s.frame.toNat % 256 := by
  change ((s.frame.extractLsb' 0 8).setWidth 32).toNat = _
  rw [BitVec.toNat_setWidth_of_le (by decide), BitVec.extractLsb'_toNat]
  rfl

/-! ### Reads (20_memory.md R42, R46) -/

theorem slotUnwritten_slot_t (s : State) (i : Fin 16) :
    slotUnwritten s (0x10 + BitVec.ofNat 6 i.val) = !s.t.written[i] := by
  have ha := slotAddr_t i
  unfold slotUnwritten
  rw [if_pos (by omega)]
  simp only [slotOf_t]

theorem slotUnwritten_slot_h (s : State) (i : Fin 16) :
    slotUnwritten s (0x20 + BitVec.ofNat 6 i.val) = !s.h.written[i] := by
  have ha := slotAddr_h i
  unfold slotUnwritten
  rw [if_neg (by omega), if_pos (by omega)]
  simp only [slotOf_h]

theorem slotUnwritten_outside {s : State} {addr : Addr} (h : addr.toNat < 0x10 ∨ 0x30 ≤ addr.toNat) :
    slotUnwritten s addr = false := by
  unfold slotUnwritten
  rw [if_neg (by omega), if_neg (by omega)]

/-- R46 (b): the read is of a buffer slot that no `Insert` has written. -/
theorem slotUnwritten_iff {s : State} {addr : Addr} :
    slotUnwritten s addr = true ↔
      ∃ i : Fin 16, (addr = 0x10 + BitVec.ofNat 6 i.val ∧ s.t.written[i] = false) ∨
        (addr = 0x20 + BitVec.ofNat 6 i.val ∧ s.h.written[i] = false) := by
  constructor
  · intro h
    rcases addr_cases addr with hlow | hhigh | ⟨i, rfl⟩ | ⟨i, rfl⟩
    · exact absurd h (by rw [slotUnwritten_outside (.inl hlow)]; decide)
    · exact absurd h (by rw [slotUnwritten_outside (.inr hhigh)]; decide)
    · rw [slotUnwritten_slot_t, Bool.not_eq_true'] at h
      exact ⟨i, .inl ⟨rfl, h⟩⟩
    · rw [slotUnwritten_slot_h, Bool.not_eq_true'] at h
      exact ⟨i, .inr ⟨rfl, h⟩⟩
  · rintro ⟨i, ⟨rfl, h⟩ | ⟨rfl, h⟩⟩
    · rw [slotUnwritten_slot_t, h]; rfl
    · rw [slotUnwritten_slot_h, h]; rfl

/-- The two cases of R46. -/
theorem readsUnspecified_iff {s : State} {addr : Addr} :
    readsUnspecified s addr = true ↔ (s.status.busy = true ∧ addr ≠ 0x01) ∨ slotUnwritten s addr = true := by
  simp [readsUnspecified]

theorem readAnswer_specified {s : State} {addr : Addr} (h : readsUnspecified s addr = false) :
    readAnswer s addr = regWord s addr :=
  if_neg (Bool.eq_false_iff.mp h)

theorem readAnswer_unspecified {s : State} {addr : Addr} (h : readsUnspecified s addr = true) :
    readAnswer s addr = Config.freeWord s.draws :=
  if_pos h

end Sys2Proof.Machine

namespace Sys2Proof

open Sys2Proof.Machine

/-- Settles O14: the three cases of a bus write. -/
theorem commandWriteIsTakenOrDropped : Obligations.CommandWriteIsTakenOrDropped := fun s w =>
  ⟨fun busy => memWrite_cmd_busy busy w, fun idle => memWrite_cmd_idle idle w, fun _ h => memWrite_of_ne h w s⟩

/-- Settles O16, address by address. -/
theorem registerMap : Obligations.RegisterMap := by
  intro s
  have widen16 (x : BitVec 16) : (x.setWidth 32).toNat = x.toNat := BitVec.toNat_setWidth_of_le (by decide)
  exact ⟨rfl, rfl, cfgWord_toNat s, widen16 s.threshold, widen16 s.timeout, regWord_frameLo_toNat s,
    regWord_frameHi_toNat s, rfl, rfl, rfl, rfl, widen16 s.t.dev, widen16 s.h.dev, statWord_toNat s.t,
    statWord_toNat s.h, rfl, regWord_slot_t s, regWord_slot_h s, fun _ => regWord_reserved s,
    fun _ w h => memWrite_of_ne h w s⟩

/-- Settles O17: the two cases of the statement are the ones in which `readsUnspecified` holds. -/
theorem readAnswersOrDrawsFree : Obligations.ReadAnswersOrDrawsFree := by
  intro s addr
  refine ⟨_, rfl, fun notBusy notUnwritten => ?_, fun unspecified => ?_⟩
  · have h : readsUnspecified s addr = false := by
      rw [Bool.eq_false_iff, Ne, readsUnspecified_iff, slotUnwritten_iff]
      exact fun h => h.elim notBusy notUnwritten
    exact ⟨readAnswer_specified h, if_neg (Bool.eq_false_iff.mp h)⟩
  · have h : readsUnspecified s addr = true := by
      rwa [readsUnspecified_iff, slotUnwritten_iff]
    exact ⟨readAnswer_unspecified h, if_pos h⟩

end Sys2Proof
end

section
/-! PROOF. From the bit slots of an attempt to the bits of the frame, its bytes, and the two words that hold them (20_memory.md R45, 30_encoding.md R67, 40_line_and_pulse_counter.md R88). -/

namespace Sys2Proof.Machine

/-! ### The bits of the shift register -/

/-- The bit of a slot with these counts: 0 when one of its phases timed out, else its value (R85, R86, R88). -/
def slotBit (cal : Bool) (s : State) (lo hi : Count) : Bool := !bitFails lo hi s && bitValue cal lo hi s

theorem recordBit_shreg_newest (cal : Bool) (s : State) :
    (recordBit cal s).shreg.getLsbD 0 = slotBit cal s s.loCnt s.count := by
  simp [slotBit]

theorem recordBit_shreg_older (cal : Bool) (s : State) {k : Nat} (hk : k + 1 < 40) :
    (recordBit cal s).shreg.getLsbD (k + 1) = s.shreg.getLsbD k := by
  simp [hk, Nat.lt_of_succ_lt hk]

theorem recordBits_cons (cal : Bool) (c : Count × Count) (cs : List (Count × Count)) (s : State) :
    recordBits cal (c :: cs) s = recordBits cal cs (recordBit cal { s with loCnt := c.1, count := c.2 }) := rfl

/-- Every further slot moves the bits already received one place up. -/
theorem recordBits_shreg_older (cal : Bool) (counts : List (Count × Count)) (s : State) {k : Nat}
    (hk : counts.length + k < 40) :
    (recordBits cal counts s).shreg.getLsbD (counts.length + k) = s.shreg.getLsbD k := by
  induction counts generalizing s k with
  | nil => rw [List.length_nil, Nat.zero_add]; rfl
  | cons c cs ih =>
    rw [List.length_cons] at hk ⊢
    rw [recordBits_cons, show cs.length + 1 + k = cs.length + (k + 1) by omega, ih _ (by omega)]
    exact recordBit_shreg_older cal _ (by omega)

/-- The first slot's bit ends highest; recording slots moves nothing that a slot's bit depends on. -/
theorem recordBits_shreg_slot (cal : Bool) (s : State) {counts : List (Count × Count)} (hlen : counts.length ≤ 40)
    {i : Nat} {lo hi : Count} (hslot : counts[i]? = some (lo, hi)) :
    (recordBits cal counts s).shreg.getLsbD (counts.length - 1 - i) = slotBit cal s lo hi := by
  induction counts generalizing s i with
  | nil => cases hslot
  | cons c cs ih =>
    rw [List.length_cons] at hlen ⊢
    rw [recordBits_cons]
    cases i with
    | zero =>
      cases hslot
      exact (recordBits_shreg_older cal cs _ (k := 0) hlen).trans (recordBit_shreg_newest cal _)
    | succ i =>
      rw [show cs.length + 1 - 1 - (i + 1) = cs.length - 1 - i by omega]
      exact ih _ (by omega) hslot

/-! ### The bytes of the frame -/

/-- Bit `j` of byte `k` (10_state.md R10). -/
theorem frameByte_getLsbD (f : Frame) (k : Nat) {j : Nat} (hj : j < 8) :
    (frameByte f k).getLsbD j = f.getLsbD (32 - 8 * k + j) := by
  simp [frameByte, hj]

/-- R67: `FRAME[39 - i]` is bit `7 - (i mod 8)` of byte `i div 8`. -/
theorem frameByte_getLsbD_received (f : Frame) {i : Nat} (hi : i < 40) :
    (frameByte f (i / 8)).getLsbD (7 - i % 8) = f.getLsbD (39 - i) := by
  rw [frameByte_getLsbD f _ (by omega)]
  congr 1
  omega

theorem regWord_frameLo (s : State) :
    regWord s 0x05 = frameByte s.frame 0 ++ frameByte s.frame 1 ++ frameByte s.frame 2 ++ frameByte s.frame 3 := by
  have join (start len : Nat) : s.frame.extractLsb' (start + 8) len ++ s.frame.extractLsb' start 8 =
      s.frame.extractLsb' start (len + 8) := BitVec.extractLsb'_append_extractLsb'_eq_extractLsb' rfl
  change s.frame.extractLsb' 8 32 = s.frame.extractLsb' 32 8 ++ s.frame.extractLsb' 24 8 ++ s.frame.extractLsb' 16 8 ++
    s.frame.extractLsb' 8 8
  rw [join 24, join 16, join 8]

theorem regWord_frameHi (s : State) : regWord s 0x06 = 0#24 ++ frameByte s.frame 4 :=
  BitVec.setWidth_eq_append (by decide)

end Sys2Proof.Machine

namespace Sys2Proof

open Sys2Proof.Machine

/-- Settles O24: a slot's bit is the shift register's, which the attempt's tail copies to the frame. -/
theorem receivedBitBecomesFrameBit : Obligations.ReceivedBitBecomesFrameBit := by
  intro cal s counts hlen i lo hi hi40 hslot t b
  have hbit : t.frame.getLsbD (39 - i) = b := by
    have h := recordBits_shreg_slot cal s (by omega) hslot
    rwa [hlen] at h
  exact ⟨hbit, (frameByte_getLsbD_received t.frame hi40).trans hbit, regWord_frameLo t, regWord_frameHi t⟩

end Sys2Proof
end

section
/-! PROOF. A step in the sequencer's turn, and the word that `withFetchWord` puts in place (20_memory.md R49). -/

namespace Sys2Proof

open Sys2Proof.Machine

theorem step_sequencer {s : State} (ha : nextAgent s = .sequencer) (hr : s.resetAsserted = false) :
    step s = sequencerStep (passTurn s) := by
  simp [step, machineStep, ha, hr]

theorem step_sequencer_exec {s : State} {i : Instr} (ha : nextAgent s = .sequencer) (hr : s.resetAsserted = false)
    (hq : s.seq ≠ .idle) (hw : decode s.cmdW = .ok i) : step s = exec i (passTurn s) := by
  rw [step_sequencer ha hr]
  exact sequencerStep_exec hw hq

/-- Settles O6: the first clause gives the second, since `withFetchWord` gives the sequencer the turn and latches a word
whose command is legal. -/
theorem stepRunsTheDecodedCommand : Obligations.StepRunsTheDecodedCommand := by
  refine ⟨fun s i => step_sequencer_exec, fun s w i hlt hw => ?_⟩
  have fetched : passTurn (s.withFetchWord 32 w) =
      { latchCommand (BitVec.ofNat 32 w) s with resetAsserted := false } := by
    rw [State.withFetchWord, Nat.mod_eq_of_lt hlt]; rfl
  have latched : (s.withFetchWord 32 w).cmdW = BitVec.ofNat 32 w := congrArg State.cmdW fetched
  have atDispatch : (s.withFetchWord 32 w).seq = .dispatch := rfl
  rw [← fetched]
  exact step_sequencer_exec rfl rfl (by rw [atDispatch]; decide) (latched ▸ hw)

end Sys2Proof
end

section
/-! PROOF. Command words as numbers (30_encoding.md R60 to R66, R69): the value of an encoded word and of each field of a word, and from them that decoder, encoder and assembler agree. -/

namespace Sys2Proof

/-! ### The value of an encoded word -/

/-- A field put below a word. -/
theorem toNat_append_add {m n : Nat} (x : BitVec m) (y : BitVec n) : (x ++ y).toNat = x.toNat * 2 ^ n + y.toNat := by
  rw [BitVec.toNat_append, ← Nat.shiftLeft_add_eq_or_of_lt y.isLt, Nat.shiftLeft_eq]

theorem encode_init_toNat (v : Variant) (cap : BitVec 8) :
    (encode (.init v cap)).toNat = 2 ^ 28 * 1 + 2 ^ 8 * v.bit.toNat + cap.toNat := by
  simp only [encode, toNat_append_add, BitVec.toNat_ofNat]
  omega

theorem encode_acquire_toNat (maxatt : BitVec 8) (retryMs : BitVec 16) :
    (encode (.acquire maxatt retryMs)).toNat = 2 ^ 28 * 3 + 2 ^ 16 * maxatt.toNat + retryMs.toNat := by
  simp only [encode, toNat_append_add, BitVec.toNat_ofNat]
  omega

theorem encode_read_toNat (maxatt : BitVec 8) (retryMs : BitVec 16) :
    (encode (.read maxatt retryMs)).toNat = 2 ^ 28 * 4 + 2 ^ 16 * maxatt.toNat + retryMs.toNat := by
  simp only [encode, toNat_append_add, BitVec.toNat_ofNat]
  omega

theorem encode_setdev_toNat (q : Quantity) (permille : BitVec 16) :
    (encode (.setdev q permille)).toNat = 2 ^ 28 * 5 + 2 ^ 16 * q.bit.toNat + permille.toNat := by
  simp only [encode, toNat_append_add, BitVec.toNat_ofNat]
  omega

/-! ### The value of a field -/

theorem fieldOp_toNat (w : Word) : (fieldOp w).toNat = w.toNat / 2 ^ 28 := by
  have h := w.isLt
  rw [fieldOp, BitVec.extractLsb'_toNat, Nat.shiftRight_eq_div_pow]
  omega

theorem fieldCap_toNat (w : Word) : (fieldCap w).toNat = w.toNat % 2 ^ 8 := by
  rw [fieldCap, BitVec.extractLsb'_toNat, Nat.shiftRight_zero]

theorem fieldMaxatt_toNat (w : Word) : (fieldMaxatt w).toNat = w.toNat / 2 ^ 16 % 2 ^ 8 := by
  rw [fieldMaxatt, BitVec.extractLsb'_toNat, Nat.shiftRight_eq_div_pow]

theorem fieldLow16_toNat (w : Word) : (fieldLow16 w).toNat = w.toNat % 2 ^ 16 := by
  rw [fieldLow16, BitVec.extractLsb'_toNat, Nat.shiftRight_zero]

theorem fieldVariant_bit_toNat (w : Word) : (fieldVariant w).bit.toNat = w.toNat / 2 ^ 8 % 2 := by
  rw [← Nat.toNat_testBit]
  change _ = (w.getLsbD 8).toNat
  unfold fieldVariant
  cases w.getLsbD 8 <;> rfl

theorem fieldQuantity_bit_toNat (w : Word) : (fieldQuantity w).bit.toNat = w.toNat / 2 ^ 16 % 2 := by
  rw [← Nat.toNat_testBit]
  change _ = (w.getLsbD 16).toNat
  unfold fieldQuantity
  cases w.getLsbD 16 <;> rfl

theorem Variant.bit_toNat_inj {u v : Variant} (h : u.bit.toNat = v.bit.toNat) : u = v := by
  cases u <;> cases v <;> simp_all [Variant.bit]

theorem Quantity.bit_toNat_inj {p q : Quantity} (h : p.bit.toNat = q.bit.toNat) : p = q := by
  cases p <;> cases q <;> simp_all [Quantity.bit]

/-! ### Fitting a row of the opcode table (R66 (b)) -/

theorem Row.fits_iff {r : Row} {w : Word} : r.fits w = true ↔ w &&& r.mask = r.pattern := beq_iff_eq

/-- A mask that keeps the bits from bit `n` on, as every row's does, compares the numbers these bits are. -/
theorem and_highMask_eq_iff {w pattern : Word} (n : Nat) (hp : 2 ^ n ∣ pattern.toNat) :
    w &&& (BitVec.allOnes 32 <<< n) = pattern ↔ w.toNat / 2 ^ n = pattern.toNat / 2 ^ n := by
  have high : (w &&& (BitVec.allOnes 32 <<< n)).toNat = w.toNat / 2 ^ n * 2 ^ n := by
    rw [← BitVec.shiftLeft_ushiftRight, BitVec.toNat_shiftLeft, BitVec.toNat_ushiftRight, Nat.shiftRight_eq_div_pow,
      Nat.shiftLeft_eq]
    exact Nat.mod_eq_of_lt ((Nat.div_mul_le_self _ _).trans_lt w.isLt)
  rw [← BitVec.toNat_inj, high]
  exact ⟨fun h => by rw [← h, Nat.mul_div_cancel _ (by positivity)], fun h => by rw [h, Nat.div_mul_cancel hp]⟩

theorem rowInit_fits {w : Word} : rowInit.fits w = true ↔ w.toNat / 2 ^ 9 = 0x80000 :=
  Row.fits_iff.trans (and_highMask_eq_iff 9 (by decide))

theorem rowCalibrate_fits {w : Word} : rowCalibrate.fits w = true ↔ w = 0x20000000 := by
  rw [Row.fits_iff]; change w &&& BitVec.allOnes 32 = _ ↔ _; rw [BitVec.and_allOnes]; rfl

theorem rowAcquire_fits {w : Word} : rowAcquire.fits w = true ↔ w.toNat / 2 ^ 24 = 0x30 :=
  Row.fits_iff.trans (and_highMask_eq_iff 24 (by decide))

theorem rowRead_fits {w : Word} : rowRead.fits w = true ↔ w.toNat / 2 ^ 24 = 0x40 :=
  Row.fits_iff.trans (and_highMask_eq_iff 24 (by decide))

theorem rowSetdev_fits {w : Word} : rowSetdev.fits w = true ↔ w.toNat / 2 ^ 17 = 0x2800 :=
  Row.fits_iff.trans (and_highMask_eq_iff 17 (by decide))

/-! ### The decoder, opcode by opcode -/

section Decoder

variable {w : Word}

theorem decode_op_init (h : (fieldOp w).toNat = 1) :
    decode w = if rowInit.fits w then .ok (.init (fieldVariant w) (fieldCap w)) else .error .mustBeZero := by
  simp only [decode, h]

theorem decode_op_calibrate (h : (fieldOp w).toNat = 2) :
    decode w = if rowCalibrate.fits w then .ok .calibrate else .error .mustBeZero := by
  simp only [decode, h]

theorem decode_op_acquire (h : (fieldOp w).toNat = 3) :
    decode w = if rowAcquire.fits w then .ok (.acquire (fieldMaxatt w) (fieldLow16 w)) else .error .mustBeZero := by
  simp only [decode, h]

theorem decode_op_read (h : (fieldOp w).toNat = 4) :
    decode w = if rowRead.fits w then .ok (.read (fieldMaxatt w) (fieldLow16 w)) else .error .mustBeZero := by
  simp only [decode, h]

theorem decode_op_setdev (h : (fieldOp w).toNat = 5) :
    decode w = if rowSetdev.fits w then .ok (.setdev (fieldQuantity w) (fieldLow16 w)) else .error .mustBeZero := by
  simp only [decode, h]

theorem decode_op_unassigned (h : (fieldOp w).toNat = 0 ∨ 6 ≤ (fieldOp w).toNat) :
    decode w = .error .unassignedOpcode := by
  unfold decode
  split
  case h_6 => rfl
  all_goals omega

end Decoder

/-- An opcode is one of the five assigned ones, or unassigned. -/
theorem fieldOp_cases (w : Word) : (fieldOp w).toNat = 1 ∨ (fieldOp w).toNat = 2 ∨ (fieldOp w).toNat = 3 ∨
    (fieldOp w).toNat = 4 ∨ (fieldOp w).toNat = 5 ∨ (fieldOp w).toNat = 0 ∨ 6 ≤ (fieldOp w).toNat := by
  omega

/-! ### Decoding an encoded command -/

theorem decode_encode_init (v : Variant) (cap : BitVec 8) : decode (encode (.init v cap)) = .ok (.init v cap) := by
  have word := encode_init_toNat v cap
  have hv := v.bit.isLt
  have hcap := cap.isLt
  have op : (fieldOp (encode (.init v cap))).toNat = 1 := by rw [fieldOp_toNat]; omega
  have flag : fieldVariant (encode (.init v cap)) = v := Variant.bit_toNat_inj (by rw [fieldVariant_bit_toNat]; omega)
  have low : fieldCap (encode (.init v cap)) = cap := BitVec.eq_of_toNat_eq (by rw [fieldCap_toNat]; omega)
  rw [decode_op_init op, flag, low]
  exact if_pos (Laws.EncodedWordFitsItsRow.init v cap)

/-- The fields of a word of format A (R63). -/
theorem formatA_fields {w : Word} {op : Nat} {maxatt : BitVec 8} {retryMs : BitVec 16}
    (word : w.toNat = 2 ^ 28 * op + 2 ^ 16 * maxatt.toNat + retryMs.toNat) :
    (fieldOp w).toNat = op ∧ fieldMaxatt w = maxatt ∧ fieldLow16 w = retryMs := by
  have hm := maxatt.isLt
  have hr := retryMs.isLt
  refine ⟨?_, BitVec.eq_of_toNat_eq ?_, BitVec.eq_of_toNat_eq ?_⟩
  · rw [fieldOp_toNat]; omega
  · rw [fieldMaxatt_toNat]; omega
  · rw [fieldLow16_toNat]; omega

theorem decode_encode_acquire (maxatt : BitVec 8) (retryMs : BitVec 16) :
    decode (encode (.acquire maxatt retryMs)) = .ok (.acquire maxatt retryMs) := by
  obtain ⟨op, high, low⟩ := formatA_fields (encode_acquire_toNat maxatt retryMs)
  rw [decode_op_acquire op, high, low]
  exact if_pos (Laws.EncodedWordFitsItsRow.acquire maxatt retryMs)

theorem decode_encode_read (maxatt : BitVec 8) (retryMs : BitVec 16) :
    decode (encode (.read maxatt retryMs)) = .ok (.read maxatt retryMs) := by
  obtain ⟨op, high, low⟩ := formatA_fields (encode_read_toNat maxatt retryMs)
  rw [decode_op_read op, high, low]
  exact if_pos (Laws.EncodedWordFitsItsRow.read maxatt retryMs)

theorem decode_encode_setdev (q : Quantity) (permille : BitVec 16) :
    decode (encode (.setdev q permille)) = .ok (.setdev q permille) := by
  have word := encode_setdev_toNat q permille
  have hq := q.bit.isLt
  have hp := permille.isLt
  have op : (fieldOp (encode (.setdev q permille))).toNat = 5 := by rw [fieldOp_toNat]; omega
  have flag : fieldQuantity (encode (.setdev q permille)) = q :=
    Quantity.bit_toNat_inj (by rw [fieldQuantity_bit_toNat]; omega)
  have low : fieldLow16 (encode (.setdev q permille)) = permille :=
    BitVec.eq_of_toNat_eq (by rw [fieldLow16_toNat]; omega)
  rw [decode_op_setdev op, flag, low]
  exact if_pos (Laws.EncodedWordFitsItsRow.setdev q permille)

/-- Settles O1: the encoded word has the opcode of its command, fits its row, and holds each operand in its field. -/
theorem decodeEncodeRoundTrip : Obligations.DecodeEncodeRoundTrip := fun i =>
  match i with
  | .init v cap => decode_encode_init v cap
  | .calibrate => rfl
  | .acquire maxatt retryMs => decode_encode_acquire maxatt retryMs
  | .read maxatt retryMs => decode_encode_read maxatt retryMs
  | .setdev q permille => decode_encode_setdev q permille

/-! ### Encoding a decoded word -/

theorem encode_fields_init {w : Word} (h : rowInit.fits w = true) :
    encode (.init (fieldVariant w) (fieldCap w)) = w := by
  rw [rowInit_fits] at h
  apply BitVec.eq_of_toNat_eq
  rw [encode_init_toNat, fieldVariant_bit_toNat, fieldCap_toNat]
  omega

theorem encode_fields_acquire {w : Word} (h : rowAcquire.fits w = true) :
    encode (.acquire (fieldMaxatt w) (fieldLow16 w)) = w := by
  rw [rowAcquire_fits] at h
  apply BitVec.eq_of_toNat_eq
  rw [encode_acquire_toNat, fieldMaxatt_toNat, fieldLow16_toNat]
  omega

theorem encode_fields_read {w : Word} (h : rowRead.fits w = true) :
    encode (.read (fieldMaxatt w) (fieldLow16 w)) = w := by
  rw [rowRead_fits] at h
  apply BitVec.eq_of_toNat_eq
  rw [encode_read_toNat, fieldMaxatt_toNat, fieldLow16_toNat]
  omega

theorem encode_fields_setdev {w : Word} (h : rowSetdev.fits w = true) :
    encode (.setdev (fieldQuantity w) (fieldLow16 w)) = w := by
  rw [rowSetdev_fits] at h
  apply BitVec.eq_of_toNat_eq
  rw [encode_setdev_toNat, fieldQuantity_bit_toNat, fieldLow16_toNat]
  omega

/-- A word that decodes fits the row of its command, whose operands are the word's fields. -/
theorem decode_ok_cases {w : Word} {i : Instr} (h : decode w = .ok i) :
    (rowInit.fits w = true ∧ i = .init (fieldVariant w) (fieldCap w)) ∨
    (rowCalibrate.fits w = true ∧ i = .calibrate) ∨
    (rowAcquire.fits w = true ∧ i = .acquire (fieldMaxatt w) (fieldLow16 w)) ∨
    (rowRead.fits w = true ∧ i = .read (fieldMaxatt w) (fieldLow16 w)) ∨
    (rowSetdev.fits w = true ∧ i = .setdev (fieldQuantity w) (fieldLow16 w)) := by
  unfold decode at h
  split at h
  case h_6 => cases h
  all_goals
    split at h
    · next hfits => cases h; simp [hfits]
    · cases h

/-- Settles O2: a word's fields and the fixed bits of the row it fits are all its bits. -/
theorem encodeDecodeRoundTrip : Obligations.EncodeDecodeRoundTrip := by
  intro w i h
  rcases decode_ok_cases h with ⟨fits, rfl⟩ | ⟨fits, rfl⟩ | ⟨fits, rfl⟩ | ⟨fits, rfl⟩ | ⟨fits, rfl⟩
  · exact encode_fields_init fits
  · exact (rowCalibrate_fits.mp fits).symm
  · exact encode_fields_acquire fits
  · exact encode_fields_read fits
  · exact encode_fields_setdev fits

/-! ### The illegal words -/

/-- Under an assigned opcode no word is rejected as unassigned (R66 (b)). -/
theorem row_check_ne_unassigned {c : Prop} [Decidable c] (i : Instr) :
    (if c then Except.ok i else .error .mustBeZero) ≠ .error DecodeError.unassignedOpcode := by
  split <;> nofun

/-- Settles O3: at each opcode the decoder compares the word with that opcode's row, or with none. -/
theorem decodeRejectsOpcodeThenMustBeZero : Obligations.DecodeRejectsOpcodeThenMustBeZero := by
  intro w
  rw [← fieldOp_toNat]
  rcases fieldOp_cases w with h | h | h | h | h | h
  · rw [decode_op_init h]
    simp [h, row_check_ne_unassigned, Row.fits_iff, rowInit]
  · rw [decode_op_calibrate h]
    simp [h, row_check_ne_unassigned, rowCalibrate_fits]
  · rw [decode_op_acquire h]
    simp [h, row_check_ne_unassigned, Row.fits_iff, rowAcquire]
  · rw [decode_op_read h]
    simp [h, row_check_ne_unassigned, Row.fits_iff, rowRead]
  · rw [decode_op_setdev h]
    simp [h, row_check_ne_unassigned, Row.fits_iff, rowSetdev]
  · rw [decode_op_unassigned h]
    exact ⟨iff_of_true rfl h, iff_of_false nofun (by omega)⟩

/-- Settles O4: each word is the encoded word of its command. -/
theorem decodeKnownWords : Obligations.DecodeKnownWords :=
  ⟨decodeEncodeRoundTrip (.init .b 0), decodeEncodeRoundTrip (.init .a 7), decodeEncodeRoundTrip .calibrate,
    decodeEncodeRoundTrip (.acquire 5 100), decodeEncodeRoundTrip (.read 0xFF 0),
    decodeEncodeRoundTrip (.setdev .humidity 100)⟩

/-! ### The assembler's table (R69) -/

/-- An or of bits that do not overlap is their sum. -/
theorem toNat_or_add {x y : Word} {n : Nat} (hx : 2 ^ n ∣ x.toNat) (hy : y.toNat < 2 ^ n) :
    (x ||| y).toNat = x.toNat + y.toNat := by
  obtain ⟨k, hk⟩ := hx
  rw [BitVec.toNat_or, hk, Nat.two_pow_add_eq_or_of_lt hy]

/-- What the table writes: the opcode, a bit or budget shifted left by `n`, the low field. -/
theorem shift_or_toNat {op x y : Word} (n : Nat) (hn : n ≤ 28) (hop : 2 ^ 28 ∣ op.toNat)
    (hx : 2 ^ n * x.toNat < 2 ^ 28) (hy : y.toNat < 2 ^ n) :
    (op ||| x <<< n ||| y).toNat = op.toNat + 2 ^ n * x.toNat + y.toNat := by
  have shifted : (x <<< n).toNat = 2 ^ n * x.toNat := by
    rw [BitVec.toNat_shiftLeft, Nat.shiftLeft_eq, mul_comm, Nat.mod_eq_of_lt (by omega)]
  have upper : (op ||| x <<< n).toNat = op.toNat + 2 ^ n * x.toNat := by
    rw [toNat_or_add hop (by rwa [shifted]), shifted]
  have clear : 2 ^ n ∣ (op ||| x <<< n).toNat := by
    rw [upper]
    exact dvd_add ((pow_dvd_pow 2 hn).trans hop) (dvd_mul_right _ _)
  rw [toNat_or_add clear hy, upper]

theorem ofInt_natCast_toNat {n : Nat} (h : n < 2 ^ 32) : (BitVec.ofInt 32 (n : Int)).toNat = n := by
  rw [BitVec.ofInt_natCast, BitVec.toNat_ofNat, Nat.mod_eq_of_lt h]

/-- Masking an attempt budget to eight bits gives its field, for a negative budget too. -/
theorem ofInt_toInt_and_0xFF (m : BitVec 8) : (BitVec.ofInt 32 m.toInt &&& 0xFF).toNat = m.toNat := by
  have hm := m.isLt
  have h := m.toInt_eq_toNat_cond
  rw [BitVec.toNat_and, BitVec.toNat_ofInt]
  change _ &&& (2 ^ 8 - 1) = _
  rw [Nat.and_two_pow_sub_one_eq_mod]
  omega

theorem assemble_init (v : Variant) (cap : BitVec 8) :
    0x10000000 ||| BitVec.ofInt 32 v.bit.toNat <<< 8 ||| BitVec.ofInt 32 cap.toNat = encode (.init v cap) := by
  have hv := v.bit.isLt
  have hc := cap.isLt
  have flag : (BitVec.ofInt 32 (v.bit.toNat : Int)).toNat = v.bit.toNat := ofInt_natCast_toNat (by omega)
  have low : (BitVec.ofInt 32 (cap.toNat : Int)).toNat = cap.toNat := ofInt_natCast_toNat (by omega)
  apply BitVec.eq_of_toNat_eq
  rw [shift_or_toNat 8 (by decide) (by decide) (by omega) (by omega), flag, low, encode_init_toNat]
  rfl

theorem assemble_setdev (q : Quantity) (permille : BitVec 16) :
    0x50000000 ||| BitVec.ofInt 32 q.bit.toNat <<< 16 ||| BitVec.ofInt 32 permille.toNat =
      encode (.setdev q permille) := by
  have hq := q.bit.isLt
  have hp := permille.isLt
  have flag : (BitVec.ofInt 32 (q.bit.toNat : Int)).toNat = q.bit.toNat := ofInt_natCast_toNat (by omega)
  have low : (BitVec.ofInt 32 (permille.toNat : Int)).toNat = permille.toNat := ofInt_natCast_toNat (by omega)
  apply BitVec.eq_of_toNat_eq
  rw [shift_or_toNat 16 (by decide) (by decide) (by omega) (by omega), flag, low, encode_setdev_toNat]
  rfl

/-- The table's word of format A (R63), for either opcode. -/
theorem assemble_formatA_toNat {op : Word} (hop : 2 ^ 28 ∣ op.toNat) (maxatt : BitVec 8) (retryMs : BitVec 16) :
    (op ||| (BitVec.ofInt 32 maxatt.toInt &&& 0xFF) <<< 16 ||| BitVec.ofInt 32 retryMs.toNat).toNat =
      op.toNat + 2 ^ 16 * maxatt.toNat + retryMs.toNat := by
  have hm := maxatt.isLt
  have hr := retryMs.isLt
  have high := ofInt_toInt_and_0xFF maxatt
  have low : (BitVec.ofInt 32 (retryMs.toNat : Int)).toNat = retryMs.toNat := ofInt_natCast_toNat (by omega)
  rw [shift_or_toNat 16 (by decide) hop (by omega) (by omega), high, low]

/-- Settles O5: the table's word and the encoded word are the same number. -/
theorem assemblerWritesTheEncodedWord : Obligations.AssemblerWritesTheEncodedWord := fun i =>
  match i with
  | .init v cap => congrArg some (assemble_init v cap)
  | .calibrate => rfl
  | .acquire maxatt retryMs => congrArg some (BitVec.eq_of_toNat_eq
      ((assemble_formatA_toNat (by decide) maxatt retryMs).trans (encode_acquire_toNat maxatt retryMs).symm))
  | .read maxatt retryMs => congrArg some (BitVec.eq_of_toNat_eq
      ((assemble_formatA_toNat (by decide) maxatt retryMs).trans (encode_read_toNat maxatt retryMs).symm))
  | .setdev q permille => congrArg some (assemble_setdev q permille)

end Sys2Proof
end

section
/-! PROOF. Refusals at DISPATCH (30_encoding.md R66): a word that is no command, operands out of range, a command before INIT. -/

namespace Sys2Proof

open Sys2Proof.Machine

/-- At `DISPATCH` every command first makes its checks. -/
theorem exec_dispatch_checked (i : Instr) {s : State} (h : s.seq = .dispatch) :
    ∃ t, exec i s = checked i s (.next t) :=
  match i with
  | .init _ _ => ⟨_, exec_dispatch_init h⟩
  | .calibrate => ⟨_, exec_dispatch_calibrate h⟩
  | .acquire _ _ => ⟨_, exec_dispatch_acquire h⟩
  | .read _ _ => ⟨_, exec_dispatch_read h⟩
  | .setdev _ _ => ⟨_, exec_dispatch_setdev h⟩

theorem exec_dispatch_illFormed {i : Instr} {s : State} (h : s.seq = .dispatch) (hw : i.wellFormed = false) :
    exec i s = .next (raise .invalidArgument s) := by
  obtain ⟨t, e⟩ := exec_dispatch_checked i h
  rw [e, checked_illFormed _ hw]

theorem exec_dispatch_notInitialised {i : Instr} {s : State} (h : s.seq = .dispatch) (hw : i.wellFormed = true)
    (hn : needsInit i = true) (hi : s.status.inited = false) : exec i s = .next (raise .notInitialised s) := by
  obtain ⟨t, e⟩ := exec_dispatch_checked i h
  rw [e, checked_notInitialised _ hw hn hi]

theorem sequencerStep_dispatch_illegal {s : State} {e : DecodeError} (h : s.seq = .dispatch)
    (hw : decode s.cmdW = .error e) : sequencerStep s = .next (raise .illegalCommand s) := by
  simp only [sequencerStep, h, hw]

/-- Settles O8. -/
theorem illegalWordCompletesWithIllegalCommand : Obligations.IllegalWordCompletesWithIllegalCommand := by
  intro s e calm atDispatch illegal
  rw [step_running calm (by rw [atDispatch]; decide), sequencerStep_dispatch_illegal atDispatch illegal]
  rfl

/-- Settles O9: the operand check comes first, and fails. -/
theorem operandOutOfRangeIsRefused : Obligations.OperandOutOfRangeIsRefused := by
  intro s atDispatch
  refine ⟨fun v cap h => exec_dispatch_illFormed atDispatch ?_, fun maxatt retryMs h =>
    ⟨exec_dispatch_illFormed atDispatch ?_, exec_dispatch_illFormed atDispatch ?_⟩⟩
  · rw [Bool.eq_false_iff, Ne, wellFormed_init]; omega
  · rw [Bool.eq_false_iff, Ne, wellFormed_acquire]; omega
  · rw [Bool.eq_false_iff, Ne, wellFormed_read]; omega

/-- Settles O10: the operand check passes, the one for `INITED` fails. -/
theorem commandBeforeInitIsRefused : Obligations.CommandBeforeInitIsRefused := by
  intro s i atDispatch notInited notInit inRange
  cases i with
  | init v cap => exact absurd rfl (notInit v cap)
  | calibrate => exact exec_dispatch_notInitialised atDispatch rfl rfl notInited
  | acquire maxatt retryMs =>
    exact exec_dispatch_notInitialised atDispatch (wellFormed_acquire.mpr (inRange _ _ (.inl rfl))) rfl notInited
  | read maxatt retryMs =>
    exact exec_dispatch_notInitialised atDispatch (wellFormed_read.mpr (inRange _ _ (.inr rfl))) rfl notInited
  | setdev q permille => exact exec_dispatch_notInitialised atDispatch rfl rfl notInited

end Sys2Proof
end

section
/-! PROOF. The sequencer refines the procedures (45_sequencer.md R152): from `DISPATCH` an undisturbed command reaches the state its procedure ends in, but for the control registers. -/

namespace Sys2Proof

open Sys2Proof.Machine

/-- The state with its control registers, which no procedure writes, at given values. -/
def inControl (q : Seq) (p : Phase) (k : Fin 40) (s : State) : State := { s with seq := q, phase := p, bitIdx := k }

/-- A command that makes attempts is latched, and nothing comes between its steps. -/
structure Attempting (i : Instr) (s : State) : Prop where
  notSetdev : ∀ q permille, i ≠ .setdev q permille
  undisturbed : Undisturbed s
  latched : decode s.cmdW = .ok i

theorem Attempting.of_sameOutside {i : Instr} {s t : State} (h : Attempting i s) (same : SameOutside t s) :
    Attempting i t where
  notSetdev := h.notSetdev
  undisturbed :=
    ⟨(same.congr State.turns fun _ => rfl).trans h.undisturbed.1,
      (same.congr State.resetAsserted fun _ => rfl).trans h.undisturbed.2⟩
  latched := same.cmdW ▸ h.latched

theorem Attempting.of_sameButLine {i : Instr} {s t : State} (h : Attempting i s) (same : SameButLine t s) :
    Attempting i t := h.of_sameOutside same.toSameOutside

theorem Attempting.step_own {i : Instr} {s : State} (h : Attempting i s) {q : Seq} {p : Phase} {k : Fin 40}
    (hq : q ≠ .idle) : step (inControl q p k s) = exec i (inControl q p k s) :=
  step_exec (s := inControl q p k s) h.undisturbed h.latched hq

/-! ### One attempt (40_line_and_pulse_counter.md R82 to R88) -/

section Attempt

variable {i : Instr} {s : State} {p : Phase} {k : Fin 40}

theorem reaches_poll (h : Attempting i s) :
    Reaches (inControl .poll p k s)
      (if lineLevel s ≠ p.level then inControl .phaseEnd p k (portRead s)
        else inControl .pdelay p k (countPoll (portRead s))) :=
  .step (step_poll h.notSetdev h.undisturbed h.latched rfl)

theorem reaches_pdelay (h : Attempting i s) :
    Reaches (inControl .pdelay p k s)
      (inControl (if s.count = s.timeout then .phaseEnd else .poll) p k (portDelayMicros s.params.pollUs s)) :=
  .step (step_pdelay h.notSetdev h.undisturbed h.latched rfl)

theorem reaches_phaseEnd (h : Attempting i s) :
    Reaches (inControl .phaseEnd p k s) (phaseEndStep (calibrates i) (inControl .phaseEnd p k s)) :=
  .step (step_phaseEnd h.notSetdev h.undisturbed h.latched rfl)

/-- `POLL` and `PDELAY` alternate as the loop of `WaitWhile` does. -/
theorem reaches_waitLoop {left : Nat} (h : Attempting i s) (hleft : 1 ≤ left)
    (hcount : s.count.toNat + left = s.timeout.toNat) :
    Reaches (inControl .poll p k s) (inControl .phaseEnd p k (waitLoop p.level left s)) := by
  induction left generalizing s with
  | zero => omega
  | succ n ih =>
    have poll := reaches_poll (p := p) (k := k) h
    rw [waitLoop]
    by_cases hlevel : lineLevel s ≠ p.level
    · rw [if_pos hlevel] at poll ⊢
      exact poll
    · rw [if_neg hlevel] at poll ⊢
      have counted : (s.count + 1).toNat = s.count.toNat + 1 := by
        have := s.timeout.isLt
        rw [BitVec.toNat_add]
        exact Nat.mod_eq_of_lt (by change _ + 1 < _; omega)
      have same : SameButLine (countPoll (portRead s)) s := rfl
      have delay := reaches_pdelay (p := p) (k := k) (h.of_sameButLine same)
      rw [countPoll_count, portRead_count, same.timeout] at delay
      refine poll.trans (delay.trans ?_)
      cases n with
      | zero =>
        rw [if_pos (BitVec.eq_of_toNat_eq (by omega)), waitLoop]
        exact Reaches.refl _
      | succ n =>
        have more : s.count + 1 ≠ s.timeout := fun e => by rw [e] at counted; omega
        have delayed := (sameButLine_portDelayMicros (countPoll (portRead s)).params.pollUs _).trans same
        rw [if_neg more]
        refine ih (h.of_sameButLine delayed) (by omega) ?_
        rw [portDelayMicros_count, countPoll_count, portRead_count, delayed.timeout]
        omega

/-- A phase is counted as `WaitWhile` counts it (R82); `TIMEOUT` is at least 1, so it makes its first poll. -/
theorem reaches_waitWhile (h : Attempting i s) (ht : 1 ≤ s.timeout.toNat) :
    Reaches (inControl .poll p k (clearCount s)) (inControl .phaseEnd p k (waitWhile p.level s)) :=
  reaches_waitLoop (h.of_sameButLine rfl) ht (Nat.zero_add _)

theorem waitWhile_timeout (l : Level) (s : State) : (waitWhile l s).timeout = s.timeout :=
  (sameButLine_waitWhile l s).timeout

/-- The six steps of the handshake (R83). -/
theorem reaches_handshake (h : Attempting i s) :
    Reaches (inControl .hs0 p k s) (inControl .poll .ackLow k (clearCount (handshake (clearAttempt s)))) := by
  have output : Reaches (inControl .hs0 p k s) (inControl .hs1 p k (portSetMode .output (clearAttempt s))) :=
    .step (step_hs0 h.notSetdev h.undisturbed h.latched rfl)
  have low {x : State} (hx : Attempting i x) : Reaches (inControl .hs1 p k x) (inControl .hs2 p k (portWrite .low x)) :=
    .step (step_hs1 hx.notSetdev hx.undisturbed hx.latched rfl)
  have hold {x : State} (hx : Attempting i x) :
      Reaches (inControl .hs2 p k x) (inControl .hs3 p k (portDelayMillis Config.startLowMs x)) :=
    .step (step_hs2 hx.notSetdev hx.undisturbed hx.latched rfl)
  have high {x : State} (hx : Attempting i x) :
      Reaches (inControl .hs3 p k x) (inControl .hs4 p k (portWrite .high x)) :=
    .step (step_hs3 hx.notSetdev hx.undisturbed hx.latched rfl)
  have wait {x : State} (hx : Attempting i x) :
      Reaches (inControl .hs4 p k x) (inControl .hs5 p k (portDelayMicros x.params.startHighUs x)) :=
    .step (step_hs4 hx.notSetdev hx.undisturbed hx.latched rfl)
  have input {x : State} (hx : Attempting i x) :
      Reaches (inControl .hs5 p k x) (inControl .poll .ackLow k (clearCount (portSetMode .input x))) :=
    .step (step_hs5 hx.notSetdev hx.undisturbed hx.latched rfl)
  have h1 : Attempting i (portSetMode .output (clearAttempt s)) := h.of_sameButLine rfl
  have h2 := h1.of_sameButLine (sameButLine_portWrite .low _)
  have h3 := h2.of_sameButLine (sameButLine_portDelayMillis Config.startLowMs _)
  have h4 := h3.of_sameButLine (sameButLine_portWrite .high _)
  have h5 := h4.of_sameButLine (sameButLine_portDelayMicros s.params.startHighUs _)
  exact output.trans <| (low h1).trans <| (hold h2).trans <| (high h3).trans <| (wait h4).trans (input h5)

/-- The acknowledgment's two phases (R84). -/
theorem reaches_ackSkip (h : Attempting i s) (ht : 1 ≤ s.timeout.toNat) :
    Reaches (inControl .poll .ackLow k (clearCount s)) (inControl .poll .bitLow 0 (clearCount (ackSkip s))) := by
  have hlow := h.of_sameButLine (sameButLine_waitWhile .low s)
  have hhigh := h.of_sameButLine (sameButLine_ackSkip s)
  have lowEnd : Reaches (inControl .phaseEnd .ackLow k (waitWhile .low s))
      (inControl .poll .ackHigh k (clearCount (waitWhile .low s))) :=
    reaches_phaseEnd hlow
  have highEnd : Reaches (inControl .phaseEnd .ackHigh k (ackSkip s))
      (inControl .poll .bitLow 0 (clearCount (ackSkip s))) :=
    reaches_phaseEnd hhigh
  exact (reaches_waitWhile h ht).trans <| lowEnd.trans <|
    (reaches_waitWhile hlow (by rwa [waitWhile_timeout])).trans highEnd

/-- The two phases of a bit slot, up to the end of the second (R85). -/
theorem reaches_bitRead (h : Attempting i s) (ht : 1 ≤ s.timeout.toNat) :
    Reaches (inControl .poll .bitLow k (clearCount s)) (inControl .phaseEnd .bitHigh k (bitRead s)) := by
  have hlow := h.of_sameButLine (sameButLine_waitWhile .low s)
  have lowEnd : Reaches (inControl .phaseEnd .bitLow k (waitWhile .low s))
      (inControl .poll .bitHigh k (clearCount (saveLow (waitWhile .low s)))) :=
    reaches_phaseEnd hlow
  exact (reaches_waitWhile h ht).trans <| lowEnd.trans <|
    reaches_waitWhile (hlow.of_sameButLine (sameButLine_saveLow _)) (by rwa [saveLow_timeout, waitWhile_timeout])

/-- One bit slot: the procedure's turn of the loop, then the next slot or, after the last, `ATT_END` (R88). -/
theorem reaches_bitSlot (h : Attempting i s) (ht : 1 ≤ s.timeout.toNat) :
    Reaches (inControl .poll .bitLow k (clearCount s))
      (if k < 39 then inControl .poll .bitLow (k + 1) (clearCount (recordBit (calibrates i) (bitRead s)))
        else inControl .attEnd .bitHigh k (recordBit (calibrates i) (bitRead s))) := by
  exact (reaches_bitRead h ht).trans (reaches_phaseEnd (h.of_sameButLine (sameButLine_bitRead s)))

/-- From the slot with `bit_idx = k` on, the sequencer's bit loop is the procedure's (R88). -/
theorem reaches_readBits {n : Nat} (h : Attempting i s) (ht : 1 ≤ s.timeout.toNat) (hk : k.val + n = 39) :
    Reaches (inControl .poll .bitLow k (clearCount s))
      (inControl .attEnd .bitHigh 39 (readBits (calibrates i) (n + 1) s)) := by
  induction n generalizing k s with
  | zero =>
    obtain rfl : k = 39 := Fin.ext hk
    exact reaches_bitSlot h ht
  | succ n ih =>
    have more : k < 39 := Fin.lt_def.mpr (by change k.val < 39; omega)
    have next : (k + 1).val = k.val + 1 := Fin.val_add_one_of_lt more
    have slot := reaches_bitSlot (k := k) h ht
    rw [if_pos more] at slot
    have same : SameButLine (recordBit (calibrates i) (bitRead s)) s :=
      (sameButLine_recordBit _ _).trans (sameButLine_bitRead s)
    exact slot.trans (ih (h.of_sameButLine same) (by rwa [same.timeout]) (by omega))

/-- From the handshake to `ATT_END` the sequencer does what an attempt does up to the end of its bit loop (R88). -/
theorem reaches_attemptBits (h : Attempting i s) (ht : 1 ≤ s.timeout.toNat) :
    Reaches (inControl .hs0 p k s) (inControl .attEnd .bitHigh 39 (attemptBits (calibrates i) s)) := by
  have same : SameButLine (handshake (clearAttempt s)) s := sameButLine_handshake _
  have same' : SameButLine (ackSkip (handshake (clearAttempt s))) s := (sameButLine_ackSkip _).trans same
  exact (reaches_handshake h).trans <|
    (reaches_ackSkip (h.of_sameButLine same) (by rwa [same.timeout])).trans <|
      reaches_readBits (h.of_sameButLine same') (by rwa [same'.timeout]) rfl

/-- The attempt up to its tail, then the command's own `ATT_END` step (45_sequencer.md R153). -/
theorem reaches_attEnd (h : Attempting i s) (ht : 1 ≤ s.timeout.toNat) {attEnd : State → State}
    (hatt : ∀ x : State, x.seq = .attEnd → exec i x = .next (attEnd x)) :
    Reaches (inControl .hs0 p k s) (attEnd (inControl .attEnd .bitHigh 39 (attemptBits (calibrates i) s))) := by
  have hbits := h.of_sameButLine (sameButLine_attemptBits (calibrates i) s)
  exact (reaches_attemptBits h ht).trans (.step ((hbits.step_own (by decide)).trans (hatt _ rfl)))

theorem attempt_timeout (cal : Bool) (s : State) : (attempt cal s).timeout = s.timeout := by
  rw [attempt_eq, attemptTail_timeout, (sameButLine_attemptBits cal s).timeout]

theorem attempt_calN (cal : Bool) (s : State) : (attempt cal s).calN = s.calN := by
  rw [attempt_eq, attemptTail_calN, (sameButLine_attemptBits cal s).calN]

theorem Attempting.attempt (h : Attempting i s) (cal : Bool) : Attempting i (attempt cal s) :=
  h.of_sameOutside (sameOutside_attempt cal s)

end Attempt

/-! ### The calibration loop (41_calibrator.md R100) -/

theorem calibrateLoop_success {n : Nat} {s : State} (h : (attempt true s).cause = .none) :
    calibrateLoop (n + 1) s = complete true .none (calibrateSuccess (attempt true s)) := by
  rw [calibrateLoop]
  exact if_pos h

theorem calibrateLoop_failure {n : Nat} {s : State} (h : (attempt true s).cause ≠ .none) :
    calibrateLoop (n + 1) s = calibrateLoop n (countCalFailure (attempt true s)) := by
  rw [calibrateLoop]
  exact if_neg h

/-- The `ATT_END` step of `INIT` and `CALIBRATE`, seen from the procedure's attempt. -/
theorem calibrationAttEnd_attempt (s : State) (p : Phase) (k : Fin 40) :
    calibrationAttEnd (inControl .attEnd p k (attemptBits true s)) =
      if (attempt true s).cause = .none then
        inControl .idle p k (complete true .none (calibrateSuccess (attempt true s)))
      else if (s.calN + 1).val = 5 then
        inControl .idle p k (complete false .calibrationFallback
          (calibrateFallback (countCalFailure (attempt true s))))
      else inControl .hs0 p k (countCalFailure (attempt true s)) := by
  rw [attempt_eq, ← (sameButLine_attemptBits true s).calN]
  generalize attemptBits true s = bits
  rfl

theorem sameOutside_countCalFailure (s : State) : SameOutside (countCalFailure s) s := rfl

/-- With `cal_n` failures counted the sequencer has as many attempts left as the procedure's loop. -/
theorem reaches_calibrateLoop {i : Instr} {s : State} {p : Phase} {k : Fin 40} {n : Nat} (h : Attempting i s)
    (ht : 1 ≤ s.timeout.toNat) (hcal : calibrates i = true)
    (hatt : ∀ x : State, x.seq = .attEnd → exec i x = .next (calibrationAttEnd x)) (hn : s.calN.val + n = 4) :
    Reaches (inControl .hs0 p k s) (inControl .idle .bitHigh 39 (calibrateLoop (n + 1) s)) := by
  induction n generalizing p k s with
  | zero =>
    have tried := reaches_attEnd (p := p) (k := k) h ht hatt
    have last : (s.calN + 1).val = 5 := by
      rw [Fin.val_add_one_of_lt (Fin.lt_def.mpr (by change s.calN.val < 5; omega))]; omega
    rw [hcal, calibrationAttEnd_attempt, if_pos last] at tried
    by_cases hcause : (attempt true s).cause = .none
    · rwa [if_pos hcause, ← calibrateLoop_success hcause] at tried
    · rw [if_neg hcause] at tried
      rwa [calibrateLoop_failure hcause, calibrateLoop]
  | succ n ih =>
    have tried := reaches_attEnd (p := p) (k := k) h ht hatt
    have counted : (s.calN + 1).val = s.calN.val + 1 :=
      Fin.val_add_one_of_lt (Fin.lt_def.mpr (by change s.calN.val < 5; omega))
    rw [hcal, calibrationAttEnd_attempt, if_neg (c := (s.calN + 1).val = 5) (by omega)] at tried
    by_cases hcause : (attempt true s).cause = .none
    · rwa [if_pos hcause, ← calibrateLoop_success hcause] at tried
    · rw [if_neg hcause] at tried
      rw [calibrateLoop_failure hcause]
      refine tried.trans (ih ((h.attempt true).of_sameOutside (sameOutside_countCalFailure _)) ?_ ?_)
      · rwa [countCalFailure_timeout, attempt_timeout]
      · rw [countCalFailure_calN, attempt_calN]; omega

/-! ### The retry loop (42_frame_acquirer.md R110) -/

theorem acquireLoop_success {m : BitVec 8} {r : BitVec 16} {fuel : Nat} {s : State}
    (h : (attempt false s).cause = .none) : acquireLoop m r (fuel + 1) s = some (attempt false s) := by
  rw [acquireLoop]
  exact if_pos h

theorem acquireLoop_failure {m : BitVec 8} {r : BitVec 16} {fuel : Nat} {s : State}
    (h : (attempt false s).cause ≠ .none) :
    acquireLoop m r (fuel + 1) s =
      if budgetExhausted m (countAttempt m (attempt false s)) then some (countAttempt m (attempt false s))
      else acquireLoop m r fuel (portDelayMillis (retryMsValue r) (countAttempt m (attempt false s))) := by
  rw [acquireLoop]
  exact if_neg h

theorem sameOutside_countAttempt (m : BitVec 8) (s : State) : SameOutside (countAttempt m s) s := rfl

/-- The `ATT_END` step of `ACQUIRE` and `READ`, seen from the procedure's attempt. -/
theorem acquireAttEnd_attempt (m : BitVec 8) (success : State → State) (s : State) (p : Phase) (k : Fin 40) :
    acquireAttEnd m success (inControl .attEnd p k (attemptBits false s)) =
      if (attempt false s).cause = .none then success (inControl .attEnd p k (attempt false s))
      else if budgetExhausted m (countAttempt m (attempt false s)) then
        inControl .idle p k (complete false (attempt false s).cause (countAttempt m (attempt false s)))
      else inControl .retry p k (countAttempt m (attempt false s)) := by
  rw [attempt_eq]
  generalize attemptBits false s = bits
  rfl

/-- Where `ACQUIRE` or `READ` stands when its retry loop is over: on its way to `success`, or completed with the last
attempt's cause. -/
def afterAcquire (success : State → State) (a : State) : State :=
  if a.cause = .none then success (inControl .attEnd .bitHigh 39 a)
  else inControl .idle .bitHigh 39 (complete false a.cause a)

theorem reaches_retry {i : Instr} {r : BitVec 16} {s : State} {p : Phase} {k : Fin 40} (h : Attempting i s)
    (hretry : ∀ x : State, x.seq = .retry → exec i x = .next (retryStep r x)) :
    Reaches (inControl .retry p k s) (inControl .hs0 p k (portDelayMillis (retryMsValue r) s)) :=
  .step ((h.step_own (by decide)).trans (hretry _ rfl))

/-- The sequencer's retry loop is the procedure's. -/
theorem reaches_acquireLoop {i : Instr} {m : BitVec 8} {r : BitVec 16} {success : State → State} {s a : State}
    {p : Phase} {k : Fin 40} {fuel : Nat} (h : Attempting i s) (ht : 1 ≤ s.timeout.toNat)
    (hcal : calibrates i = false)
    (hatt : ∀ x : State, x.seq = .attEnd → exec i x = .next (acquireAttEnd m success x))
    (hretry : ∀ x : State, x.seq = .retry → exec i x = .next (retryStep r x))
    (hloop : acquireLoop m r fuel s = some a) : Reaches (inControl .hs0 p k s) (afterAcquire success a) := by
  induction fuel generalizing p k s with
  | zero => cases hloop
  | succ fuel ih =>
    have tried := reaches_attEnd (p := p) (k := k) h ht hatt
    rw [hcal, acquireAttEnd_attempt] at tried
    by_cases hcause : (attempt false s).cause = .none
    · rw [acquireLoop_success hcause, Option.some.injEq] at hloop
      rw [if_pos hcause] at tried
      rwa [← hloop, afterAcquire, if_pos hcause]
    · rw [acquireLoop_failure hcause] at hloop
      rw [if_neg hcause] at tried
      by_cases hb : budgetExhausted m (countAttempt m (attempt false s)) = true
      · rw [if_pos hb, Option.some.injEq] at hloop
        rw [if_pos hb] at tried
        rwa [← hloop, afterAcquire, countAttempt_cause, if_neg hcause]
      · rw [if_neg hb] at hloop tried
        have hcounted := (h.attempt false).of_sameOutside (sameOutside_countAttempt m _)
        refine tried.trans ((reaches_retry hcounted hretry).trans
          (ih (hcounted.of_sameButLine (sameButLine_portDelayMillis _ _)) ?_ hloop))
        rwa [portDelayMillis_timeout, countAttempt_timeout, attempt_timeout]

/-! ### Whole commands -/

/-- The checks of 30_encoding.md R66 are the procedure's; a command that fails one completes in its `DISPATCH` step. -/
theorem reaches_checked {i : Instr} {s t go : State} {result : Option State} (calm : Undisturbed s)
    (hq : s.seq = .dispatch) (hw : decode s.cmdW = .ok i) (he : exec i s = checked i s (.next go))
    (hp : checkedProcedure i s result = some t)
    (hgo : result = some t → ∃ p k, Reaches go (inControl .idle p k t)) :
    ∃ p k, Reaches s (inControl .idle p k t) := by
  have hstep : step s = checked i s (.next go) := (step_exec calm hw (by rw [hq]; decide)).trans he
  rcases checked_cases i s (.next go) with ⟨wf, e⟩ | ⟨wf, hn, hi, e⟩ | ⟨wf, hi, e⟩
  · rw [checkedProcedure, if_pos wf, Option.some.injEq] at hp
    exact ⟨s.phase, s.bitIdx, hp ▸ .step (hstep.trans e)⟩
  · rw [checkedProcedure, if_neg (by simp [wf]), if_pos ⟨hn, hi⟩, Option.some.injEq] at hp
    exact ⟨s.phase, s.bitIdx, hp ▸ .step (hstep.trans e)⟩
  · rw [checkedProcedure_pass _ wf hi] at hp
    obtain ⟨p, k, run⟩ := hgo hp
    exact ⟨p, k, (Reaches.step (hstep.trans e)).trans run⟩

theorem exec_attEnd_init {v : Variant} {cap : BitVec 8} (x : State) (h : x.seq = .attEnd) :
    exec (.init v cap) x = .next (calibrationAttEnd x) := by
  simp only [exec, execInit, controlStep, h]

theorem exec_attEnd_calibrate (x : State) (h : x.seq = .attEnd) : exec .calibrate x = .next (calibrationAttEnd x) := by
  simp only [exec, execCalibrate, controlStep, h]

theorem exec_attEnd_acquire {m : BitVec 8} {r : BitVec 16} (x : State) (h : x.seq = .attEnd) :
    exec (.acquire m r) x = .next (acquireAttEnd m (complete true .none) x) := by
  simp only [exec, execAcquire, controlStep, h]

theorem exec_attEnd_read {m : BitVec 8} {r : BitVec 16} (x : State) (h : x.seq = .attEnd) :
    exec (.read m r) x = .next (acquireAttEnd m (goto .filter) x) := by
  simp only [exec, execRead, controlStep, h]

theorem exec_retry_acquire {m : BitVec 8} {r : BitVec 16} (x : State) (h : x.seq = .retry) :
    exec (.acquire m r) x = .next (retryStep r x) := by
  simp only [exec, execAcquire, controlStep, h]

theorem exec_retry_read {m : BitVec 8} {r : BitVec 16} (x : State) (h : x.seq = .retry) :
    exec (.read m r) x = .next (retryStep r x) := by
  simp only [exec, execRead, controlStep, h]

theorem exec_filter_read {m : BitVec 8} {r : BitVec 16} (x : State) (h : x.seq = .filter) :
    exec (.read m r) x = .next (filterStep x) := by
  simp only [exec, execRead, controlStep, h]

/-- A retry loop changes no more than its attempts do. -/
theorem sameOutside_acquireLoop {s : State} {m : BitVec 8} {r : BitVec 16} {fuel : Nat} {a : State}
    (h : acquireLoop m r fuel s = some a) : SameOutside a s := by
  induction fuel generalizing s with
  | zero => cases h
  | succ fuel ih =>
    have tried := sameOutside_attempt false s
    have counted := (sameOutside_countAttempt m (attempt false s)).trans tried
    by_cases hcause : (attempt false s).cause = .none
    · rw [acquireLoop_success hcause, Option.some.injEq] at h
      subst h
      exact tried
    · rw [acquireLoop_failure hcause] at h
      split at h
      · cases h; exact counted
      · exact (ih h).trans ((sameButLine_portDelayMillis _ _).toSameOutside.trans counted)

theorem sameOutside_acquireFrame {s a : State} {m : BitVec 8} {r : BitVec 16} {fuel : Nat}
    (h : acquireFrame fuel m r s = some a) : SameOutside a s :=
  (sameOutside_acquireLoop h).trans rfl

theorem filterStep_inControl (q : Seq) (p : Phase) (k : Fin 40) (s : State) :
    filterStep (inControl q p k s) = inControl .idle p k (filterStep s) := by
  rcases filterStep_cases s with ⟨ht, hh, e⟩ | ⟨hn, e⟩
  · rw [e]
    exact if_pos ⟨ht, hh⟩
  · rw [e]
    exact if_neg hn

section Commands

variable {i : Instr} {s t : State}

/-- From the first attempt on, `INIT` and `CALIBRATE` are `Calibrate()` (41_calibrator.md R100). -/
theorem reaches_calibrateAndComplete (h : Attempting i s) (ht : 1 ≤ s.timeout.toNat) (hcal : calibrates i = true)
    (hatt : ∀ x : State, x.seq = .attEnd → exec i x = .next (calibrationAttEnd x)) :
    ∃ p k, Reaches (startCalibration s) (inControl .idle p k (calibrateAndComplete s)) :=
  ⟨_, _, reaches_calibrateLoop (n := 4) (h.of_sameOutside (t := clearCalN s) rfl) ht hcal hatt rfl⟩

/-- From the first attempt on, `ACQUIRE` and `READ` are `AcquireFrame`, then their own end (R110). -/
theorem reaches_acquireFrame {m : BitVec 8} {r : BitVec 16} {success : State → State} {a : State} {fuel : Nat}
    (h : Attempting i s) (ht : 1 ≤ s.timeout.toNat) (hcal : calibrates i = false)
    (hatt : ∀ x : State, x.seq = .attEnd → exec i x = .next (acquireAttEnd m success x))
    (hretry : ∀ x : State, x.seq = .retry → exec i x = .next (retryStep r x))
    (hframe : acquireFrame fuel m r s = some a) : Reaches (startAcquire s) (afterAcquire success a) :=
  reaches_acquireLoop (p := s.phase) (k := s.bitIdx) (h.of_sameOutside (t := clearAttN s) rfl) ht hcal hatt hretry
    hframe

theorem reaches_init {v : Variant} {cap : BitVec 8} {fuel : Nat} (calm : Undisturbed s) (hq : s.seq = .dispatch)
    (hw : decode s.cmdW = .ok (.init v cap)) (ht : 1 ≤ s.params.timeoutInit.toNat)
    (hp : procedure fuel (.init v cap) s = some t) : ∃ p k, Reaches s (inControl .idle p k t) := by
  refine reaches_checked calm hq hw (exec_dispatch_init hq) hp fun hgo => ?_
  rw [← Option.some.inj hgo]
  exact reaches_calibrateAndComplete (i := .init v cap) ⟨nofun, calm, hw⟩ ht rfl exec_attEnd_init

theorem reaches_calibrate {fuel : Nat} (calm : Undisturbed s) (hq : s.seq = .dispatch)
    (hw : decode s.cmdW = .ok .calibrate) (ht : 1 ≤ s.timeout.toNat) (hp : procedure fuel .calibrate s = some t) :
    ∃ p k, Reaches s (inControl .idle p k t) := by
  refine reaches_checked calm hq hw (exec_dispatch_calibrate hq) hp fun hgo => ?_
  rw [← Option.some.inj hgo]
  exact reaches_calibrateAndComplete (i := .calibrate) ⟨nofun, calm, hw⟩ ht rfl exec_attEnd_calibrate

theorem reaches_acquire {m : BitVec 8} {r : BitVec 16} {fuel : Nat} (calm : Undisturbed s) (hq : s.seq = .dispatch)
    (hw : decode s.cmdW = .ok (.acquire m r)) (ht : 1 ≤ s.timeout.toNat)
    (hp : procedure fuel (.acquire m r) s = some t) : ∃ p k, Reaches s (inControl .idle p k t) := by
  refine reaches_checked calm hq hw (exec_dispatch_acquire hq) hp fun hgo => ?_
  obtain ⟨a, hframe, rfl⟩ := Option.map_eq_some_iff.mp hgo
  have run := reaches_acquireFrame (i := .acquire m r) ⟨nofun, calm, hw⟩ ht rfl exec_attEnd_acquire
    exec_retry_acquire hframe
  refine ⟨.bitHigh, 39, ?_⟩
  by_cases hcause : a.cause = .none
  · rw [afterAcquire, if_pos hcause] at run
    rw [hcause]
    exact run
  · rw [afterAcquire, if_neg hcause] at run
    rwa [decide_eq_false hcause]

theorem reaches_read {m : BitVec 8} {r : BitVec 16} {fuel : Nat} (calm : Undisturbed s) (hq : s.seq = .dispatch)
    (hw : decode s.cmdW = .ok (.read m r)) (ht : 1 ≤ s.timeout.toNat)
    (hp : procedure fuel (.read m r) s = some t) : ∃ p k, Reaches s (inControl .idle p k t) := by
  refine reaches_checked calm hq hw (exec_dispatch_read hq) hp fun hgo => ?_
  obtain ⟨a, hframe, rfl⟩ := Option.map_eq_some_iff.mp hgo
  have start : Attempting (.read m r) s := ⟨nofun, calm, hw⟩
  have run := reaches_acquireFrame start ht rfl exec_attEnd_read exec_retry_read hframe
  refine ⟨.bitHigh, 39, ?_⟩
  by_cases hcause : a.cause = .none
  · rw [afterAcquire, if_pos hcause] at run
    rw [if_pos hcause]
    have acquired : Attempting (.read m r) a := start.of_sameOutside (sameOutside_acquireFrame hframe)
    have filter : Reaches (inControl .filter .bitHigh 39 a) (filterStep (inControl .filter .bitHigh 39 a)) :=
      .step ((acquired.step_own (by decide)).trans (exec_filter_read _ rfl))
    rw [filterStep_inControl] at filter
    exact run.trans filter
  · rw [afterAcquire, if_neg hcause] at run
    rwa [if_neg hcause]

theorem reaches_setdev {q : Quantity} {permille : BitVec 16} {fuel : Nat} (calm : Undisturbed s)
    (hq : s.seq = .dispatch) (hw : decode s.cmdW = .ok (.setdev q permille))
    (hp : procedure fuel (.setdev q permille) s = some t) : ∃ p k, Reaches s (inControl .idle p k t) := by
  refine reaches_checked calm hq hw (exec_dispatch_setdev hq) hp fun hgo => ?_
  cases hgo
  exact ⟨_, _, Reaches.refl (complete true .none (setDeviation q permille s))⟩

/-- From `DISPATCH` the sequencer reaches the state the command's procedure ends in, at `IDLE`, but for the values of
`phase` and `bit_idx` (R152). -/
theorem reaches_procedure {fuel : Nat} (calm : Undisturbed s) (hq : s.seq = .dispatch) (hw : decode s.cmdW = .ok i)
    (ht : 1 ≤ (timeoutOf i s).toNat) (hp : procedure fuel i s = some t) :
    ∃ p k, Reaches s (inControl .idle p k t) :=
  match i with
  | .init _ _ => reaches_init calm hq hw ht hp
  | .calibrate => reaches_calibrate calm hq hw ht hp
  | .acquire _ _ => reaches_acquire calm hq hw ht hp
  | .read _ _ => reaches_read calm hq hw ht hp
  | .setdev _ _ => reaches_setdev calm hq hw hp

end Commands

end Sys2Proof
end

section
/-! PROOF. The pseudo-operations (30_encoding.md R69, R72): blocking calls on an idle block, what they return, and the operand of a deviation fraction. -/

namespace Sys2Proof

open Sys2Proof.Machine

/-! ### What a command leaves outside the block -/

/-- The turns, the reset input and the host's side: no procedure writes them. -/
def hostSide (s : State) : List Agent × Bool × List HostOp × List (Addr × Word) × Nat :=
  (s.turns, s.resetAsserted, s.hostOps, s.answers, s.draws)

theorem hostSide_eq_iff {x y : State} : hostSide x = hostSide y ↔
    x.turns = y.turns ∧ x.resetAsserted = y.resetAsserted ∧ x.hostOps = y.hostOps ∧ x.answers = y.answers ∧
      x.draws = y.draws := by
  simp [hostSide]

theorem Machine.SameOutside.hostSide {x y : State} (h : SameOutside x y) : hostSide x = hostSide y :=
  h.congr Sys2Proof.hostSide fun _ => rfl

/-- The command is over, and has left the host's side as it was in `s`. -/
def CompletesFrom (s t : State) : Prop := ∃ ok err x, t = complete ok err x ∧ hostSide x = hostSide s

theorem CompletesFrom.hostOps {s t : State} (h : CompletesFrom s t) : t.hostOps = s.hostOps := by
  obtain ⟨ok, err, x, rfl, same⟩ := h
  obtain ⟨-, -, hostOps, -⟩ := hostSide_eq_iff.mp same
  exact hostOps

theorem CompletesFrom.answers {s t : State} (h : CompletesFrom s t) : t.answers = s.answers := by
  obtain ⟨ok, err, x, rfl, same⟩ := h
  obtain ⟨-, -, -, answers, -⟩ := hostSide_eq_iff.mp same
  exact answers

theorem completesFrom_raise (err : ErrorCode) (s : State) : CompletesFrom s (raise err s) :=
  ⟨false, err, s, rfl, rfl⟩

theorem sameOutside_calibrateSuccess (s : State) : SameOutside (calibrateSuccess s) s := rfl

theorem completesFrom_calibrateLoop (n : Nat) (s : State) : CompletesFrom s (calibrateLoop n s) := by
  induction n generalizing s with
  | zero => exact ⟨false, .calibrationFallback, calibrateFallback s, rfl, rfl⟩
  | succ n ih =>
    have tried := sameOutside_attempt true s
    by_cases hcause : (attempt true s).cause = .none
    · exact ⟨_, _, _, calibrateLoop_success hcause, ((sameOutside_calibrateSuccess _).trans tried).hostSide⟩
    · rw [calibrateLoop_failure hcause]
      obtain ⟨ok, err, x, e, same⟩ := ih (countCalFailure (attempt true s))
      exact ⟨ok, err, x, e, same.trans ((sameOutside_countCalFailure _).trans tried).hostSide⟩

theorem completesFrom_filterStep (s : State) : CompletesFrom s (filterStep s) := by
  rcases filterStep_cases s with ⟨_, _, e⟩ | ⟨_, e⟩ <;> exact ⟨_, _, _, e, rfl⟩

theorem completesFrom_checked {i : Instr} {s t : State} {result : Option State}
    (h : checkedProcedure i s result = some t) (hgo : result = some t → CompletesFrom s t) : CompletesFrom s t := by
  unfold checkedProcedure at h
  split at h
  · cases h; exact completesFrom_raise _ s
  · split at h
    · cases h; exact completesFrom_raise _ s
    · exact hgo h

/-- Every procedure ends with the completion of its command (45_sequencer.md R148). -/
theorem completesFrom_procedure {i : Instr} {s t : State} {fuel : Nat} (h : procedure fuel i s = some t) :
    CompletesFrom s t := by
  refine completesFrom_checked h fun hgo => ?_
  cases i with
  | init v cap =>
    rw [← Option.some.inj hgo]
    exact completesFrom_calibrateLoop _ (clearCalN (initAssign v cap s))
  | calibrate =>
    rw [← Option.some.inj hgo]
    exact completesFrom_calibrateLoop _ (clearCalN s)
  | acquire m r =>
    obtain ⟨a, hframe, rfl⟩ := Option.map_eq_some_iff.mp hgo
    exact ⟨_, _, a, rfl, (sameOutside_acquireFrame hframe).hostSide⟩
  | read m r =>
    obtain ⟨a, hframe, rfl⟩ := Option.map_eq_some_iff.mp hgo
    have acquired := (sameOutside_acquireFrame hframe).hostSide
    split
    · obtain ⟨ok, err, x, e, same⟩ := completesFrom_filterStep a
      exact ⟨ok, err, x, e, same.trans acquired⟩
    · exact ⟨_, _, a, rfl, acquired⟩
  | setdev q permille =>
    rw [← Option.some.inj hgo]
    refine ⟨_, _, _, rfl, ?_⟩
    cases q <;> rfl

/-! ### Host operations on an idle block -/

/-- Nothing runs and nothing comes between: the host moves next. -/
structure IdleBlock (s : State) : Prop where
  undisturbed : Undisturbed s
  idle : s.seq = .idle
  notBusy : s.status.busy = false

theorem CompletesFrom.idleBlock {s t : State} (h : CompletesFrom s t) (calm : Undisturbed s) : IdleBlock t := by
  obtain ⟨ok, err, x, rfl, same⟩ := h
  obtain ⟨turns, resetAsserted, -⟩ := hostSide_eq_iff.mp same
  exact ⟨⟨turns.trans calm.1, resetAsserted.trans calm.2⟩, rfl, rfl⟩

section IdleBlock

variable {s : State} {rest : List HostOp}

theorem step_host (calm : Undisturbed s) (idle : s.seq = .idle) (pending : s.hostOps ≠ []) :
    step s = .next (hostStep s) := by
  simp [step, machineStep, nextAgent, holdReset, calm.1, calm.2, idle, pending, passTurn_nil calm.1]

theorem step_write_cmd {w : Word} (h : IdleBlock s) (hops : s.hostOps = .write 0x00 w :: rest) :
    step s = .next (latchCommand w { s with hostOps := rest }) := by
  rw [step_host h.undisturbed h.idle (by simp [hops]), hostStep, hops]
  exact congrArg _ (memWrite_cmd_idle (s := { s with hostOps := rest }) h.notBusy w)

/-- While no command runs a read of an address outside the buffers answers its register's word (20_memory.md R46). -/
theorem memRead_idle {addr : Addr} (notBusy : s.status.busy = false) (outside : addr.toNat < 0x10) :
    memRead addr s = { s with answers := (addr, regWord s addr) :: s.answers } := by
  have specified : readsUnspecified s addr = false := by
    rw [readsUnspecified, notBusy, slotUnwritten_outside (.inl outside)]; rfl
  rw [memRead, readAnswer_specified specified, specified]
  rfl

theorem step_read {addr : Addr} (h : IdleBlock s) (outside : addr.toNat < 0x10)
    (hops : s.hostOps = .read addr :: rest) :
    step s = .next { s with hostOps := rest, answers := (addr, regWord s addr) :: s.answers } := by
  rw [step_host h.undisturbed h.idle (by simp [hops]), hostStep, hops]
  exact congrArg _ (memRead_idle (s := { s with hostOps := rest }) h.notBusy outside)

theorem step_wait (h : IdleBlock s) (hops : s.hostOps = .wait :: rest) :
    step s = .next { s with hostOps := rest, answers := (0x01, s.status.toWord) :: s.answers } := by
  rw [step_host h.undisturbed h.idle (by simp [hops]), hostStep, hops]
  simp only [h.notBusy]
  exact congrArg _ (memRead_idle (s := { s with hostOps := rest }) h.notBusy (by decide))

end IdleBlock

/-! ### The deviation fraction -/

theorem abs_sub_roundNearest_le (x : Rat) : |x - roundNearest x| ≤ 1 / 2 := by
  have below : (x.floor : Rat) ≤ x := Rat.floor_le x
  have above : x < (x.floor : Rat) + 1 := by exact_mod_cast Rat.lt_floor_add_one x
  unfold roundNearest
  simp only []
  rw [abs_le]
  split
  · constructor <;> linarith
  · split
    · push_cast; constructor <;> linarith
    · split <;> push_cast <;> constructor <;> linarith

/-- Two integers within 1/2 of a value, one of them by less, are equal. -/
theorem roundNearest_eq {x : Rat} {n : Int} (h : |x - n| < 1 / 2) : roundNearest x = n := by
  have near := abs_sub_roundNearest_le x
  rw [abs_le] at near
  rw [abs_lt] at h
  have below : ((roundNearest x : Int) : Rat) < n + 1 := by linarith
  have above : (n : Rat) < roundNearest x + 1 := by linarith
  have below' : roundNearest x < n + 1 := by exact_mod_cast below
  have above' : n < roundNearest x + 1 := by exact_mod_cast above
  omega

theorem setMaxDeviationOps_eq_some {q : Quantity} {f : Rat} {ops : List HostOp}
    (h : setMaxDeviationOps q f = some ops) :
    ∃ permille : BitVec 16, (permille.toNat : Int) = perMille f ∧ ops = commandLine (.setdev q permille) := by
  unfold setMaxDeviationOps at h
  split at h
  · next range =>
    refine ⟨BitVec.ofInt 16 (perMille f), ?_, (Option.some.inj h).symm⟩
    rw [BitVec.toNat_ofInt]
    omega
  · cases h

theorem setMaxDeviationOps_of_perMille {q : Quantity} {f : Rat} {permille : BitVec 16}
    (h : perMille f = permille.toNat) : setMaxDeviationOps q f = some (commandLine (.setdev q permille)) := by
  have hp := permille.isLt
  unfold setMaxDeviationOps
  rw [h, if_pos (by omega), BitVec.ofInt_natCast, BitVec.ofNat_toNat, BitVec.setWidth_eq]

/-! ### What the host's record says (R72) -/

theorem waitResult_status {s : State} {f : Status} {answers : List (Addr × Word)}
    (h : s.answers = (0x01, f.toWord) :: answers) (notBusy : f.busy = false) : waitResult s = some f.ok := by
  obtain ⟨busy, -, ok, -⟩ := toWord_flags f
  rw [waitResult, h, List.find?_cons_of_pos (by rw [busy, notBusy]; rfl), Option.map_some, ok]

/-- Reads of other registers do not change what the last `WAIT` returned. -/
theorem waitResult_cons {s t : State} {addr : Addr} {w : Word} (h : t.answers = (addr, w) :: s.answers)
    (other : addr ≠ 0x01) : waitResult t = waitResult s := by
  rw [waitResult, h, List.find?_cons_of_neg, waitResult]
  rw [beq_eq_false_iff_ne.mpr other]
  exact Bool.false_ne_true

theorem lastAnswer_same {s : State} {addr : Addr} {w : Word} {answers : List (Addr × Word)}
    (h : s.answers = (addr, w) :: answers) : lastAnswer addr s = some w := by
  rw [lastAnswer, h, List.find?_cons_of_pos (by simp), Option.map_some]

theorem lastAnswer_cons {s t : State} {addr addr' : Addr} {w : Word} (h : t.answers = (addr', w) :: s.answers)
    (other : addr' ≠ addr) : lastAnswer addr t = lastAnswer addr s := by
  rw [lastAnswer, h, List.find?_cons_of_neg (by simp [other]), lastAnswer]

/-- `FRAME_LO` and `FRAME_HI` together are the frame (20_memory.md R41). -/
theorem frameWords_eq (f : Frame) :
    f.extractLsb' 8 32 ++ ((f.extractLsb' 0 8).setWidth 32).extractLsb' 0 8 = f := by
  have low : ((f.extractLsb' 0 8).setWidth 32).extractLsb' 0 8 = f.extractLsb' 0 8 := by
    rw [← BitVec.setWidth_eq_extractLsb' (by decide), BitVec.setWidth_setWidth_of_le _ (by decide),
      BitVec.setWidth_eq]
  rw [low]
  exact (BitVec.extractLsb'_append_extractLsb'_eq_extractLsb' rfl).trans BitVec.extractLsb'_eq_self

theorem acquireFrameResult_eq {s u v : State} {ok : Bool} {lo hi : Word} (hok : waitResult s = some ok)
    (hlo : u.answers = (0x05, lo) :: s.answers) (hhi : v.answers = (0x06, hi) :: u.answers) :
    acquireFrameResult v = some (ok, lo ++ hi.extractLsb' 0 8) := by
  have waited : waitResult v = some ok := by rw [waitResult_cons hhi (by decide), waitResult_cons hlo (by decide), hok]
  have low : lastAnswer 0x05 v = some lo := by rw [lastAnswer_cons hhi (by decide), lastAnswer_same hlo]
  rw [acquireFrameResult, waited, low, lastAnswer_same hhi]

/-- After a `WAIT`, reading `FRAME_LO` and `FRAME_HI` gives the result of `acquireFrame` (R72). -/
theorem reaches_acquireFrameResult {s : State} {ok : Bool} (h : IdleBlock s)
    (hops : s.hostOps = [.read 0x05, .read 0x06]) (hok : waitResult s = some ok) :
    ∃ v, Reaches s v ∧ v.hostOps = [] ∧ acquireFrameResult v = some (ok, s.frame) := by
  have lo := step_read h (by decide) hops
  have hi := step_read (s := { s with hostOps := [.read 0x06], answers := (0x05, regWord s 0x05) :: s.answers })
    ⟨h.undisturbed, h.idle, h.notBusy⟩ (by decide) rfl
  refine ⟨_, (Reaches.step lo).trans (.step hi), rfl, (acquireFrameResult_eq hok rfl rfl).trans ?_⟩
  exact congrArg (fun f => some (ok, f)) (frameWords_eq s.frame)

/-- What a blocking call does on an idle block: the command's procedure, then one answered read of `STATUS` (R69). -/
theorem reaches_commandLine {i : Instr} {s t : State} {fuel : Nat} {rest : List HostOp} (h : IdleBlock s)
    (ht : 1 ≤ (timeoutOf i s).toNat)
    (hp : procedure fuel i (latchCommand (encode i) { s with hostOps := .wait :: rest }) = some t)
    (hops : s.hostOps = commandLine i ++ rest) :
    IdleBlock t ∧ ∃ p k, Reaches s (inControl .idle p k
      { t with hostOps := rest, answers := (0x01, t.status.toWord) :: s.answers }) := by
  have ht' : 1 ≤ (timeoutOf i (latchCommand (encode i) { s with hostOps := .wait :: rest })).toNat := by
    cases i <;> exact ht
  obtain ⟨p, k, run⟩ := reaches_procedure (s := latchCommand (encode i) { s with hostOps := .wait :: rest })
    h.undisturbed rfl (decodeEncodeRoundTrip i) ht' hp
  have ended := completesFrom_procedure hp
  have done : IdleBlock t := ended.idleBlock h.undisturbed
  have wait := step_wait (s := inControl .idle p k t) ⟨done.undisturbed, rfl, done.notBusy⟩ ended.hostOps
  rw [show (inControl .idle p k t).answers = s.answers from ended.answers] at wait
  exact ⟨done, p, k, (Reaches.step (step_write_cmd h hops)).trans (run.trans (.step wait))⟩

theorem controlErased_inControl {q : Seq} {p : Phase} {k : Fin 40} {s : State} (h : s.seq = q) :
    controlErased (inControl q p k s) = controlErased s := by
  subst h
  rfl

/-- Settles O60: a blocking call is the run to the procedure's end and one answered `WAIT`; the last readings are one
read each; the operand of a fraction is rounded. -/
theorem pseudoOperationsReturnTheirResults : Obligations.PseudoOperationsReturnTheirResults := by
  refine ⟨fun i s t fuel rest calm idle notBusy ht hp hops => ?_, fun s calm idle notBusy => ?_,
    fun q f ops h => ?_, fun q f permille h => ?_⟩
  · obtain ⟨done, p, k, run⟩ := reaches_commandLine ⟨calm, idle, notBusy⟩ ht hp hops
    have waited := waitResult_status (s := inControl .idle p k
      { t with hostOps := rest, answers := (0x01, t.status.toWord) :: s.answers }) rfl done.notBusy
    refine ⟨_, run, waited, controlErased_inControl done.idle, fun maxatt retryMs hi hacquire => ?_⟩
    subst hi
    have hrest : rest = [.read 0x05, .read 0x06] := List.append_cancel_left (hops.symm.trans hacquire)
    exact reaches_acquireFrameResult ⟨done.undisturbed, rfl, done.notBusy⟩ hrest waited
  · have block : IdleBlock s := ⟨calm, idle, notBusy⟩
    refine ⟨fun hops => ⟨_, step_read block (by decide) hops, ?_⟩,
      fun hops => ⟨_, step_read block (by decide) hops, ?_⟩⟩
    · rw [lastTemperatureResult, lastAnswer_same rfl]
      rfl
    · rw [lastHumidityResult, lastAnswer_same rfl]
      rfl
  · obtain ⟨permille, operand, rfl⟩ := setMaxDeviationOps_eq_some h
    have near := abs_sub_roundNearest_le (f * 1000)
    rw [← perMille, ← operand] at near
    exact ⟨permille, rfl, near⟩
  · exact setMaxDeviationOps_of_perMille (roundNearest_eq h)

end Sys2Proof
end

section
/-! PROOF. The handshake (40_line_and_pulse_counter.md R83): what it leaves, and which steps drive the line. -/

namespace Sys2Proof.Machine

/-! ### The handshake as a procedure -/

@[simp] theorem handshake_bitErr (s : State) : (handshake s).bitErr = s.bitErr := by simp [handshake]
@[simp] theorem handshake_sumLow (s : State) : (handshake s).sumLow = s.sumLow := by simp [handshake]
@[simp] theorem handshake_maxHigh (s : State) : (handshake s).maxHigh = s.maxHigh := by simp [handshake]
@[simp] theorem handshake_script (s : State) : (handshake s).script = s.script := by simp [handshake]
@[simp] theorem handshake_trace (s : State) : (handshake s).trace =
    [.mode .input, .delayUs s.params.startHighUs, .write .high, .delayMs 18, .write .low, .mode .output] ++
      s.trace := by
  simp [handshake, Config.startLowMs]

/-! ### Mode and latch -/

/-- The mode and the output latch are the same (R80, R83). -/
def SameDrive (t s : State) : Prop := t.dqOe = s.dqOe ∧ t.dqOut = s.dqOut

theorem SameDrive.trans {u t s : State} (h : SameDrive u t) (k : SameDrive t s) : SameDrive u s :=
  ⟨h.1.trans k.1, h.2.trans k.2⟩

/-! ### What the steps that do not drive the line keep -/

theorem sameDrive_complete (ok : Bool) (err : ErrorCode) (s : State) : SameDrive (complete ok err s) s := ⟨rfl, rfl⟩

theorem sameDrive_pollStep (s : State) : SameDrive (pollStep s) s := by
  rw [pollStep_eq]
  split
  · exact ⟨rfl, rfl⟩
  · exact ⟨rfl, rfl⟩

theorem sameDrive_phaseEndStep (cal : Bool) (s : State) : SameDrive (phaseEndStep cal s) s := by
  unfold phaseEndStep
  split
  · exact ⟨rfl, rfl⟩
  · exact ⟨rfl, rfl⟩
  · exact ⟨rfl, rfl⟩
  · split
    · exact ⟨rfl, rfl⟩
    · exact ⟨rfl, rfl⟩

theorem sameDrive_checked {i : Instr} {s t go : State} (h : checked i s (.next go) = .next t)
    (hgo : SameDrive go s) : SameDrive t s := by
  obtain ⟨-, e⟩ | ⟨-, -, -, e⟩ | ⟨-, -, e⟩ := checked_cases i s (.next go) <;> cases e.symm.trans h
  · exact sameDrive_complete _ _ s
  · exact sameDrive_complete _ _ s
  · exact hgo

theorem sameDrive_calibrationAttEnd (s : State) : SameDrive (calibrationAttEnd s) s := by
  obtain ⟨-, e⟩ | ⟨-, -, e⟩ | ⟨-, -, e⟩ := calibrationAttEnd_cases s <;> rw [e] <;> exact ⟨rfl, rfl⟩

theorem sameDrive_acquireAttEnd (maxatt : BitVec 8) {success : State → State} (s : State)
    (hsuccess : ∀ a, SameDrive (success a) a) : SameDrive (acquireAttEnd maxatt success s) s := by
  obtain ⟨-, e⟩ | ⟨-, -, e⟩ | ⟨-, -, e⟩ := acquireAttEnd_cases maxatt success s <;> rw [e]
  · exact (hsuccess (attemptTail s)).trans ⟨rfl, rfl⟩
  · exact ⟨rfl, rfl⟩
  · exact ⟨rfl, rfl⟩

theorem sameDrive_filterStep (s : State) : SameDrive (filterStep s) s := by
  obtain ⟨-, -, e⟩ | ⟨-, e⟩ := filterStep_cases s <;> rw [e] <;> exact ⟨rfl, rfl⟩

theorem sameDrive_setDeviation (q : Quantity) (permille : BitVec 16) (s : State) :
    SameDrive (setDeviation q permille s) s := by
  cases q <;> exact ⟨rfl, rfl⟩

/-! ### One step -/

/-- The control states whose step sets the mode or writes the latch (R83). -/
def DrivesLine : Seq → Bool
  | .hs0 | .hs1 | .hs3 | .hs5 => true
  | .idle | .dispatch | .hs2 | .hs4 | .poll | .pdelay | .phaseEnd | .attEnd | .retry | .filter => false

theorem drivesLine_eq_false {q : Seq} (h0 : q ≠ .hs0) (h1 : q ≠ .hs1) (h3 : q ≠ .hs3) (h5 : q ≠ .hs5) :
    DrivesLine q = false := by
  cases q <;> simp [DrivesLine] at *

/-- The steps all commands share keep mode and latch outside these control states; the command's own are left. -/
theorem sameDrive_controlStep {cal : Bool} {s t : State} {a b c d : Out} (h : controlStep cal s a b c d = .next t)
    (hs : DrivesLine s.seq = false) (ha : a = .next t → SameDrive t s) (hb : b = .next t → SameDrive t s)
    (hc : c = .next t → SameDrive t s) (hd : d = .next t → SameDrive t s) : SameDrive t s := by
  have excluded {q : Seq} (hq : s.seq = q) (drives : DrivesLine q = true) : SameDrive t s := by
    rw [hq, drives] at hs
    exact absurd hs.symm Bool.false_ne_true
  obtain ⟨-, e⟩ | ⟨-, e⟩ | ⟨-, e⟩ | ⟨-, e⟩ | ⟨-, rfl⟩ | ⟨hq, -⟩ | ⟨hq, -⟩ | ⟨-, rfl⟩ | ⟨hq, -⟩ | ⟨-, rfl⟩ | ⟨hq, -⟩ |
    ⟨-, rfl⟩ | ⟨-, rfl⟩ | ⟨-, rfl⟩ := controlStep_cases h
  · exact ha e
  · exact hb e
  · exact hc e
  · exact hd e
  · exact ⟨rfl, rfl⟩
  · exact excluded hq rfl
  · exact excluded hq rfl
  · exact ⟨rfl, rfl⟩
  · exact excluded hq rfl
  · exact ⟨rfl, rfl⟩
  · exact excluded hq rfl
  · exact sameDrive_pollStep s
  · exact ⟨rfl, rfl⟩
  · exact sameDrive_phaseEndStep cal s

/-- The step of `INIT` and `CALIBRATE`, which differ in what they start with. -/
theorem sameDrive_calibrating {i : Instr} {s t go : State}
    (h : controlStep true s (checked i s (.next go)) (.next (calibrationAttEnd s)) (.fault .strayControl)
      (.fault .strayControl) = .next t)
    (hs : DrivesLine s.seq = false) (hgo : SameDrive go s) : SameDrive t s := by
  refine sameDrive_controlStep h hs (fun e => sameDrive_checked e hgo) ?_ nofun nofun
  rintro ⟨⟩
  exact sameDrive_calibrationAttEnd s

theorem sameDrive_exec {i : Instr} {s t : State} (h : exec i s = .next t) (hs : DrivesLine s.seq = false) :
    SameDrive t s := by
  cases i with
  | init v cap => exact sameDrive_calibrating h hs ⟨rfl, rfl⟩
  | calibrate => exact sameDrive_calibrating h hs ⟨rfl, rfl⟩
  | acquire maxatt retryMs =>
    refine sameDrive_controlStep h hs (fun e => sameDrive_checked e ⟨rfl, rfl⟩) ?_ ?_ nofun <;> rintro ⟨⟩
    · exact sameDrive_acquireAttEnd maxatt s (sameDrive_complete _ _)
    · exact ⟨rfl, rfl⟩
  | read maxatt retryMs =>
    refine sameDrive_controlStep h hs (fun e => sameDrive_checked e ⟨rfl, rfl⟩) ?_ ?_ ?_ <;> rintro ⟨⟩
    · exact sameDrive_acquireAttEnd maxatt s fun _ => ⟨rfl, rfl⟩
    · exact ⟨rfl, rfl⟩
    · exact sameDrive_filterStep s
  | setdev q permille =>
    cases hq : s.seq with
    | idle => simp only [exec, execSetdev, hq] at h; cases h; exact ⟨rfl, rfl⟩
    | dispatch => exact sameDrive_checked ((exec_dispatch_setdev hq).symm.trans h) (sameDrive_setDeviation q permille s)
    | _ => simp only [exec, execSetdev, hq] at h; cases h

end Sys2Proof.Machine

namespace Sys2Proof

open Sys2Proof.Machine

/-- The sequencer's six handshake steps do what the procedure `Handshake` does, then start the first phase (R83). -/
theorem run_handshake {i : Instr} {s : State} (h : Attempting i s) (hq : s.seq = .hs0) :
    core.run 6 s = .next (startPhase .ackLow (handshake (clearAttempt s))) := by
  have h1 : Attempting i (goto .hs1 (portSetMode .output (clearAttempt s))) := h.of_sameButLine rfl
  have h2 := h1.of_sameButLine ((sameButLine_goto .hs2 _).trans (sameButLine_portWrite .low _))
  have h3 := h2.of_sameButLine ((sameButLine_goto .hs3 _).trans (sameButLine_portDelayMillis Config.startLowMs _))
  have h4 := h3.of_sameButLine ((sameButLine_goto .hs4 _).trans (sameButLine_portWrite .high _))
  have h5 (n : Nat) := h4.of_sameButLine ((sameButLine_goto .hs5 _).trans (sameButLine_portDelayMicros n _))
  rw [run_succ 5 (step_hs0 h.notSetdev h.undisturbed h.latched hq),
    run_succ 4 (step_hs1 h.notSetdev h1.undisturbed h1.latched rfl),
    run_succ 3 (step_hs2 h.notSetdev h2.undisturbed h2.latched rfl),
    run_succ 2 (step_hs3 h.notSetdev h3.undisturbed h3.latched rfl),
    run_succ 1 (step_hs4 h.notSetdev h4.undisturbed h4.latched rfl),
    run_succ 0 (step_hs5 h.notSetdev (h5 _).undisturbed (h5 _).latched rfl), run_zero]
  simp only [goto, handshake, portSetMode, portWrite, portDelayMillis, portDelayMicros, startPhase, emit]

/-- Settles O19: six steps from `HS0`, and a case split over the steps for what the others keep. -/
theorem handshakeDrivesTheStartPulse : Obligations.HandshakeDrivesTheStartPulse := by
  refine ⟨fun s t i h h0 h1 h3 h5 => sameDrive_exec h (drivesLine_eq_false h0 h1 h3 h5), fun s i hi calm hq hw => ?_⟩
  rw [run_handshake ⟨hi, calm, hw⟩ hq]
  simp only [handshake, portSetMode, portWrite, portDelayMillis, portDelayMicros, startPhase, clearAttempt, emit]
  rfl

end Sys2Proof
end

section
/-! PROOF. `WaitWhile` (40_line_and_pulse_counter.md R82), and how much an attempt polls (R89). -/

namespace Sys2Proof.Machine

/-! ### The polls of `WaitWhile` -/

/-- What `k` polls that each answered `level`, and the delays after them, make of a state: the count, the samples left,
and the trace (R82). -/
def polled (level : Level) (k : Nat) (s : State) : State :=
  { s with
    count := BitVec.ofNat 16 k
    script := s.script.drop k
    trace := (List.replicate k [.delayUs s.params.pollUs, .read level]).flatten ++ s.trace }

theorem polled_succ {level : Level} {k : Nat} {s : State} (h : lineLevel (polled level k s) = level) :
    portDelayMicros s.params.pollUs (countPoll (portRead (polled level k s))) = polled level (k + 1) s := by
  simp only [portDelayMicros, countPoll, portRead, emit, h]
  simp [polled, BitVec.ofNat_add, List.replicate_succ]

/-- While the samples match, the loop polls on. -/
theorem waitLoop_polled {level : Level} {k : Nat} (left : Nat) {s : State}
    (hmatch : ∀ j < k, lineLevel (polled level j s) = level) :
    waitLoop level (k + left) (polled level 0 s) = waitLoop level left (polled level k s) := by
  induction k generalizing left with
  | zero => rw [Nat.zero_add]
  | succ k ih =>
    have last := hmatch k k.lt_succ_self
    rw [Nat.succ_add_eq_add_succ, ih _ fun j hj => hmatch j (hj.trans k.lt_succ_self), waitLoop,
      if_neg (not_not.mpr last), ← polled_succ last]
    rfl

/-- `WaitWhile` ends with the first sample that differs, which it consumes. -/
theorem waitWhile_of_differs {level : Level} {k : Nat} {s : State} (hk : k < s.timeout.toNat)
    (hmatch : ∀ j < k, lineLevel (polled level j s) = level) (hdiffers : lineLevel (polled level k s) ≠ level) :
    waitWhile level s = portRead (polled level k s) := by
  obtain ⟨left, e⟩ := Nat.exists_eq_add_of_lt hk
  have loop := waitLoop_polled (left + 1) hmatch
  rw [waitLoop, if_pos hdiffers, ← Nat.add_assoc, ← e] at loop
  exact loop

/-- With no sample that differs among the first `TIMEOUT`, `WaitWhile` times out. -/
theorem waitWhile_of_timeout {level : Level} {s : State}
    (hmatch : ∀ j < s.timeout.toNat, lineLevel (polled level j s) = level) :
    waitWhile level s = polled level s.timeout.toNat s := waitLoop_polled 0 hmatch

/-- Whatever the line answers, `WaitWhile` ends in one of these two ways (R82). -/
theorem waitWhile_cases (level : Level) (s : State) :
    (∃ k < s.timeout.toNat, lineLevel (polled level k s) ≠ level ∧ waitWhile level s = portRead (polled level k s)) ∨
    waitWhile level s = polled level s.timeout.toNat s := by
  by_cases h : ∃ k, k < s.timeout.toNat ∧ lineLevel (polled level k s) ≠ level
  · have earlier (j : Nat) (hj : j < Nat.find h) : lineLevel (polled level j s) = level :=
      of_not_not fun hne => Nat.find_min h hj ⟨hj.trans (Nat.find_spec h).1, hne⟩
    obtain ⟨hk, hdiffers⟩ := Nat.find_spec h
    exact .inl ⟨_, hk, hdiffers, waitWhile_of_differs hk earlier hdiffers⟩
  · push Not at h
    exact .inr (waitWhile_of_timeout h)

/-! ### On a scripted line -/

theorem lineLevel_polled {level l : Level} {k : Nat} {rest : List Level} {s : State}
    (h : s.script.drop k = l :: rest) : lineLevel (polled level k s) = l := lineLevel_scripted h

/-- Leading samples that match answer as many polls. -/
theorem lineLevel_polled_of_replicate {level : Level} {n : Nat} {rest : List Level} {s : State}
    (h : s.script = List.replicate n level ++ rest) {j : Nat} (hj : j < n) : lineLevel (polled level j s) = level := by
  have sample : s.script[j]? = some level := by
    rw [h, List.getElem?_append_left (by rwa [List.length_replicate]), List.getElem?_replicate_of_lt hj]
  obtain ⟨hlt, e⟩ := List.getElem?_eq_some_iff.mp sample
  exact lineLevel_polled (by rw [List.drop_eq_getElem_cons hlt, e])

theorem waitWhile_scripted {level other : Level} {k : Nat} {rest : List Level} {s : State} (hother : other ≠ level)
    (hk : k < s.timeout.toNat) (h : s.script = List.replicate k level ++ other :: rest) :
    waitWhile level s = { s with
      count := BitVec.ofNat 16 k
      script := rest
      trace := .read other :: (polled level k s).trace } := by
  have next : s.script.drop k = other :: rest := by rw [h, List.drop_left' List.length_replicate]
  have sample : lineLevel (polled level k s) = other := lineLevel_polled next
  rw [waitWhile_of_differs hk (fun j => lineLevel_polled_of_replicate h) (sample.trans_ne hother), portRead, sample]
  simp only [polled, emit, next, List.tail_cons]

theorem waitWhile_scripted_timeout {level : Level} {rest : List Level} {s : State}
    (h : s.script = List.replicate s.timeout.toNat level ++ rest) :
    waitWhile level s = { polled level s.timeout.toNat s with script := rest } := by
  have left : s.script.drop s.timeout.toNat = rest := by rw [h, List.drop_left' List.length_replicate]
  rw [waitWhile_of_timeout fun j => lineLevel_polled_of_replicate h, polled, left]

end Sys2Proof.Machine

namespace Sys2Proof

open Sys2Proof.Machine

/-- Settles O22: the ways `WaitWhile` ends, on any line and on a scripted one. -/
theorem waitWhileCountsMatchingLevels : Obligations.WaitWhileCountsMatchingLevels := by
  intro s level
  have full : BitVec.ofNat 16 s.timeout.toNat = s.timeout := by rw [BitVec.ofNat_toNat, BitVec.setWidth_eq]
  refine ⟨?_, fun other k rest hother hk h => waitWhile_scripted hother hk h, fun rest h => ?_⟩
  · obtain ⟨k, hk, hdiffers, e⟩ | e := waitWhile_cases level s
    · refine ⟨k, .inl ⟨hk, _, hdiffers, e.trans ?_⟩⟩
      simp only [portRead, emit, polled, List.tail_drop, List.cons_append]
    · exact ⟨_, .inr ⟨rfl, e.trans (by rw [polled, full])⟩⟩
  · rw [waitWhile_scripted_timeout h, polled, full]

end Sys2Proof

namespace Sys2Proof.Machine

/-! ### The polls of an attempt -/

/-- The trace grew by reads and poll delays alone, at most `n` of each. -/
def OnlyPolls (us n : Nat) (old new : List PortEvent) : Prop :=
  ∃ polls : List PortEvent, new = polls ++ old ∧ (∀ e ∈ polls, (∃ l, e = .read l) ∨ e = .delayUs us) ∧
    polls.countP isRead ≤ n ∧ polls.countP isDelayUs ≤ n

theorem OnlyPolls.refl (us : Nat) (trace : List PortEvent) : OnlyPolls us 0 trace trace :=
  ⟨[], rfl, nofun, Nat.le_refl 0, Nat.le_refl 0⟩

theorem OnlyPolls.trans {us m n : Nat} {a b c : List PortEvent} (h : OnlyPolls us m a b) (k : OnlyPolls us n b c) :
    OnlyPolls us (m + n) a c := by
  obtain ⟨p, rfl, hp, hpr, hpd⟩ := h
  obtain ⟨q, rfl, hq, hqr, hqd⟩ := k
  refine ⟨q ++ p, (List.append_assoc ..).symm, fun e he => (List.mem_append.mp he).elim (hq e) (hp e), ?_, ?_⟩ <;>
    rw [List.countP_append] <;> omega

/-- `k` polls answered alike put on the trace `k` of what one poll puts there once: a read and a delay. -/
theorem countP_polled {p : PortEvent → Bool} {poll : List PortEvent} (h : poll.countP p = 1) (k : Nat) :
    (List.replicate k poll).flatten.countP p = k := by
  rw [List.countP_flatten, List.map_replicate, List.sum_replicate, h, smul_eq_mul, Nat.mul_one]

theorem onlyPolls_waitWhile (level : Level) (s : State) :
    OnlyPolls s.params.pollUs s.timeout.toNat s.trace (waitWhile level s).trace := by
  have isPoll (k : Nat) : ∀ e ∈ (List.replicate k [PortEvent.delayUs s.params.pollUs, .read level]).flatten,
      (∃ l, e = .read l) ∨ e = .delayUs s.params.pollUs := by
    intro e he
    obtain ⟨l, hl, hel⟩ := List.mem_flatten.mp he
    rw [List.eq_of_mem_replicate hl] at hel
    simp only [List.mem_cons, List.not_mem_nil, or_false] at hel
    exact hel.symm.imp_left fun h => ⟨level, h⟩
  obtain ⟨k, hk, -, e⟩ | e := waitWhile_cases level s <;> rw [e]
  · refine ⟨.read (lineLevel (polled level k s)) :: _, rfl, List.forall_mem_cons.mpr ⟨.inl ⟨_, rfl⟩, isPoll k⟩, ?_, ?_⟩
    · rw [List.countP_cons_of_pos rfl, countP_polled rfl]; omega
    · rw [List.countP_cons_of_neg Bool.false_ne_true, countP_polled rfl]; omega
  · exact ⟨_, rfl, isPoll _, (countP_polled rfl _).le, (countP_polled rfl _).le⟩

theorem SameButLine.params {x y : State} (h : SameButLine x y) : x.params = y.params := h.toSameOutside.params

/-- Two phases, one after the other, poll at most twice `TIMEOUT`. -/
theorem onlyPolls_two_phases {l l' : Level} {s t : State} (same : SameButLine t s)
    (htrace : t.trace = (waitWhile l s).trace) :
    OnlyPolls s.params.pollUs (2 * s.timeout.toNat) s.trace (waitWhile l' t).trace := by
  have second := onlyPolls_waitWhile l' t
  rw [same.params, same.timeout, htrace] at second
  rw [Nat.two_mul]
  exact (onlyPolls_waitWhile l s).trans second

theorem onlyPolls_ackSkip (s : State) :
    OnlyPolls s.params.pollUs (2 * s.timeout.toNat) s.trace (ackSkip s).trace :=
  onlyPolls_two_phases (sameButLine_waitWhile .low s) rfl

theorem onlyPolls_bitRead (s : State) :
    OnlyPolls s.params.pollUs (2 * s.timeout.toNat) s.trace (bitRead s).trace :=
  onlyPolls_two_phases ((sameButLine_saveLow _).trans (sameButLine_waitWhile .low s)) rfl

theorem onlyPolls_readBits (cal : Bool) (n : Nat) (s : State) :
    OnlyPolls s.params.pollUs (n * (2 * s.timeout.toNat)) s.trace (readBits cal n s).trace := by
  induction n generalizing s with
  | zero => rw [Nat.zero_mul]; exact .refl _ _
  | succ n ih =>
    have same : SameButLine (recordBit cal (bitRead s)) s := (sameButLine_recordBit cal _).trans (sameButLine_bitRead s)
    have later := ih (recordBit cal (bitRead s))
    rw [same.params, same.timeout] at later
    rw [Nat.succ_mul, Nat.add_comm]
    exact (onlyPolls_bitRead s).trans later

theorem onlyPolls_attemptBits (cal : Bool) (s : State) :
    OnlyPolls s.params.pollUs (82 * s.timeout.toNat) (handshake (clearAttempt s)).trace (attemptBits cal s).trace := by
  have same := (sameButLine_handshake (clearAttempt s)).trans (sameButLine_clearAttempt s)
  have ack := onlyPolls_ackSkip (handshake (clearAttempt s))
  have bits := onlyPolls_readBits cal 40 (ackSkip (handshake (clearAttempt s)))
  rw [((sameButLine_ackSkip _).trans same).params, ((sameButLine_ackSkip _).trans same).timeout] at bits
  rw [same.params, same.timeout] at ack
  rw [show 82 * s.timeout.toNat = 2 * s.timeout.toNat + 40 * (2 * s.timeout.toNat) by omega]
  exact ack.trans bits

end Sys2Proof.Machine

namespace Sys2Proof

open Sys2Proof.Machine

/-- Settles O23: after the handshake's six events an attempt runs `WaitWhile` 82 times. -/
theorem attemptWorkIsBounded : Obligations.AttemptWorkIsBounded := by
  intro cal s
  obtain ⟨polls, e, hpolls, hreads, hdelays⟩ := onlyPolls_attemptBits cal s
  refine ⟨polls, ?_, hpolls, hreads, hdelays⟩
  rw [attempt_eq, attemptTail_trace, e, handshake_trace, clearAttempt_trace, clearAttempt_params, List.append_assoc]

end Sys2Proof
end

section
/-! PROOF. The value of a bit (40_line_and_pulse_counter.md R86), the validity of a frame (R87),
and the frame that 40 bit slots on the wire stand for (R88). -/

namespace Sys2Proof.Machine

/-- R86, for both readings of `CAL_BIT_RULE`. -/
theorem bitValue_iff {cal : Bool} {lo hi : Count} {s : State} :
    bitValue cal lo hi s = true ↔
      (if cal = true ∧ s.params.calBitRule = .self then lo.toNat else s.threshold.toNat) < hi.toNat := by
  rw [bitValue, decide_eq_true_iff, BitVec.lt_def, apply_ite BitVec.toNat]

/-- The sum of bytes 0 to 3 mod 256 is their 8-bit wrapping sum. -/
theorem checksum_eq_toNat (f : Frame) :
    checksum f = (frameByte f 0 + frameByte f 1 + frameByte f 2 + frameByte f 3).toNat := by
  simp only [checksum, BitVec.toNat_add]
  omega

theorem checksumMatches_iff {f : Frame} : checksumMatches f = true ↔ (frameByte f 4).toNat = checksum f := beq_iff_eq

theorem frameValid_iff {f : Frame} : frameValid f = true ↔ (frameByte f 4).toNat = checksum f ∧ f ≠ 0 := by
  rw [frameValid, Bool.and_eq_true, checksumMatches_iff, bne_iff_ne]

/-- A frame is not 0 exactly when one of its bytes is not. -/
theorem ne_zero_iff_frameByte {f : Frame} : f ≠ 0 ↔ ∃ k, k < 5 ∧ frameByte f k ≠ 0 := by
  constructor
  · intro hf
    by_contra hall
    push Not at hall
    refine hf (BitVec.eq_of_getLsbD_eq fun j hj => ?_)
    rw [show j = 39 - (39 - j) by omega, ← frameByte_getLsbD_received f (by omega), hall _ (by omega)]
    simp
  · rintro ⟨k, -, hk⟩ rfl
    exact hk (by simp [frameByte])

end Sys2Proof.Machine

namespace Sys2Proof

open Sys2Proof.Machine

/-- Settles O25. -/
theorem bitValueIsStrict : Obligations.BitValueIsStrict := by
  refine fun s lo hi => ⟨bitValue_iff.trans ?_, fun rule => bitValue_iff.trans ?_, fun rule => bitValue_iff.trans ?_⟩
  · rw [if_neg (by simp)]
  · rw [if_neg (by simp [rule])]
  · rw [if_pos ⟨rfl, rule⟩]

/-- Settles O26. -/
theorem frameValidIsChecksumAndNotAllZero : Obligations.FrameValidIsChecksumAndNotAllZero := by
  refine fun f => ⟨frameValid_iff.trans (and_congr_right' ne_zero_iff_frameByte), frameValid_iff.trans ?_⟩
  rw [checksum_eq_toNat, BitVec.toNat_inj]

end Sys2Proof

namespace Sys2Proof.Machine

/-! ### What the bit slots leave in the registers -/

theorem recordBits_script (cal : Bool) (counts : List (Count × Count)) (s : State) :
    (recordBits cal counts s).script = s.script := by
  induction counts generalizing s with
  | nil => rfl
  | cons c cs ih => rw [recordBits_cons, ih, recordBit_script]

theorem recordBits_bitErr (cal : Bool) {counts : List (Count × Count)} {s : State}
    (h : ∀ c ∈ counts, bitFails c.1 c.2 s = false) : (recordBits cal counts s).bitErr = s.bitErr := by
  induction counts generalizing s with
  | nil => rfl
  | cons c cs ih =>
    obtain ⟨hc, hcs⟩ := List.forall_mem_cons.mp h
    rw [recordBits_cons]
    exact (ih (s := recordBit cal { s with loCnt := c.1, count := c.2 }) hcs).trans
      ((congrArg (s.bitErr || ·) hc).trans (Bool.or_false _))

theorem recordBit_sumLow_toNat (cal : Bool) {s : State} (h : s.sumLow.toNat + s.loCnt.toNat < 2 ^ 22) :
    (recordBit cal s).sumLow.toNat = s.sumLow.toNat + s.loCnt.toNat := by
  rw [recordBit_sumLow, BitVec.toNat_add, BitVec.toNat_setWidth, Nat.add_mod_mod, Nat.mod_eq_of_lt h]

theorem recordBit_maxHigh_toNat (cal : Bool) (s : State) :
    (recordBit cal s).maxHigh.toNat = max s.maxHigh.toNat s.count.toNat := by
  rw [recordBit_maxHigh]
  split <;> bv_omega

/-- The LOW counts add up as long as the 22 bits hold their sum. -/
theorem recordBits_sumLow (cal : Bool) {counts : List (Count × Count)} {s : State}
    (h : s.sumLow.toNat + (counts.map fun c => c.1.toNat).sum < 2 ^ 22) :
    (recordBits cal counts s).sumLow.toNat = s.sumLow.toNat + (counts.map fun c => c.1.toNat).sum := by
  induction counts generalizing s with
  | nil => rfl
  | cons c cs ih =>
    rw [List.map_cons, List.sum_cons] at h ⊢
    have added : (recordBit cal { s with loCnt := c.1, count := c.2 }).sumLow.toNat = s.sumLow.toNat + c.1.toNat :=
      recordBit_sumLow_toNat cal (lt_of_le_of_lt (Nat.le_add_right _ _) (Nat.add_assoc .. ▸ h))
    rw [recordBits_cons, ih (by omega), added, Nat.add_assoc]

theorem recordBits_maxHigh (cal : Bool) (counts : List (Count × Count)) (s : State) :
    (recordBits cal counts s).maxHigh.toNat = (counts.map fun c => c.2.toNat).foldl max s.maxHigh.toNat := by
  induction counts generalizing s with
  | nil => rfl
  | cons c cs ih =>
    have greater : (recordBit cal { s with loCnt := c.1, count := c.2 }).maxHigh.toNat =
        max s.maxHigh.toNat c.2.toNat := recordBit_maxHigh_toNat cal _
    rw [recordBits_cons, ih, greater, List.map_cons, List.foldl_cons]

/-! ### From the wire to the bit slots -/

theorem otherLevel_ne (l : Level) : otherLevel l ≠ l := by cases l <;> decide

/-- A phase on the wire is counted, and its samples are used up (R82). -/
theorem waitWhile_phaseSamples {level : Level} {k : Nat} {rest : List Level} {s : State} (hk : k < s.timeout.toNat)
    (h : s.script = phaseSamples level k ++ rest) :
    ∃ trace, waitWhile level s = { s with count := BitVec.ofNat 16 k, script := rest, trace := trace } :=
  ⟨_, waitWhile_scripted (otherLevel_ne level) hk (h.trans (List.append_assoc ..))⟩

/-- Two phases on the wire, LOW and HIGH, are an acknowledgment (R84). -/
theorem ackSkip_phaseSamples {lo hi : Nat} {rest : List Level} {s : State} (hlo : lo < s.timeout.toNat)
    (hhi : hi < s.timeout.toNat) (h : s.script = phaseSamples .low lo ++ (phaseSamples .high hi ++ rest)) :
    ∃ count trace, ackSkip s = { s with count := count, script := rest, trace := trace } := by
  obtain ⟨_, elo⟩ := waitWhile_phaseSamples hlo h
  obtain ⟨trace, ehi⟩ := waitWhile_phaseSamples (level := .high) (s := waitWhile .low s) (rest := rest)
    (by rwa [elo]) (by rw [elo])
  exact ⟨_, trace, ehi.trans (by rw [elo])⟩

/-- Two phases on the wire, LOW and HIGH, are a bit slot (R85). -/
theorem bitRead_phaseSamples {lo hi : Nat} {rest : List Level} {s : State} (hlo : lo < s.timeout.toNat)
    (hhi : hi < s.timeout.toNat) (h : s.script = phaseSamples .low lo ++ (phaseSamples .high hi ++ rest)) :
    ∃ trace, bitRead s = { s with
      loCnt := BitVec.ofNat 16 lo, count := BitVec.ofNat 16 hi, script := rest, trace := trace } := by
  obtain ⟨_, elo⟩ := waitWhile_phaseSamples hlo h
  obtain ⟨trace, ehi⟩ := waitWhile_phaseSamples (level := .high) (s := saveLow (waitWhile .low s)) (rest := rest)
    (by rwa [elo]) (by rw [elo]; rfl)
  exact ⟨trace, ehi.trans (by rw [elo]; rfl)⟩

/-- The counts of the slots, as `lo_cnt` and `count` hold them. -/
def slotCounts (counts : List (Nat × Nat)) : List (Count × Count) :=
  counts.map fun c => (BitVec.ofNat 16 c.1, BitVec.ofNat 16 c.2)

/-- Reading slots from the wire records their counts (R88). -/
theorem readBits_phaseSamples (cal : Bool) {counts : List (Nat × Nat)} {rest : List Level} {s : State}
    (hlt : ∀ c ∈ counts, c.1 < s.timeout.toNat ∧ c.2 < s.timeout.toNat)
    (h : s.script = counts.flatMap (fun c => phaseSamples .low c.1 ++ phaseSamples .high c.2) ++ rest) :
    ∃ trace, readBits cal counts.length s =
      recordBits cal (slotCounts counts) { s with script := rest, trace := trace } := by
  induction counts generalizing s with
  | nil => exact ⟨s.trace, by rw [List.flatMap_nil, List.nil_append] at h; rw [← h]; rfl⟩
  | cons c cs ih =>
    obtain ⟨⟨hlo, hhi⟩, hcs⟩ := List.forall_mem_cons.mp hlt
    rw [List.flatMap_cons, List.append_assoc, List.append_assoc] at h
    obtain ⟨_, slot⟩ := bitRead_phaseSamples hlo hhi h
    rw [List.length_cons, readBits, slot]
    exact ih (s := recordBit cal _) hcs rfl

/-- The whole attempt on the wire, up to its tail: a cleared attempt that records the slots (R88). -/
theorem attemptBits_wireSamples (cal : Bool) {ackLow ackHigh : Nat} {counts : List (Nat × Nat)} {rest : List Level}
    {s : State} (hlow : ackLow < s.timeout.toNat) (hhigh : ackHigh < s.timeout.toNat) (hlen : counts.length = 40)
    (hlt : ∀ c ∈ counts, c.1 < s.timeout.toNat ∧ c.2 < s.timeout.toNat)
    (h : s.script = wireSamples ackLow ackHigh counts ++ rest) :
    ∃ start, attemptBits cal s = recordBits cal (slotCounts counts) start ∧ SameButLine start s ∧
      start.bitErr = false ∧ start.sumLow.toNat = 0 ∧ start.maxHigh.toNat = 0 ∧ start.script = rest := by
  have same : SameButLine (handshake (clearAttempt s)) s :=
    (sameButLine_handshake (clearAttempt s)).trans (sameButLine_clearAttempt s)
  have script : (handshake (clearAttempt s)).script = s.script := by simp
  have bitErr : (handshake (clearAttempt s)).bitErr = false := by simp
  have sumLow : (handshake (clearAttempt s)).sumLow.toNat = 0 := by simp
  have maxHigh : (handshake (clearAttempt s)).maxHigh.toNat = 0 := by simp
  rw [attemptBits]
  generalize handshake (clearAttempt s) = u at same script bitErr sumLow maxHigh
  rw [wireSamples, List.append_assoc, List.append_assoc, ← script] at h
  rw [← same.timeout] at hlow hhigh hlt
  obtain ⟨count, trace, ack⟩ := ackSkip_phaseSamples hlow hhigh h
  obtain ⟨trace', bits⟩ :=
    readBits_phaseSamples (s := ackSkip u) (rest := rest) cal (by rw [ack]; exact hlt) (by rw [ack])
  rw [hlen, ack] at bits
  rw [ack, bits]
  exact ⟨_, rfl, same, bitErr, sumLow, maxHigh, rfl⟩

/-! ### What the counts stand for -/

theorem ofNat_toNat_of_lt {n : Nat} {c : Count} (h : n < c.toNat) : (BitVec.ofNat 16 n).toNat = n := by
  rw [BitVec.toNat_ofNat, Nat.mod_eq_of_lt (h.trans c.isLt)]

/-- A slot whose counts stay below `TIMEOUT` does not fail (R85). -/
theorem bitFails_eq_false {lo hi : Nat} {s : State} (hlo : lo < s.timeout.toNat) (hhi : hi < s.timeout.toNat) :
    bitFails (BitVec.ofNat 16 lo) (BitVec.ofNat 16 hi) s = false := by
  have differs {n : Nat} (h : n < s.timeout.toNat) : BitVec.ofNat 16 n ≠ s.timeout := fun e => by
    rw [← e, ofNat_toNat_of_lt h] at h
    exact h.false
  rw [bitFails, beq_false_of_ne (differs hlo), beq_false_of_ne (differs hhi), Bool.or_false]

end Sys2Proof.Machine

namespace Sys2Proof

open Sys2Proof.Machine

section CountsSend

variable {cal : Bool} {s : State} {counts : List (Nat × Nat)} {f : Frame}

theorem CountsSend.of_sameButLine {t : State} (h : CountsSend cal s counts f) (same : SameButLine t s) :
    CountsSend cal t counts f := by
  rw [CountsSend, same.timeout, same.params, same.threshold]
  exact h

theorem CountsSend.lt_timeout (h : CountsSend cal s counts f) :
    ∀ c ∈ counts, c.1 < s.timeout.toNat ∧ c.2 < s.timeout.toNat := by
  intro c hc
  obtain ⟨i, hi⟩ := List.mem_iff_getElem?.mp hc
  obtain ⟨hlo, hhi, -⟩ := h.2 i _ _ hi
  exact ⟨hlo, hhi⟩

theorem CountsSend.map_low (h : CountsSend cal s counts f) :
    (slotCounts counts).map (fun c => c.1.toNat) = counts.map fun c => c.1 := by
  rw [slotCounts, List.map_map]
  exact List.map_congr_left fun c hc => ofNat_toNat_of_lt (h.lt_timeout c hc).1

theorem CountsSend.map_high (h : CountsSend cal s counts f) :
    (slotCounts counts).map (fun c => c.2.toNat) = counts.map fun c => c.2 := by
  rw [slotCounts, List.map_map]
  exact List.map_congr_left fun c hc => ofNat_toNat_of_lt (h.lt_timeout c hc).2

/-- The bit of the i-th slot is bit `39 - i` of the frame that the counts stand for. -/
theorem CountsSend.slotBit_eq (h : CountsSend cal s counts f) {i lo hi : Nat} (hslot : counts[i]? = some (lo, hi)) :
    slotBit cal s (BitVec.ofNat 16 lo) (BitVec.ofNat 16 hi) = f.getLsbD (39 - i) := by
  obtain ⟨hlo, hhi, hbit⟩ := h.2 i lo hi hslot
  rw [slotBit, bitFails_eq_false hlo hhi, Bool.not_false, Bool.true_and, Bool.eq_iff_iff, hbit, bitValue_iff,
    ofNat_toNat_of_lt hlo, ofNat_toNat_of_lt hhi]

/-- Forty slots fill the shift register with the frame. -/
theorem CountsSend.shreg_eq (h : CountsSend cal s counts f) : (recordBits cal (slotCounts counts) s).shreg = f := by
  have hlen : (slotCounts counts).length = 40 := List.length_map _ |>.trans h.1
  refine BitVec.eq_of_getLsbD_eq fun j hj => ?_
  have hi : 39 - j < counts.length := by rw [h.1]; omega
  have hslot : counts[39 - j]? = some (counts[39 - j].1, counts[39 - j].2) := List.getElem?_eq_getElem hi
  have received := recordBits_shreg_slot cal s (counts := slotCounts counts) hlen.le
    (List.getElem?_map .. |>.trans (congrArg _ hslot))
  rw [h.slotBit_eq hslot, hlen, show 39 - (39 - j) = j by omega] at received
  exact received

theorem CountsSend.bitErr_eq (h : CountsSend cal s counts f) :
    (recordBits cal (slotCounts counts) s).bitErr = s.bitErr :=
  recordBits_bitErr cal <| List.forall_mem_map.mpr fun c hc =>
    bitFails_eq_false (h.lt_timeout c hc).1 (h.lt_timeout c hc).2

/-- Forty counts of 16 bits fit the 22 bits of `sum_low` (R88). -/
theorem CountsSend.sum_low_lt (h : CountsSend cal s counts f) : (counts.map fun c => c.1).sum < 2 ^ 22 := by
  have bound := List.sum_le_card_nsmul (counts.map fun c => c.1) 65535 <| List.forall_mem_map.mpr fun c hc => by
    have := (h.lt_timeout c hc).1
    omega
  rw [List.length_map, h.1, smul_eq_mul] at bound
  omega

end CountsSend

/-- Settles O54: the attempt records the counts on the wire in a cleared state, and its tail moves the shift register
to `FRAME`. -/
theorem attemptReceivesTheSentFrame : Obligations.AttemptReceivesTheSentFrame := by
  intro cal s f ackLow ackHigh counts rest hlow hhigh sends hscript
  obtain ⟨start, bits, same, hbitErr, hsum, hmax, hrest⟩ :=
    attemptBits_wireSamples cal hlow hhigh sends.1 sends.lt_timeout hscript
  replace sends := sends.of_sameButLine same
  rw [attempt_eq, bits]
  intro t
  have hframe : t.frame = f := sends.shreg_eq
  have hbitErr : t.bitErr = false := sends.bitErr_eq.trans hbitErr
  have hcause : t.cause = attemptCause false f := by rw [← hframe, ← hbitErr]; rfl
  refine ⟨hframe, hbitErr, ?_, hcause, ?_, ?_, (recordBits_script ..).trans hrest⟩
  · calc t.status.frameOk = true ↔ t.cause = .none := decide_eq_true_iff
      _ ↔ frameValid f = true := by rw [hcause, attemptCause_none]; exact and_iff_right rfl
  · have fits := sends.sum_low_lt
    rw [← sends.map_low] at fits ⊢
    exact (recordBits_sumLow cal (by rwa [hsum, Nat.zero_add])).trans (by rw [hsum, Nat.zero_add])
  · exact (recordBits_maxHigh ..).trans (by rw [hmax, sends.map_high])

end Sys2Proof
end

section
/-! PROOF. The arithmetic of calibration (41_calibrator.md R101), the first step of `INIT` (R104), and what no step of
`INIT` or `CALIBRATE` changes (R103, R104). -/

namespace Sys2Proof.Machine

/-- A legal capacity is held as it is (10_state.md R16). -/
theorem capValue_val {cap : BitVec 8} (h : cap.toNat ≤ 16) : (capValue cap).val = cap.toNat :=
  Nat.mod_eq_of_lt (Nat.lt_succ_of_le h)

/-! ### Threshold and timeout (R101) -/

/-- A quotient of at most 65535 keeps all its bits. -/
theorem calThreshold_toNat {sumLow : BitVec 22} (h : sumLow.toNat ≤ 40 * 65535) :
    (calThreshold sumLow).toNat = sumLow.toNat / 40 := by
  rw [calThreshold, BitVec.toNat_ofNat]
  omega

theorem calTimeout_toNat (maxHigh : Count) :
    (calTimeout maxHigh).toNat = min 65535 (maxHigh.toNat + maxHigh.toNat / 4) := by
  rw [calTimeout, BitVec.toNat_ofNat]
  omega

/-! ### The register space and the environment -/

/-- The words at `CMD` and past the registers come from the buffer slots alone (20_memory.md R41). -/
theorem regWord_eq_of_buf {s t : State} (ht : t.t.buf = s.t.buf) (hh : t.h.buf = s.h.buf) {addr : Addr}
    (ha : 0x0F ≤ addr.toNat ∨ addr = 0x00) : regWord t addr = regWord s addr := by
  obtain ha | rfl := ha
  · rw [regWord_of_ge t ha, regWord_of_ge s ha, ht, hh]
  · rfl

section SameOutside

variable {t s : State} (h : SameOutside t s)
include h

theorem SameOutside.rawT : t.rawT = s.rawT := h.congr State.rawT fun _ => rfl
theorem SameOutside.rawH : t.rawH = s.rawH := h.congr State.rawH fun _ => rfl
theorem SameOutside.variant : t.variant = s.variant := h.congr State.variant fun _ => rfl
theorem SameOutside.cap : t.cap = s.cap := h.congr State.cap fun _ => rfl
theorem SameOutside.inited : t.status.inited = s.status.inited := h.congr (·.status.inited) fun _ => rfl
theorem SameOutside.tAcc : t.status.tAcc = s.status.tAcc := h.congr (·.status.tAcc) fun _ => rfl
theorem SameOutside.hAcc : t.status.hAcc = s.status.hAcc := h.congr (·.status.hAcc) fun _ => rfl
theorem SameOutside.overrun : t.status.overrun = s.status.overrun := h.congr (·.status.overrun) fun _ => rfl

/-- An attempt writes at most `STATUS`, `THRESHOLD`, `TIMEOUT` and the frame's two words (20_memory.md R41). -/
theorem SameOutside.regWord {addr : Addr} (h1 : addr ≠ 0x01) (h3 : addr ≠ 0x03) (h4 : addr ≠ 0x04)
    (h5 : addr ≠ 0x05) (h6 : addr ≠ 0x06) : regWord t addr = regWord s addr :=
  regWord_congr (absurd · h1) (fun _ => ⟨h.variant, h.cap⟩) (absurd · h3) (absurd · h4)
    (fun e => e.elim (absurd · h5) (absurd · h6)) (fun _ => h.rawT) (fun _ => h.rawH) (fun _ => congrArg _ h.t)
    (fun _ => congrArg _ h.h) (fun _ => congrArg _ h.t) (fun _ => congrArg _ h.h)
    (fun _ => ⟨congrArg _ h.t, congrArg _ h.t⟩) (fun _ => ⟨congrArg _ h.h, congrArg _ h.h⟩)
    fun _ _ => ⟨congrArg _ h.t, congrArg _ h.h⟩

/-- The reset input, the parameters, the line's tail level and the host's side. -/
theorem SameOutside.environment : t.resetAsserted = s.resetAsserted ∧ t.params = s.params ∧ t.tail = s.tail ∧
    t.hostOps = s.hostOps ∧ t.turns = s.turns ∧ t.answers = s.answers ∧ t.draws = s.draws := by
  obtain ⟨turns, resetAsserted, hostOps, answers, draws⟩ := hostSide_eq_iff.mp h.hostSide
  exact ⟨resetAsserted, h.params, h.congr State.tail fun _ => rfl, hostOps, turns, answers, draws⟩

end SameOutside

/-! ### One step of a calibration -/

/-- What a step from `s` to `t` of a calibration leaves: all that an attempt leaves, `att_n`, and before the end of the
attempt the registers that calibration learns (R100, R103). -/
structure CalibrationFrame (s t : State) : Prop where
  outside : SameOutside t s
  attN : t.attN = s.attN
  learned : s.seq ≠ .attEnd → t.threshold = s.threshold ∧ t.timeout = s.timeout ∧ t.frame = s.frame

theorem SameButLine.calibrationFrame {s t : State} (h : SameButLine t s) : CalibrationFrame s t :=
  ⟨h.toSameOutside, h.attN, fun _ => ⟨h.threshold, h.timeout, h.frame⟩⟩

theorem calibrationFrame_raise (err : ErrorCode) (s : State) : CalibrationFrame s (raise err s) :=
  ⟨rfl, rfl, fun _ => ⟨rfl, rfl, rfl⟩⟩

theorem calibrationFrame_startCalibration (s : State) : CalibrationFrame s (startCalibration s) :=
  ⟨rfl, rfl, fun _ => ⟨rfl, rfl, rfl⟩⟩

/-- The three ends of an attempt write nothing but what an attempt may write. -/
theorem calibrationFrame_attEnd {s : State} (hq : s.seq = .attEnd) : CalibrationFrame s (calibrationAttEnd s) := by
  obtain ⟨-, e⟩ | ⟨-, -, e⟩ | ⟨-, -, e⟩ := calibrationAttEnd_cases s <;> rw [e] <;>
    exact ⟨rfl, rfl, absurd hq⟩

/-- A step of `INIT` or `CALIBRATE` is the command's own start at `DISPATCH`, or one that stays in this frame: a
refusal, a step that drives the line, the end of an attempt. -/
theorem calibrating_cases {i : Instr} {s t go : State}
    (h : controlStep true s (checked i s (.next go)) (.next (calibrationAttEnd s)) (.fault .strayControl)
      (.fault .strayControl) = .next t) :
    (s.seq = .dispatch ∧ t = go) ∨ CalibrationFrame s t := by
  obtain ⟨hq, e⟩ | ⟨hq, ⟨⟩⟩ | ⟨-, ⟨⟩⟩ | ⟨-, ⟨⟩⟩ | same := controlStep_line_cases h
  · obtain ⟨-, e'⟩ | ⟨-, -, -, e'⟩ | ⟨-, -, e'⟩ := checked_cases i s (.next go) <;> cases e'.symm.trans e
    · exact .inr (calibrationFrame_raise _ s)
    · exact .inr (calibrationFrame_raise _ s)
    · exact .inl ⟨hq, rfl⟩
  · exact .inr (calibrationFrame_attEnd hq)
  · exact .inr same.calibrationFrame

theorem exec_calibrate_frame {s t : State} (h : exec .calibrate s = .next t) : CalibrationFrame s t := by
  obtain ⟨-, rfl⟩ | frame := calibrating_cases (i := .calibrate) h
  · exact calibrationFrame_startCalibration s
  · exact frame

end Sys2Proof.Machine

namespace Sys2Proof

open Sys2Proof.Machine

/-- Settles O27: the quotient fits 16 bits, and `m + m div 4` is the truncated 1.25-fold of `m`. -/
theorem calibrationArithmetic : Obligations.CalibrationArithmetic := by
  refine ⟨fun sumLow h => calThreshold_toNat h, fun maxHigh => ⟨calTimeout_toNat maxHigh, ?_⟩⟩
  rw [calTimeout_toNat]
  omega

/-- Settles O11. -/
theorem initAssignsAndStartsCalibrating : Obligations.InitAssignsAndStartsCalibrating := by
  intro s v cap hq hcap
  refine ⟨capValue cap, capValue_val hcap, ?_⟩
  rw [exec_dispatch_init hq, checked_pass _ (wellFormed_init.mpr hcap) nofun]
  rfl

/-- Settles O42: at `DISPATCH` by the assignments of `INIT`, elsewhere by the frame of a calibration's step. -/
theorem initFrame : Obligations.InitFrame := by
  intro s t v cap h
  obtain ⟨hq, rfl⟩ | ⟨same, attN, learned⟩ := calibrating_cases (i := .init v cap) h
  · exact ⟨fun _ => regWord_eq_of_buf (s := s) (t := startCalibration (initAssign v cap s)) rfl rfl, rfl, rfl, rfl,
      rfl, rfl, rfl, rfl, rfl, absurd hq, rfl, rfl, rfl, rfl, rfl, rfl, rfl⟩
  · have ht := congrArg Filter.buf same.t
    have hh := congrArg Filter.buf same.h
    exact ⟨fun _ => regWord_eq_of_buf ht hh, ht, hh, congrArg Filter.written same.t,
      congrArg Filter.written same.h, same.tAcc, same.hAcc, attN, same.cmdW,
      fun _ => ⟨same.t, same.h, same.rawT, same.rawH, same.variant, same.cap, same.inited, same.overrun, learned⟩,
      same.environment⟩

/-- Settles O43: every step of `CALIBRATE`, the refusal included, stays in the frame of a calibration's step. -/
theorem calibrateFrame : Obligations.CalibrateFrame := by
  intro s t h
  obtain ⟨same, attN, learned⟩ := exec_calibrate_frame h
  exact ⟨fun _ => same.regWord, same.t, same.h, same.rawT, same.rawH, same.variant, same.cap, same.inited, same.tAcc,
    same.hAcc, same.overrun, attN, same.cmdW, learned, same.environment⟩

end Sys2Proof
end

section
/-! PROOF. `INIT` and `CALIBRATE` on a line that answers a valid frame (41_calibrator.md R100, R101, R103, R104): the
first attempt receives it, calibration takes its success exit, and the sequencer reaches the end of that procedure. -/

namespace Sys2Proof

open Sys2Proof.Machine

/-- An attempt writes one flag, `FRAME_OK`, by its cause (40_line_and_pulse_counter.md R88). -/
theorem attempt_status (cal : Bool) (s : State) :
    (attempt cal s).status = { s.status with frameOk := decide ((attempt cal s).cause = .none) } := by
  rw [attempt_eq, ← (sameButLine_attemptBits cal s).status]
  generalize attemptBits cal s = bits
  rfl

/-- The success exit of `Calibrate`, on its first attempt (R100). -/
theorem calibrateAndComplete_success {s : State} (h : (attempt true (clearCalN s)).cause = .none) :
    calibrateAndComplete s = complete true .none (calibrateSuccess (attempt true (clearCalN s))) :=
  calibrateLoop_success h

/-- Forty counts of 16 bits have a mean of 16 bits (R101). -/
theorem CountsSend.sum_low_le {cal : Bool} {s : State} {counts : List (Nat × Nat)} {f : Frame}
    (h : CountsSend cal s counts f) : (counts.map fun c => c.1).sum ≤ 40 * 65535 := by
  have bound := List.sum_le_card_nsmul (counts.map fun c => c.1) 65535 <| List.forall_mem_map.mpr fun c hc => by
    have := (h.lt_timeout c hc).1
    omega
  rwa [List.length_map, h.1, smul_eq_mul] at bound

/-- What `Calibrate` and the completion of its command leave in `u` when started in `s` on a line that answers the
valid frame `f` with the slots `counts`, and then `rest` (R100, R101). -/
structure Calibrated (f : Frame) (counts : List (Nat × Nat)) (rest : List Level) (s u : State) : Prop where
  outside : SameOutside u s
  frame : u.frame = f
  status : u.status = { s.status with
    frameOk := true, calOk := true, ok := true, err := .none, done := true, busy := false }
  threshold : u.threshold.toNat = (counts.map fun c => c.1).sum / 40
  timeout : ∀ m, m = (counts.map fun c => c.2).foldl max 0 → u.timeout.toNat = min 65535 (m + m / 4)
  script : u.script = rest

/-- The first attempt receives the frame, and calibration succeeds on it. -/
theorem calibrated_of_wire {s : State} {f : Frame} {ackLow ackHigh : Nat} {counts : List (Nat × Nat)}
    {rest : List Level} (hlow : ackLow < s.timeout.toNat) (hhigh : ackHigh < s.timeout.toNat)
    (sends : CountsSend true s counts f) (hscript : s.script = wireSamples ackLow ackHigh counts ++ rest)
    (valid : frameValid f = true) : Calibrated f counts rest s (calibrateAndComplete s) := by
  obtain ⟨frame, -, -, cause, sumLow, maxHigh, script⟩ :=
    attemptReceivesTheSentFrame true (clearCalN s) f ackLow ackHigh counts rest hlow hhigh sends hscript
  have success : (attempt true (clearCalN s)).cause = .none := cause.trans (attemptCause_none.mpr ⟨rfl, valid⟩)
  have same := sameOutside_attempt true (clearCalN s)
  have status := attempt_status true (clearCalN s)
  rw [success] at status
  rw [calibrateAndComplete_success success]
  generalize attempt true (clearCalN s) = a at *
  exact {
    outside := same
    frame := frame
    status := congrArg (fun flags : Status => Status.completed true .none { flags with calOk := true }) status
    threshold := (calThreshold_toNat (sumLow.trans_le sends.sum_low_le)).trans (by rw [sumLow])
    timeout := fun m hm => (calTimeout_toNat a.maxHigh).trans (by rw [maxHigh, ← hm])
    script := script }

/-- Settles O55: `CALIBRATE` is its procedure (R152), which calibrates on the frame the wire carries. -/
theorem calibrateLearnsFromTheWire : Obligations.CalibrateLearnsFromTheWire := by
  intro s f ackLow ackHigh counts rest calm hq hw inited hlow hhigh sends hscript valid
  have done := calibrated_of_wire hlow hhigh sends hscript valid
  have returns : procedure 0 .calibrate s = some (calibrateAndComplete s) :=
    checkedProcedure_pass _ wellFormed_calibrate fun _ => inited
  obtain ⟨p, k, run⟩ := reaches_calibrate calm hq hw (Nat.one_le_of_lt hlow) returns
  generalize calibrateAndComplete s = u at done run
  exact ⟨_, run, rfl, done.frame, done.status, done.threshold, done.timeout, done.outside.rawT, done.outside.rawH,
    done.outside.t, done.outside.h, done.script⟩

/-- Settles O56: `INIT` is its procedure (R152), which calibrates from the state of its assignments (R104). -/
theorem initLearnsFromTheWire : Obligations.InitLearnsFromTheWire := by
  intro s v cap f ackLow ackHigh counts rest calm hq hw hcap hlow hhigh sends hscript valid
  have done : Calibrated f counts rest (initAssign v cap s) (calibrateAndComplete (initAssign v cap s)) :=
    calibrated_of_wire hlow hhigh sends hscript valid
  have returns : procedure 0 (.init v cap) s = some (calibrateAndComplete (initAssign v cap s)) :=
    checkedProcedure_pass _ (wellFormed_init.mpr hcap) nofun
  obtain ⟨p, k, run⟩ := reaches_init calm hq hw (Nat.one_le_of_lt hlow) returns
  generalize calibrateAndComplete (initAssign v cap s) = u at done run
  exact ⟨_, run, rfl, done.frame, done.outside.variant, (congrArg Fin.val done.outside.cap).trans (capValue_val hcap),
    done.status, done.threshold, done.timeout, done.outside.rawT, done.outside.rawH, done.outside.t, done.outside.h⟩

end Sys2Proof
end

section
/-! PROOF. The retry loop of the frame acquirer (42_frame_acquirer.md R110, R111), and what no step of `ACQUIRE`
changes (R113). -/

namespace Sys2Proof.Machine

/-! ### What one attempt puts on the trace -/

/-- Polling puts no event on the trace but reads and poll delays. -/
theorem OnlyPolls.countP_eq {us n : Nat} {old new : List PortEvent} (h : OnlyPolls us n old new)
    {p : PortEvent → Bool} (hread : ∀ l, p (.read l) = false) (hdelay : p (.delayUs us) = false) :
    new.countP p = old.countP p := by
  obtain ⟨polls, rfl, hpolls, -, -⟩ := h
  have none : polls.countP p = 0 := by
    rw [List.countP_eq_zero]
    intro e he
    obtain ⟨l, rfl⟩ | rfl := hpolls e he
    · rw [hread l]; exact Bool.false_ne_true
    · rw [hdelay]; exact Bool.false_ne_true
  rw [List.countP_append, none, Nat.zero_add]

/-- Of the events that are no polls, an attempt puts on the trace its handshake's (R83, R89). -/
theorem attempt_countP (cal : Bool) (s : State) {p : PortEvent → Bool} (hread : ∀ l, p (.read l) = false)
    (hdelay : p (.delayUs s.params.pollUs) = false) :
    (attempt cal s).trace.countP p = (handshake s).trace.countP p := by
  rw [attempt_eq, attemptTail_trace, (onlyPolls_attemptBits cal s).countP_eq hread hdelay, handshake_trace,
    handshake_trace, clearAttempt_trace, clearAttempt_params]

theorem attempt_countP_isStart (cal : Bool) (s : State) :
    (attempt cal s).trace.countP isStart = s.trace.countP isStart + 1 := by
  rw [attempt_countP cal s (fun _ => rfl) rfl, handshake_trace, List.countP_append, Nat.add_comm]
  rfl

theorem attempt_countP_isDelayMs (cal : Bool) (s : State) :
    (attempt cal s).trace.countP isDelayMs = s.trace.countP isDelayMs + 1 := by
  rw [attempt_countP cal s (fun _ => rfl) rfl, handshake_trace, List.countP_append, Nat.add_comm]
  rfl

/-! ### What one step of an acquisition leaves -/

/-- What a step from `s` to `t` of an acquisition leaves: all that an attempt leaves, what only calibration writes, and
before the end of the attempt the frame (R113). -/
structure AcquisitionFrame (s t : State) : Prop where
  outside : SameOutside t s
  threshold : t.threshold = s.threshold
  timeout : t.timeout = s.timeout
  calOk : t.status.calOk = s.status.calOk
  calN : t.calN = s.calN
  frame : s.seq ≠ .attEnd → t.frame = s.frame

theorem SameButLine.acquisitionFrame {s t : State} (h : SameButLine t s) : AcquisitionFrame s t :=
  ⟨h.toSameOutside, h.threshold, h.timeout, congrArg Status.calOk h.status, h.calN, fun _ => h.frame⟩

theorem acquisitionFrame_complete (ok : Bool) (err : ErrorCode) (s : State) : AcquisitionFrame s (complete ok err s) :=
  ⟨rfl, rfl, rfl, rfl, rfl, fun _ => rfl⟩

theorem acquisitionFrame_startAcquire (s : State) : AcquisitionFrame s (startAcquire s) :=
  ⟨rfl, rfl, rfl, rfl, rfl, fun _ => rfl⟩

theorem acquisitionFrame_retryStep (r : BitVec 16) (s : State) : AcquisitionFrame s (retryStep r s) :=
  ⟨rfl, rfl, rfl, rfl, rfl, fun _ => rfl⟩

/-- The end of an attempt writes the frame, and beside it what its `success` writes. -/
theorem acquisitionFrame_attEnd (m : BitVec 8) {success : State → State} {s : State} (hq : s.seq = .attEnd)
    (hsuccess : ∀ a, AcquisitionFrame a (success a)) : AcquisitionFrame s (acquireAttEnd m success s) := by
  obtain ⟨-, e⟩ | ⟨-, -, e⟩ | ⟨-, -, e⟩ := acquireAttEnd_cases m success s <;> rw [e]
  · obtain ⟨outside, threshold, timeout, calOk, calN, -⟩ := hsuccess (attemptTail s)
    exact ⟨outside.trans (sameOutside_attemptTail s), threshold, timeout, calOk, calN, absurd hq⟩
  · exact ⟨rfl, rfl, rfl, rfl, rfl, absurd hq⟩
  · exact ⟨rfl, rfl, rfl, rfl, rfl, absurd hq⟩

theorem acquisitionFrame_checked {i : Instr} {s t go : State} (h : checked i s (.next go) = .next t)
    (hgo : AcquisitionFrame s go) : AcquisitionFrame s t := by
  obtain ⟨-, e⟩ | ⟨-, -, -, e⟩ | ⟨-, -, e⟩ := checked_cases i s (.next go) <;> cases e.symm.trans h
  · exact acquisitionFrame_complete _ _ s
  · exact acquisitionFrame_complete _ _ s
  · exact hgo

/-- A step of `ACQUIRE` or `READ` outside `FILTER` stays in the frame of an acquisition's step. -/
theorem acquiring_cases {i : Instr} {m : BitVec 8} {r : BitVec 16} {success : State → State} {s t : State} {filter : Out}
    (h : controlStep false s (checked i s (.next (startAcquire s))) (.next (acquireAttEnd m success s))
      (.next (retryStep r s)) filter = .next t)
    (hsuccess : ∀ a, AcquisitionFrame a (success a)) :
    (s.seq = .filter ∧ filter = .next t) ∨ AcquisitionFrame s t := by
  obtain ⟨-, e⟩ | ⟨hq, ⟨⟩⟩ | ⟨-, ⟨⟩⟩ | own | same := controlStep_line_cases h
  · exact .inr (acquisitionFrame_checked e (acquisitionFrame_startAcquire s))
  · exact .inr (acquisitionFrame_attEnd m hq hsuccess)
  · exact .inr (acquisitionFrame_retryStep r s)
  · exact .inl own
  · exact .inr same.acquisitionFrame

theorem exec_acquire_frame {m : BitVec 8} {r : BitVec 16} {s t : State} (h : exec (.acquire m r) s = .next t) :
    AcquisitionFrame s t := by
  obtain ⟨-, ⟨⟩⟩ | frame := acquiring_cases (i := .acquire m r) h (acquisitionFrame_complete true .none)
  exact frame

/-- An acquisition's step writes at most `STATUS` and the frame's two words (20_memory.md R41). -/
theorem AcquisitionFrame.regWord {s t : State} (h : AcquisitionFrame s t) {addr : Addr} (h1 : addr ≠ 0x01)
    (h5 : addr ≠ 0x05) (h6 : addr ≠ 0x06) : regWord t addr = regWord s addr := by
  obtain rfl | h3 := eq_or_ne addr 0x03
  · exact congrArg (BitVec.setWidth 32) h.threshold
  obtain rfl | h4 := eq_or_ne addr 0x04
  · exact congrArg (BitVec.setWidth 32) h.timeout
  exact h.outside.regWord h1 h3 h4 h5 h6

end Sys2Proof.Machine

namespace Sys2Proof

open Sys2Proof.Machine

/-- Settles O44: every step of `ACQUIRE`, the refusals included, stays in the frame of an acquisition's step.
(`protected`, so that `acquireFrame` alone stays the model's procedure.) -/
protected theorem acquireFrame : Obligations.AcquireFrame := by
  intro s t m r h
  have same := exec_acquire_frame h
  exact ⟨fun _ => same.regWord, same.threshold, same.timeout, same.outside.t, same.outside.h, same.outside.rawT,
    same.outside.rawH, same.outside.variant, same.outside.cap, same.outside.inited, same.calOk, same.outside.tAcc,
    same.outside.hAcc, same.outside.overrun, same.calN, same.outside.cmdW, same.frame, same.outside.environment⟩

/-! ### The attempts of a call (R111) -/

theorem attempt_threshold (cal : Bool) (s : State) : (attempt cal s).threshold = s.threshold := by
  rw [attempt_eq, attemptTail_threshold, (sameButLine_attemptBits cal s).threshold]

theorem attempt_attN (cal : Bool) (s : State) : (attempt cal s).attN = s.attN := by
  rw [attempt_eq, attemptTail_attN, (sameButLine_attemptBits cal s).attN]

/-- With a budget that is not used up, one more failure is counted in `att_n` without a wrap (R112). -/
theorem countAttempt_attN_val {m : BitVec 8} {s : State} (h : BudgetOpen m s) (hm : 0 < maxattValue m) :
    (countAttempt m s).attN.val = s.attN.val + 1 := by
  have left := h.1 hm
  have most : maxattValue m < 128 := BitVec.toInt_lt (x := m)
  rw [countAttempt_attN, if_pos hm]
  exact Fin.val_add_one_of_lt (Fin.lt_def.mpr (show s.attN.val < 127 by omega))

/-- What `k` attempts of the retry loop, the last of which ends in `t`, have done since the loop stood in `s`: they
were counted against the budget, each put its start pulse on the trace, and a retry delay stands between two of them. -/
structure Attempted (m : BitVec 8) (k : Nat) (s t : State) : Prop where
  pos : 1 ≤ k
  within : 0 < maxattValue m → (s.attN.val : Int) + k ≤ maxattValue m
  failed : t.cause ≠ .none → 0 < maxattValue m ∧ (s.attN.val : Int) + k = maxattValue m
  starts : t.trace.countP isStart = s.trace.countP isStart + k
  delays : t.trace.countP isDelayMs = s.trace.countP isDelayMs + k + (k - 1)
  threshold : t.threshold = s.threshold
  timeout : t.timeout = s.timeout

section Loop

variable {m : BitVec 8} {r : BitVec 16} {s t : State}

/-- The last attempt of a call, which its count or its success does not touch. -/
theorem attempted_one (hb : BudgetOpen m s) (htrace : t.trace = (attempt false s).trace)
    (hthreshold : t.threshold = (attempt false s).threshold) (htimeout : t.timeout = (attempt false s).timeout)
    (hfailed : t.cause ≠ .none → 0 < maxattValue m ∧ (s.attN.val : Int) + 1 = maxattValue m) : Attempted m 1 s t where
  pos := Nat.le_refl 1
  within := hb.1
  failed := hfailed
  starts := by rw [htrace, attempt_countP_isStart]
  delays := by rw [htrace, attempt_countP_isDelayMs]
  threshold := hthreshold.trans (attempt_threshold false s)
  timeout := htimeout.trans (attempt_timeout false s)

theorem attempted_success (hb : BudgetOpen m s) (h : (attempt false s).cause = .none) :
    Attempted m 1 s (attempt false s) := attempted_one hb rfl rfl rfl (absurd h)

theorem budgetOpen_attempt (hb : BudgetOpen m s) : BudgetOpen m (attempt false s) := by
  rwa [BudgetOpen, attempt_attN]

theorem attempted_exhausted (hb : BudgetOpen m s) (h : budgetExhausted m (countAttempt m (attempt false s)) = true) :
    Attempted m 1 s (countAttempt m (attempt false s)) := by
  obtain ⟨hm, spent⟩ := of_decide_eq_true h
  rw [countAttempt_attN_val (budgetOpen_attempt hb) hm, attempt_attN] at spent
  exact attempted_one hb (countAttempt_trace ..) (countAttempt_threshold ..) (countAttempt_timeout ..)
    fun _ => ⟨hm, spent⟩

theorem budgetOpen_retry (hb : BudgetOpen m s) (h : budgetExhausted m (countAttempt m (attempt false s)) = false)
    (n : Nat) : BudgetOpen m (portDelayMillis n (countAttempt m (attempt false s))) := by
  rw [BudgetOpen, portDelayMillis_attN]
  exact budgetOpen_countAttempt (budgetOpen_attempt hb) h

/-- An attempt that failed and left budget, and its retry delay, stand before the attempts that follow. -/
theorem Attempted.retry {k n : Nat} (hb : BudgetOpen m s)
    (h : Attempted m k (portDelayMillis n (countAttempt m (attempt false s))) t) : Attempted m (k + 1) s t := by
  obtain ⟨pos, within, failed, starts, delays, threshold, timeout⟩ := h
  have counted (hm : 0 < maxattValue m) :
      (portDelayMillis n (countAttempt m (attempt false s))).attN.val = s.attN.val + 1 := by
    rw [portDelayMillis_attN, countAttempt_attN_val (budgetOpen_attempt hb) hm, attempt_attN]
  rw [portDelayMillis_trace, countAttempt_trace, List.countP_cons_of_neg Bool.false_ne_true,
    attempt_countP_isStart] at starts
  rw [portDelayMillis_trace, countAttempt_trace, List.countP_cons_of_pos rfl, attempt_countP_isDelayMs] at delays
  rw [portDelayMillis_threshold, countAttempt_threshold, attempt_threshold] at threshold
  rw [portDelayMillis_timeout, countAttempt_timeout, attempt_timeout] at timeout
  exact {
    pos := Nat.le_add_left 1 k
    within := fun hm => by have := within hm; rw [counted hm] at this; omega
    failed := fun hc => by
      obtain ⟨hm, spent⟩ := failed hc
      rw [counted hm] at spent
      exact ⟨hm, by omega⟩
    starts := by omega
    delays := by omega
    threshold := threshold
    timeout := timeout }

/-- The loop, entered with budget left, returns only after attempts that it counted. -/
theorem attempted_acquireLoop {fuel : Nat} (hb : BudgetOpen m s) (h : acquireLoop m r fuel s = some t) :
    ∃ k, Attempted m k s t := by
  induction fuel generalizing s with
  | zero => cases h
  | succ fuel ih =>
    by_cases hcause : (attempt false s).cause = .none
    · rw [acquireLoop_success hcause] at h
      cases h
      exact ⟨1, attempted_success hb hcause⟩
    rw [acquireLoop_failure hcause] at h
    cases spent : budgetExhausted m (countAttempt m (attempt false s)) with
    | true =>
      rw [spent, if_pos rfl] at h
      cases h
      exact ⟨1, attempted_exhausted hb spent⟩
    | false =>
      rw [spent, if_neg Bool.false_ne_true] at h
      obtain ⟨k, later⟩ := ih (budgetOpen_retry hb spent _) h
      exact ⟨k + 1, later.retry hb⟩

end Loop

/-- Settles O33: a call enters the loop with `att_n = 0`. -/
theorem retryLoopCountsAttempts : Obligations.RetryLoopCountsAttempts := by
  intro fuel m r s t _ h
  obtain ⟨k, pos, within, failed, starts, delays, threshold, timeout⟩ :=
    attempted_acquireLoop (s := clearAttN s) (budgetOpen_zero m rfl) h
  simp only [clearAttN_attN, Fin.val_zero, Nat.cast_zero, Int.zero_add] at within failed
  exact ⟨k, pos, within, failed, starts, delays, threshold, timeout⟩

end Sys2Proof
end

section
/-! PROOF. `ACQUIRE` on a line that answers a valid frame (42_frame_acquirer.md R110, R113): the first attempt receives
it, so `AcquireFrame` returns at once, and the sequencer reaches the end of that procedure. -/

namespace Sys2Proof

open Sys2Proof.Machine

/-- What `AcquireFrame` leaves in `a` when called in `s` on a line that answers the valid frame `f`, and then `rest`. -/
structure Received (f : Frame) (rest : List Level) (s a : State) : Prop where
  outside : SameOutside a s
  cause : a.cause = .none
  frame : a.frame = f
  status : a.status = { s.status with frameOk := true }
  threshold : a.threshold = s.threshold
  timeout : a.timeout = s.timeout
  script : a.script = rest

/-- The first attempt receives the frame, and the call returns on it. -/
theorem acquireFrame_of_wire {m : BitVec 8} {r : BitVec 16} {s : State} {f : Frame} {ackLow ackHigh : Nat}
    {counts : List (Nat × Nat)} {rest : List Level} (hlow : ackLow < s.timeout.toNat)
    (hhigh : ackHigh < s.timeout.toNat) (sends : CountsSend false s counts f)
    (hscript : s.script = wireSamples ackLow ackHigh counts ++ rest) (valid : frameValid f = true) :
    ∃ a, acquireFrame 1 m r s = some a ∧ Received f rest s a := by
  obtain ⟨frame, -, -, cause, -, -, script⟩ :=
    attemptReceivesTheSentFrame false (clearAttN s) f ackLow ackHigh counts rest hlow hhigh sends hscript
  have success : (attempt false (clearAttN s)).cause = .none := cause.trans (attemptCause_none.mpr ⟨rfl, valid⟩)
  have status := attempt_status false (clearAttN s)
  rw [success] at status
  exact ⟨_, acquireLoop_success success, sameOutside_attempt false (clearAttN s), success, frame, status,
    attempt_threshold false _, attempt_timeout false _, script⟩

/-- Settles O57: `ACQUIRE` is its procedure (R152), which completes with the frame that `AcquireFrame` received. -/
theorem acquireDeliversTheSentFrame : Obligations.AcquireDeliversTheSentFrame := by
  intro s m r f ackLow ackHigh counts rest calm hq hw inited hm hlow hhigh sends hscript valid
  obtain ⟨a, call, received⟩ := acquireFrame_of_wire (m := m) (r := r) hlow hhigh sends hscript valid
  have returns : procedure 1 (.acquire m r) s = some (complete true .none a) :=
    calc
      procedure 1 (.acquire m r) s = (acquireFrame 1 m r s).map fun a =>
          complete (decide (a.cause = .none)) a.cause a :=
        checkedProcedure_pass _ (wellFormed_acquire.mpr hm) fun _ => inited
      _ = some (complete true .none a) := by simp [call, received.cause]
  obtain ⟨p, k, run⟩ := reaches_acquire calm hq hw (Nat.one_le_of_lt hlow) returns
  obtain ⟨outside, -, rfl, status, threshold, timeout, script⟩ := received
  exact ⟨_, run, rfl, rfl, congrArg (Status.completed true .none) status, rfl, rfl, threshold, timeout, outside.rawT,
    outside.rawH, outside.t, outside.h, script⟩

end Sys2Proof
end

section
/-! PROOF. The decoder (43_decoder.md): `Frac` by the number of decimal digits (R121), what the two variants decode a
frame to (R122, R123), and the ranges of their readings (R124). -/

namespace Sys2Proof

open Sys2Proof.Machine

/-! ### Decimal digits after the point -/

/-- The digit count, from the powers of ten around a number. -/
theorem length_digits_of_pow_le_of_lt_pow {n k : Nat} (low : 10 ^ k ≤ n) (high : n < 10 ^ (k + 1)) :
    (Nat.digits 10 n).length = k + 1 :=
  le_antisymm ((Nat.digits_length_le_iff (by decide) n).mpr high) ((Nat.lt_digits_length_iff (by decide) n).mpr low)

theorem frac_of_toNat_eq_zero {n : BitVec 8} (zero : n.toNat = 0) : frac n = 0 := if_pos zero

/-- The rows of R121's table for a byte other than 0 are one, by the number `k + 1` of its digits. -/
theorem frac_eq_mul_pow {n : BitVec 8} (nonzero : n.toNat ≠ 0) :
    ∃ k ≤ 2, 10 ^ k ≤ n.toNat ∧ n.toNat < 10 ^ (k + 1) ∧ frac n = n.toNat * 10 ^ (2 - k) := by
  have byte := n.isLt
  rw [frac, if_neg nonzero]
  split
  · exact ⟨0, by omega, by omega, by omega, rfl⟩
  · split
    · exact ⟨1, by omega, by omega, by omega, rfl⟩
    · exact ⟨2, by omega, by omega, by omega, by omega⟩

/-- Settles O34: `k + 1` digits scale `Frac(n)` from `n * 10 ^ (2 - k)` to `n * 10 ^ 3`. -/
theorem fracIsDecimalDigits : Obligations.FracIsDecimalDigits := by
  intro n
  by_cases zero : n.toNat = 0
  · simp [frac_of_toNat_eq_zero zero, zero]
  · obtain ⟨k, le_two, low, high, scaled⟩ := frac_eq_mul_pow zero
    have three : 2 - k + (k + 1) = 3 := by omega
    calc
      frac n * 10 ^ (Nat.digits 10 n.toNat).length = n.toNat * 10 ^ (2 - k) * 10 ^ (k + 1) := by
        rw [length_digits_of_pow_le_of_lt_pow low high, scaled]
      _ = n.toNat * 10 ^ 3 := by rw [Nat.mul_assoc, ← pow_add, three]

/-! ### The two variants -/

/-- The high bit of a byte is its sign in variant B. -/
theorem getLsbD_seven_eq_decide (b : BitVec 8) : b.getLsbD 7 = decide (128 ≤ b.toNat) :=
  (BitVec.msb_eq_getLsbD_last b).symm.trans (BitVec.msb_eq_decide b)

theorem decodeB_temperature_of_lt (b0 b1 b3 : BitVec 8) {b2 : BitVec 8} (clear : b2.toNat < 128) :
    (decodeB b0 b1 b2 b3).1 = (b2.toNat * 256 + b3.toNat) * 100 := by
  simp [decodeB, Nat.not_le.mpr clear, Nat.mod_eq_of_lt clear]

theorem decodeB_temperature_of_le (b0 b1 b3 : BitVec 8) {b2 : BitVec 8} (set : 128 ≤ b2.toNat) :
    (decodeB b0 b1 b2 b3).1 = -(((b2.toNat - 128) * 256 + b3.toNat) * 100 : Nat) := by
  have magnitude : b2.toNat % 128 = b2.toNat - 128 := by have := b2.isLt; omega
  simp only [decodeB, if_pos set, magnitude]

/-- Settles O35: the temperature of variant B by the high bit of byte 2, the rest as the definitions say. -/
theorem decoderVariants : Obligations.DecoderVariants := by
  intro f
  refine ⟨Nat.cast_add _ _, Nat.cast_add _ _, Nat.cast_mul _ _, fun clear => ?_, fun set => ?_⟩
  · rw [getLsbD_seven_eq_decide, decide_eq_false_iff_not, Nat.not_le] at clear
    exact decodeB_temperature_of_lt _ _ _ clear
  · rw [getLsbD_seven_eq_decide, decide_eq_true_iff] at set
    exact decodeB_temperature_of_le _ _ _ set

/-! ### The ranges of the readings -/

/-- A quantity of variant A: the whole part is at most 255, and `Frac` at most 990. -/
theorem decodeA_range (b0 b1 b2 b3 : BitVec 8) :
    (0 ≤ (decodeA b0 b1 b2 b3).1 ∧ (decodeA b0 b1 b2 b3).1 ≤ 255990) ∧
      0 ≤ (decodeA b0 b1 b2 b3).2 ∧ (decodeA b0 b1 b2 b3).2 ≤ 255990 := by
  have whole0 := b0.isLt
  have whole2 := b2.isLt
  have frac1 := frac_le b1
  have frac3 := frac_le b3
  simp only [decodeA]
  omega

/-- Written to the signed 32-bit registers, both readings of a frame keep their values. -/
theorem toInt_ofInt_decodeFrame (v : Variant) (f : Frame) :
    (BitVec.ofInt 32 (decodeFrame v f).1).toInt = (decodeFrame v f).1 ∧
      (BitVec.ofInt 32 (decodeFrame v f).2).toInt = (decodeFrame v f).2 := by
  obtain ⟨⟨tLow, tHigh⟩, hLow, hHigh⟩ := decodeFrame_range v f
  exact ⟨toInt_ofInt_reading _ (by omega) (by omega), toInt_ofInt_reading _ (by omega) hHigh⟩

/-- Settles O36: the range of each variant, and that of both, which the registers hold. -/
theorem decodedReadingsStayInRange : Obligations.DecodedReadingsStayInRange := by
  intro f
  obtain ⟨rangeA_t, rangeA_h⟩ := decodeA_range (frameByte f 0) (frameByte f 1) (frameByte f 2) (frameByte f 3)
  obtain ⟨rangeB_t, rangeB_h⟩ := decodeFrame_range .b f
  exact ⟨rangeA_t, rangeA_h, rangeB_t, rangeB_h, fun v => toInt_ofInt_decodeFrame v f⟩

end Sys2Proof
end

section
/-! PROOF. The noise filter (44_noise_filter.md): what insertions leave in the ring (R131), the median (R132), when a
value is accepted (R133), and the deviation test (R134). -/

namespace Sys2Proof.Machine

/-! ### The ring (R131) -/

/-- Two numbers less than `c` apart are different modulo `c`. -/
theorem mod_ne_mod_of_lt_of_lt_add {j n c : Nat} (later : j < n) (near : n < j + c) : j % c ≠ n % c := by
  intro same
  have dvd : c ∣ n - j := (Nat.modEq_iff_dvd' later.le).mp same
  have := Nat.le_of_dvd (Nat.sub_pos_of_lt later) dvd
  omega

/-- `g` is the filter `f`, empty before, after the values `raws` have been inserted in this order. -/
structure Ring (cap : Fin 17) (f : Filter) (raws : List Word) (g : Filter) : Prop where
  fill : g.fill.val = min raws.length cap.val
  wr : g.wr.val = raws.length % cap.val
  recent : ∀ (j : Nat) (i : Fin 16), j < raws.length → raws.length ≤ j + cap.val → i.val = j % cap.val →
    raws[j]? = some g.buf[i]
  written : ∀ i : Fin 16, i.val < min raws.length cap.val → g.written[i] = true
  untouched : ∀ i : Fin 16, min raws.length cap.val ≤ i.val → g.written[i] = f.written[i] ∧ g.buf[i] = f.buf[i]
  dev : g.dev = f.dev
  last : g.last = f.last

theorem ring_nil {cap : Fin 17} {f : Filter} (wr : f.wr = 0) (fill : f.fill = 0) : Ring cap f [] f where
  fill := by simp [fill]
  wr := by simp [wr]
  recent := nofun
  written := by simp
  untouched := fun _ _ => ⟨rfl, rfl⟩
  dev := rfl
  last := rfl

section Insert

variable {cap : Fin 17} {f g : Filter} {raws : List Word} (h : Ring cap f raws g)
include h

/-- The value goes to the slot of its index, and replaces none that is still recent. -/
theorem Ring.insert_recent (x : Word) {j : Nat} {i : Fin 16} (hj : j < raws.length + 1)
    (near : raws.length + 1 ≤ j + cap.val) (hi : i.val = j % cap.val) :
    (raws ++ [x])[j]? = some (g.insert cap x).buf[i] := by
  rw [insert_buf]
  obtain earlier | rfl := Nat.lt_succ_iff_lt_or_eq.mp hj
  · have other : g.wr ≠ i := fun e =>
      mod_ne_mod_of_lt_of_lt_add earlier near (by rw [← hi, ← e, h.wr])
    rw [List.getElem?_append_left earlier, if_neg other]
    exact h.recent j i earlier (by omega) hi
  · rw [List.getElem?_concat_length, if_pos (Fin.ext (h.wr.trans hi.symm))]

/-- An insertion marks its slot, the next one of the warm-up or one marked before. -/
theorem Ring.insert_marks (x : Word) {i : Fin 16} (hi : i.val < min (raws.length + 1) cap.val) :
    (g.insert cap x).written[i] = true := by
  rw [insert_written]
  split
  · rfl
  · next other =>
    have old : i.val ≠ raws.length := fun e =>
      other (Fin.ext (h.wr.trans (by rw [← e, Nat.mod_eq_of_lt (by omega)])))
    exact h.written i (by omega)

/-- The slots above the ring stay. -/
theorem Ring.insert_untouched (hcap : 1 ≤ cap.val) (x : Word) {i : Fin 16}
    (hi : min (raws.length + 1) cap.val ≤ i.val) :
    (g.insert cap x).written[i] = f.written[i] ∧ (g.insert cap x).buf[i] = f.buf[i] := by
  have other : g.wr ≠ i := by
    rintro rfl
    have := Nat.mod_le raws.length cap.val
    have := Nat.mod_lt raws.length hcap
    have := h.wr
    omega
  rw [insert_written, insert_buf, if_neg other, if_neg other]
  exact h.untouched i (by omega)

theorem Ring.insert (hcap : 1 ≤ cap.val) (x : Word) : Ring cap f (raws ++ [x]) (g.insert cap x) := by
  have length : (raws ++ [x]).length = raws.length + 1 := List.length_append
  exact {
    fill := by
      have := h.fill
      rw [insert_fill_val, length]
      split <;> omega
    wr := by rw [insert_wr_val cap x g hcap, h.wr, length, Nat.mod_add_mod]
    recent := fun j i hj near hi => h.insert_recent x (length ▸ hj) (length ▸ near) hi
    written := fun i hi => h.insert_marks x (length ▸ hi)
    untouched := fun i hi => h.insert_untouched hcap x (length ▸ hi)
    dev := h.dev
    last := h.last }

end Insert

theorem ring_foldl {cap : Fin 17} {f : Filter} (hcap : 1 ≤ cap.val) (wr : f.wr = 0) (fill : f.fill = 0)
    (raws : List Word) : Ring cap f raws (raws.foldl (fun a x => a.insert cap x) f) := by
  induction raws using List.reverseRecOn with
  | nil => exact ring_nil wr fill
  | append_singleton raws x ih =>
    rw [List.foldl_append]
    exact ih.insert hcap x

/-! ### The median (R132) -/

/-- Two sorted arrangements of the same values are one. -/
theorem eq_sortInts_of_perm {sorted l : List Int} (perm : sorted.Perm l)
    (order : sorted.Pairwise (fun a b => a ≤ b)) : sorted = sortInts l :=
  (perm.trans (sortInts_perm l).symm).eq_of_pairwise (fun _ _ _ _ => le_antisymm) order (sortInts_sorted l)

theorem length_contents (cap : Fin 17) (f : Filter) : (f.contents cap).length = cap.val := by
  have := cap.isLt
  rw [Filter.contents, List.length_map, List.length_take, Vector.length_toList]
  omega

/-! ### The verdict on a value (R133) -/

theorem accepts_zero (x : Word) (f : Filter) : f.accepts 0 x = true := rfl

theorem accept_zero (x : Word) (f : Filter) : f.accept 0 x = { f with last := x } := rfl

section Verdict

variable {cap : Fin 17} {x : Word} {f : Filter}

theorem accepts_warmUp (warm : f.fill.val < cap.val) : f.accepts cap x = true := by
  rw [Filter.accepts, if_pos (Fin.lt_def.mpr warm), ite_self]

theorem accepts_full (hcap : 1 ≤ cap.val) (full : cap.val ≤ f.fill.val) :
    f.accepts cap x = within x.toInt (f.median cap) f.dev := by
  rw [Filter.accepts, if_neg (Nat.ne_of_gt hcap), if_neg (Fin.not_lt.mpr full)]

theorem accept_of_accepts (hcap : 1 ≤ cap.val) (accepted : f.accepts cap x = true) :
    f.accept cap x = ({ f with last := x } : Filter).insert cap x := by
  rw [Filter.accept, if_pos accepted]
  exact if_neg (Nat.ne_of_gt hcap)

theorem accept_of_rejects (hcap : 1 ≤ cap.val) (rejected : f.accepts cap x = false) :
    f.accept cap x = f.insert cap x := by
  rw [Filter.accept, rejected]
  exact if_neg (Nat.ne_of_gt hcap)

end Verdict

/-! ### The deviation test (R134) -/

theorem within_iff {raw med : Int} {dev : BitVec 16} :
    within raw med dev = true ↔ |raw - med| * 1000 ≤ med * dev.toNat := by
  rw [within, decide_eq_true_iff, Int.natCast_natAbs]

/-- Where the right side of the test is 0 only the median is within. -/
theorem within_iff_eq {raw med : Int} {dev : BitVec 16} (zero : med * dev.toNat = 0) :
    within raw med dev = true ↔ raw = med := by
  rw [within_iff, zero, ← sub_eq_zero (a := raw), ← abs_nonpos_iff]
  omega

/-- The left side of the test is not negative, the right one is. -/
theorem within_eq_false_of_neg {raw med : Int} {dev : BitVec 16} (neg : med < 0) (pos : 0 < dev.toNat) :
    within raw med dev = false := by
  rw [Bool.eq_false_iff, Ne, within_iff, not_le]
  calc
    med * dev.toNat < 0 := Int.mul_neg_of_neg_of_pos neg (Int.natCast_pos.mpr pos)
    _ ≤ |raw - med| * 1000 := Int.mul_nonneg (abs_nonneg _) (by decide)

theorem abs_mul_dev_lt {med : Int} (dev : BitVec 16) (bound : |med| ≤ 6553500) : |med * dev.toNat| < 2 ^ 40 := by
  have fraction : (dev.toNat : Int) ≤ 65535 := by have := dev.isLt; omega
  calc
    |med * dev.toNat| = |med| * dev.toNat := by rw [abs_mul, Nat.abs_cast]
    _ ≤ 6553500 * 65535 := Int.mul_le_mul bound fraction (Int.natCast_nonneg _) (by decide)
    _ < 2 ^ 40 := by decide

end Sys2Proof.Machine

namespace Sys2Proof

open Sys2Proof.Machine

/-- Settles O37, by induction on the insertions, the last one first. -/
theorem insertFillsTheRing : Obligations.InsertFillsTheRing := by
  intro cap f raws hcap wr fill
  have ring := ring_foldl hcap wr fill raws
  refine ⟨ring.fill, ring.wr, fun j hj near => ?_, ring.written, ring.untouched, ring.dev, ring.last⟩
  have slot : j % cap.val < 16 := (Nat.mod_lt j hcap).trans_le (Nat.lt_succ_iff.mp cap.isLt)
  rw [ring.recent j ⟨_, slot⟩ hj near rfl]
  simp [slot]

/-- Settles O38: the used slots have one non-decreasing arrangement. -/
theorem medianIsTheUpperMiddle : Obligations.MedianIsTheUpperMiddle := by
  intro cap f hcap sorted perm order
  obtain rfl : sorted = sortInts (f.contents cap) := eq_sortInts_of_perm perm order
  have middle : cap.val / 2 < (sortInts (f.contents cap)).length := by
    rw [(sortInts_perm _).length_eq, length_contents]
    omega
  rw [Filter.median, List.getElem?_eq_getElem middle, List.getD_eq_getElem _ _ middle]

/-- Settles O39. -/
theorem acceptFollowsWarmUpThenMedian : Obligations.AcceptFollowsWarmUpThenMedian := by
  intro f x
  refine ⟨⟨accepts_zero x f, accept_zero x f⟩, fun cap hcap => ⟨fun warm => ?_, fun full => ?_⟩⟩
  · exact ⟨accepts_warmUp warm, accept_of_accepts hcap (accepts_warmUp warm)⟩
  · have verdict : f.accepts cap x = _ := accepts_full hcap full
    rw [← verdict]
    exact ⟨Iff.rfl, accept_of_accepts hcap, accept_of_rejects hcap⟩

/-- Settles O40. -/
theorem withinIsTheSignedInequality : Obligations.WithinIsTheSignedInequality := by
  intro raw med dev
  refine ⟨within_iff, within_eq_false_of_neg, within_iff_eq (Int.zero_mul _), within_iff_eq (Int.mul_zero _),
    fun distance bound => ⟨?_, abs_mul_dev_lt dev bound⟩⟩
  omega

end Sys2Proof
end

section
/-! PROOF. The commands of the noise filter: `SETDEV` (44_noise_filter.md R137), the `FILTER` step of `READ`, and what
no step of either changes (R137, R138). -/

namespace Sys2Proof.Machine

/-! ### SETDEV (R137) -/

/-- What a step of `SETDEV` can be: none in `IDLE`, a refusal, or the write of the deviation. -/
theorem exec_setdev_cases {q : Quantity} {p : BitVec 16} {s t : State} (h : exec (.setdev q p) s = .next t) :
    t = s ∨ (∃ err, t = raise err s) ∨ t = complete true .none (setDeviation q p s) := by
  cases hq : s.seq with
  | idle =>
    simp only [exec, execSetdev, hq] at h
    cases h
    exact .inl rfl
  | dispatch =>
    rw [exec_dispatch_setdev hq] at h
    obtain ⟨-, e⟩ | ⟨-, -, -, e⟩ | ⟨-, -, e⟩ := checked_cases (.setdev q p) s _ <;> cases e.symm.trans h
    · exact .inr (.inl ⟨_, rfl⟩)
    · exact .inr (.inl ⟨_, rfl⟩)
    · exact .inr (.inr rfl)
  | _ =>
    simp only [exec, execSetdev, hq] at h
    cases h

/-- What a step from `s` to `t` of `SETDEV q` leaves: all but the named deviation, the control state and the result
flags. -/
structure DeviationFrame (q : Quantity) (s t : State) : Prop where
  only : t = { s with
    t := { s.t with dev := t.t.dev }
    h := { s.h with dev := t.h.dev }
    seq := t.seq
    status := { s.status with ok := t.status.ok, err := t.status.err, done := t.status.done, busy := t.status.busy } }
  humidity : q = .temperature → t.h = s.h
  temperature : q = .humidity → t.t = s.t

theorem deviationFrame_complete (q : Quantity) (ok : Bool) (err : ErrorCode) (s : State) :
    DeviationFrame q s (complete ok err s) := ⟨rfl, fun _ => rfl, fun _ => rfl⟩

theorem deviationFrame_setDeviation (q : Quantity) (p : BitVec 16) (s : State) :
    DeviationFrame q s (complete true .none (setDeviation q p s)) :=
  match q with
  | .temperature => ⟨rfl, fun _ => rfl, nofun⟩
  | .humidity => ⟨rfl, nofun, fun _ => rfl⟩

theorem exec_setdev_frame {q : Quantity} {p : BitVec 16} {s t : State} (h : exec (.setdev q p) s = .next t) :
    DeviationFrame q s t := by
  obtain rfl | ⟨err, rfl⟩ | rfl := exec_setdev_cases h
  · exact ⟨rfl, fun _ => rfl, fun _ => rfl⟩
  · exact deviationFrame_complete q false err s
  · exact deviationFrame_setDeviation q p s

/-- The address of a quantity's deviation register (20_memory.md R41). -/
def devAddr : Quantity → Addr
  | .temperature => 0x0B
  | .humidity => 0x0C

theorem DeviationFrame.regWord {q : Quantity} {s t : State} (h : DeviationFrame q s t) {addr : Addr}
    (h1 : addr ≠ 0x01) (hdev : addr ≠ devAddr q) : regWord t addr = regWord s addr := by
  have field {α : Type} (f : State → α) := congrArg f h.only
  have devT : addr = 0x0B → t.t.dev = s.t.dev :=
    match q with
    | .temperature => (absurd · hdev)
    | .humidity => fun _ => congrArg Filter.dev (h.temperature rfl)
  have devH : addr = 0x0C → t.h.dev = s.h.dev :=
    match q with
    | .temperature => fun _ => congrArg Filter.dev (h.humidity rfl)
    | .humidity => (absurd · hdev)
  exact regWord_congr (absurd · h1) (fun _ => ⟨field State.variant, field State.cap⟩) (fun _ => field State.threshold)
    (fun _ => field State.timeout) (fun _ => field State.frame) (fun _ => field State.rawT) (fun _ => field State.rawH)
    (fun _ => field (·.t.last)) (fun _ => field (·.h.last)) devT devH
    (fun _ => ⟨field (·.t.wr), field (·.t.fill)⟩) (fun _ => ⟨field (·.h.wr), field (·.h.fill)⟩)
    fun _ _ => ⟨field (·.t.buf), field (·.h.buf)⟩

/-! ### The FILTER step (R138) -/

/-- `OK` and `ERR` from the two verdicts. -/
theorem filterStep_eq (s : State) {tAcc hAcc : Bool} (ht : (filterReading s).status.tAcc = tAcc)
    (hh : (filterReading s).status.hAcc = hAcc) :
    filterStep s = complete (tAcc && hAcc) (if tAcc = true ∧ hAcc = true then .none else .deviationReject)
      (filterReading s) := by
  obtain ⟨t, h, e⟩ | ⟨rejected, e⟩ := filterStep_cases s <;> rw [e]
  · subst ht hh
    rw [t, h]
    rfl
  · rw [ht, hh] at rejected
    rw [if_neg rejected, Bool.eq_false_iff.mpr fun both => rejected (Bool.and_eq_true_iff.mp both)]

/-! ### One step of READ -/

/-- What a step from `s` to `t` of `READ` leaves (R138): but at the end of an attempt also the frame, and but at the
`FILTER` step all that the filters judge and write. -/
structure ReadingFrame (s t : State) : Prop where
  threshold : t.threshold = s.threshold
  timeout : t.timeout = s.timeout
  variant : t.variant = s.variant
  cap : t.cap = s.cap
  devT : t.t.dev = s.t.dev
  devH : t.h.dev = s.h.dev
  inited : t.status.inited = s.status.inited
  calOk : t.status.calOk = s.status.calOk
  overrun : t.status.overrun = s.status.overrun
  calN : t.calN = s.calN
  cmdW : t.cmdW = s.cmdW
  frame : s.seq ≠ .attEnd → t.frame = s.frame
  filters : s.seq ≠ .filter → t.t = s.t ∧ t.h = s.h ∧ t.rawT = s.rawT ∧ t.rawH = s.rawH ∧
    t.status.tAcc = s.status.tAcc ∧ t.status.hAcc = s.status.hAcc
  environment : t.resetAsserted = s.resetAsserted ∧ t.params = s.params ∧ t.tail = s.tail ∧ t.hostOps = s.hostOps ∧
    t.turns = s.turns ∧ t.answers = s.answers ∧ t.draws = s.draws

theorem AcquisitionFrame.readingFrame {s t : State} (h : AcquisitionFrame s t) : ReadingFrame s t where
  threshold := h.threshold
  timeout := h.timeout
  variant := h.outside.variant
  cap := h.outside.cap
  devT := congrArg Filter.dev h.outside.t
  devH := congrArg Filter.dev h.outside.h
  inited := h.outside.inited
  calOk := h.calOk
  overrun := h.outside.overrun
  calN := h.calN
  cmdW := h.outside.cmdW
  frame := h.frame
  filters := fun _ =>
    ⟨h.outside.t, h.outside.h, h.outside.rawT, h.outside.rawH, h.outside.tAcc, h.outside.hAcc⟩
  environment := h.outside.environment

/-- Of a filter's registers `Accept` leaves the deviation. -/
theorem readingFrame_filterStep {s : State} (hq : s.seq = .filter) : ReadingFrame s (filterStep s) := by
  rw [filterStep_eq s rfl rfl]
  exact ⟨rfl, rfl, rfl, rfl, accept_dev .., accept_dev .., rfl, rfl, rfl, rfl, rfl, fun _ => rfl, absurd hq,
    ⟨rfl, rfl, rfl, rfl, rfl, rfl, rfl⟩⟩

/-- `CMD`, `CFG`, `THRESHOLD`, `TIMEOUT`, `DEV_T`, `DEV_H` and the reserved addresses (20_memory.md R41). -/
theorem ReadingFrame.regWord {s t : State} (h : ReadingFrame s t) {addr : Addr}
    (ha : addr = 0x00 ∨ addr = 0x02 ∨ addr = 0x03 ∨ addr = 0x04 ∨ addr = 0x0B ∨ addr = 0x0C ∨ addr = 0x0F ∨
      0x30 ≤ addr.toNat) : regWord t addr = regWord s addr := by
  obtain rfl | rfl | rfl | rfl | rfl | rfl | rfl | reserved := ha
  · rfl
  · change cfgWord t = cfgWord s
    rw [cfgWord, cfgWord, h.variant, h.cap]
  · exact congrArg (BitVec.setWidth 32) h.threshold
  · exact congrArg (BitVec.setWidth 32) h.timeout
  · exact congrArg (BitVec.setWidth 32) h.devT
  · exact congrArg (BitVec.setWidth 32) h.devH
  · rfl
  · rw [regWord_reserved t reserved, regWord_reserved s reserved]

/-- A step of `READ` is its `FILTER` step, or stays in the frame of an acquisition's step. -/
theorem exec_read_frame {m : BitVec 8} {r : BitVec 16} {s t : State} (h : exec (.read m r) s = .next t) :
    ReadingFrame s t := by
  obtain ⟨hq, ⟨⟩⟩ | same :=
    acquiring_cases (i := .read m r) h fun a => (sameButLine_goto .filter a).acquisitionFrame
  · exact readingFrame_filterStep hq
  · exact same.readingFrame

end Sys2Proof.Machine

namespace Sys2Proof

open Sys2Proof.Machine

/-- Settles O13. -/
theorem setdevWritesTheDeviation : Obligations.SetdevWritesTheDeviation := by
  intro s permille hq inited
  have writes (q : Quantity) :
      exec (.setdev q permille) s = .next (complete true .none (setDeviation q permille s)) := by
    rw [exec_dispatch_setdev hq, checked_pass _ rfl fun _ => inited]
  exact ⟨writes .temperature, writes .humidity⟩

/-- Settles O46: a step of `SETDEV`, the refusals included, stays in its frame. -/
theorem setdevFrame : Obligations.SetdevFrame := by
  intro s t q permille h
  have frame := exec_setdev_frame h
  refine ⟨fun addr h1 hdev => frame.regWord h1 ?_, frame.only, frame.humidity, frame.temperature⟩
  cases q <;> exact hdev

/-- Settles O41. -/
theorem filterStepCompletesRead : Obligations.FilterStepCompletesRead := by
  rintro s m r hq rawT rawH rfl rfl
  rw [exec_filter_read s hq, filterStep_eq s rfl rfl]
  rfl

/-- Settles O45: every step of `READ`, the refusals included, stays in its frame. -/
theorem readFrame : Obligations.ReadFrame := by
  intro s t m r h
  have same := exec_read_frame h
  exact ⟨fun _ => same.regWord, same.threshold, same.timeout, same.variant, same.cap, same.devT, same.devH, same.inited,
    same.calOk, same.overrun, same.calN, same.cmdW, same.frame, same.filters, same.environment⟩

end Sys2Proof
end

section
/-! PROOF. `READ` on a line that answers a valid frame (44_noise_filter.md R138, 43_decoder.md R120): the acquisition
receives it, and the `FILTER` step decodes and judges it. -/

namespace Sys2Proof

open Sys2Proof.Machine

/-- A `READ` that passes the checks and receives a valid frame ends with its `FILTER` step. -/
theorem procedure_read_of_cause_none {m : BitVec 8} {r : BitVec 16} {fuel : Nat} {s a : State} (hm : 0 ≤ m.toInt)
    (inited : s.status.inited = true) (call : acquireFrame fuel m r s = some a) (cause : a.cause = .none) :
    procedure fuel (.read m r) s = some (filterStep a) :=
  calc
    procedure fuel (.read m r) s = (acquireFrame fuel m r s).map fun a =>
        if a.cause = .none then filterStep a else complete false a.cause a :=
      checkedProcedure_pass _ (wellFormed_read.mpr hm) fun _ => inited
    _ = some (filterStep a) := by simp [call, cause]

/-- Settles O58: `READ` is its procedure (R152), which completes with the `FILTER` step on the frame that `AcquireFrame`
received. -/
theorem readDeliversTheSentReadings : Obligations.ReadDeliversTheSentReadings := by
  intro s m r f ackLow ackHigh counts rest calm hq hw inited hm hlow hhigh sends hscript valid
  obtain ⟨a, call, received⟩ := acquireFrame_of_wire (m := m) (r := r) hlow hhigh sends hscript valid
  obtain ⟨p, k, run⟩ := reaches_read calm hq hw (Nat.one_le_of_lt hlow)
    (procedure_read_of_cause_none hm inited call received.cause)
  obtain ⟨outside, -, rfl, status, threshold, timeout, script⟩ := received
  obtain ⟨decodedT, decodedH⟩ := toInt_ofInt_decodeFrame s.variant a.frame
  rw [filterStep_eq a rfl rfl] at run
  rw [← outside.variant] at decodedT decodedH ⊢
  rw [← outside.cap, ← outside.t, ← outside.h]
  refine ⟨_, run, rfl, rfl, decodedT, decodedH, rfl, rfl, rfl, rfl, Bool.and_eq_true_iff,
    if_congr Bool.and_eq_true_iff.symm rfl rfl, congrArg Status.frameOk status, rfl, rfl, threshold, timeout, script⟩

end Sys2Proof
end

section
/-! PROOF. One step of the sequencer and the host (45_sequencer.md R146, R149): the step neither reads nor writes what is
the host's, and leaves `BUSY` set until the command is over. -/

namespace Sys2Proof.Machine

/-! ### What is the host's, erased -/

/-- The block alone, port trace and reset input included, with the turns `turns`: what is the host's, `OVERRUN` with
it, is erased. -/
def blockAlone (turns : List Agent) (s : State) : State := { hostErased s with turns := turns }

theorem hostErased_eq_blockAlone (s : State) : hostErased s = blockAlone s.turns s := rfl

theorem outsideErased_eq_blockAlone (s : State) : outsideErased s = controlErased (blockAlone [] s) := rfl

/-- An outcome with a function applied to the state it goes on in. -/
def mapNext (f : State → State) : Out → Out
  | .next t => .next (f t)
  | .fault r => .fault r
  | .refused r => .refused r

theorem mapNext_eq_next {f : State → State} {o : Out} {u : State} (h : mapNext f o = .next u) :
    ∃ t, o = .next t ∧ f t = u := by
  cases o with
  | next t => exact ⟨t, rfl, Host.Outcome.next.inj h⟩
  | fault r => cases h
  | refused r => cases h

/-! ### The sequencer's step does not depend on it -/

section Blind

variable (turns : List Agent)

theorem pollStep_blockAlone (s : State) : pollStep (blockAlone turns s) = blockAlone turns (pollStep s) := by
  unfold pollStep
  rw [apply_ite (blockAlone turns)]
  rfl

theorem phaseEndStep_blockAlone (cal : Bool) (s : State) :
    phaseEndStep cal (blockAlone turns s) = blockAlone turns (phaseEndStep cal s) := by
  have phase : (blockAlone turns s).phase = s.phase := rfl
  cases hp : s.phase <;> simp only [phaseEndStep, phase, hp]
  case bitHigh => rw [apply_ite (blockAlone turns)]; rfl
  all_goals rfl

theorem calibrationAttEnd_blockAlone (s : State) :
    calibrationAttEnd (blockAlone turns s) = blockAlone turns (calibrationAttEnd s) := by
  unfold calibrationAttEnd
  simp only [apply_ite (blockAlone turns)]
  rfl

theorem acquireAttEnd_blockAlone (m : BitVec 8) {success : State → State}
    (blind : ∀ a, success (blockAlone turns a) = blockAlone turns (success a)) (s : State) :
    acquireAttEnd m success (blockAlone turns s) = blockAlone turns (acquireAttEnd m success s) := by
  unfold acquireAttEnd
  simp only [apply_ite (blockAlone turns), ← blind]
  rfl

theorem filterStep_blockAlone (s : State) : filterStep (blockAlone turns s) = blockAlone turns (filterStep s) := by
  unfold filterStep
  simp only [apply_ite (blockAlone turns)]
  rfl

theorem checked_blockAlone {i : Instr} {s : State} {go go' : Out} (start : go' = mapNext (blockAlone turns) go) :
    checked i (blockAlone turns s) go' = mapNext (blockAlone turns) (checked i s go) := by
  subst start
  unfold checked
  simp only [apply_ite (mapNext (blockAlone turns))]
  rfl

theorem controlStep_blockAlone (cal : Bool) (s : State) {a b c d a' b' c' d' : Out}
    (dispatch : a' = mapNext (blockAlone turns) a) (attEnd : b' = mapNext (blockAlone turns) b)
    (retry : c' = mapNext (blockAlone turns) c) (filter : d' = mapNext (blockAlone turns) d) :
    controlStep cal (blockAlone turns s) a' b' c' d' = mapNext (blockAlone turns) (controlStep cal s a b c d) := by
  subst dispatch attEnd retry filter
  have seq : (blockAlone turns s).seq = s.seq := rfl
  cases hq : s.seq <;> simp only [controlStep, seq, hq]
  case poll => exact congrArg _ (pollStep_blockAlone turns s)
  case phaseEnd => exact congrArg _ (phaseEndStep_blockAlone turns cal s)
  all_goals rfl

theorem execSetdev_blockAlone (q : Quantity) (p : BitVec 16) (s : State) :
    execSetdev q p (blockAlone turns s) = mapNext (blockAlone turns) (execSetdev q p s) := by
  have seq : (blockAlone turns s).seq = s.seq := rfl
  cases hq : s.seq <;> simp only [execSetdev, seq, hq]
  case dispatch => exact checked_blockAlone turns (by cases q <;> rfl)
  all_goals rfl

theorem exec_blockAlone (i : Instr) (s : State) :
    exec i (blockAlone turns s) = mapNext (blockAlone turns) (exec i s) :=
  match i with
  | .init _ _ =>
    controlStep_blockAlone turns true s (checked_blockAlone turns rfl)
      (congrArg _ (calibrationAttEnd_blockAlone turns s)) rfl rfl
  | .calibrate =>
    controlStep_blockAlone turns true s (checked_blockAlone turns rfl)
      (congrArg _ (calibrationAttEnd_blockAlone turns s)) rfl rfl
  | .acquire m _ =>
    controlStep_blockAlone turns false s (checked_blockAlone turns rfl)
      (congrArg _ (acquireAttEnd_blockAlone turns m (success := complete true .none) (fun _ => rfl) s)) rfl rfl
  | .read m _ =>
    controlStep_blockAlone turns false s (checked_blockAlone turns rfl)
      (congrArg _ (acquireAttEnd_blockAlone turns m (success := goto .filter) (fun _ => rfl) s)) rfl
      (congrArg _ (filterStep_blockAlone turns s))
  | .setdev q p => execSetdev_blockAlone turns q p s

theorem sequencerStep_blockAlone (s : State) :
    sequencerStep (blockAlone turns s) = mapNext (blockAlone turns) (sequencerStep s) := by
  by_cases hq : s.seq = .idle
  · simp only [sequencerStep, hq, show (blockAlone turns s).seq = .idle from hq, mapNext]
  cases hw : decode s.cmdW with
  | ok i =>
    rw [sequencerStep_exec (s := blockAlone turns s) hw hq, sequencerStep_exec hw hq, exec_blockAlone]
  | error e =>
    have seq : (blockAlone turns s).seq = s.seq := rfl
    have cmdW : (blockAlone turns s).cmdW = s.cmdW := rfl
    cases hs : s.seq <;> simp only [sequencerStep, seq, cmdW, hs, hw, mapNext]
    rfl

end Blind

/-- Two blocks alike but for what is the host's make the same step. -/
theorem sequencerStep_alike {turns : List Agent} {s c t : State} (alike : blockAlone turns s = blockAlone turns c)
    (h : sequencerStep c = .next t) :
    ∃ u, sequencerStep s = .next u ∧ blockAlone turns u = blockAlone turns t := by
  refine mapNext_eq_next ?_
  rw [← sequencerStep_blockAlone, alike, sequencerStep_blockAlone, h, mapNext]

/-! ### What a step keeps while the command runs -/

/-- From `s` to `t` what is the host's stays, and `BUSY` until the block is idle. -/
def KeepsRunning (s t : State) : Prop := hostSide t = hostSide s ∧ (t.seq ≠ .idle → t.status.busy = s.status.busy)

theorem SameButLine.keepsRunning {s t : State} (h : SameButLine t s) : KeepsRunning s t :=
  ⟨h.toSameOutside.hostSide, fun _ => congrArg Status.busy h.status⟩

theorem keepsRunning_complete (ok : Bool) (err : ErrorCode) (s : State) : KeepsRunning s (complete ok err s) :=
  ⟨rfl, absurd rfl⟩

theorem keepsRunning_checked {i : Instr} {s t go : State} (h : checked i s (.next go) = .next t)
    (hgo : KeepsRunning s go) : KeepsRunning s t := by
  obtain ⟨-, e⟩ | ⟨-, -, -, e⟩ | ⟨-, -, e⟩ := checked_cases i s (.next go) <;> cases e.symm.trans h
  · exact keepsRunning_complete _ _ s
  · exact keepsRunning_complete _ _ s
  · exact hgo

theorem keepsRunning_calibrationAttEnd (s : State) : KeepsRunning s (calibrationAttEnd s) := by
  obtain ⟨-, e⟩ | ⟨-, -, e⟩ | ⟨-, -, e⟩ := calibrationAttEnd_cases s <;> rw [e]
  · exact ⟨rfl, absurd rfl⟩
  · exact ⟨rfl, absurd rfl⟩
  · exact ⟨rfl, fun _ => rfl⟩

theorem keepsRunning_acquireAttEnd (m : BitVec 8) {success : State → State} (s : State)
    (hsuccess : KeepsRunning s (success (attemptTail s))) : KeepsRunning s (acquireAttEnd m success s) := by
  obtain ⟨-, e⟩ | ⟨-, -, e⟩ | ⟨-, -, e⟩ := acquireAttEnd_cases m success s <;> rw [e]
  · exact hsuccess
  · exact ⟨rfl, absurd rfl⟩
  · exact ⟨rfl, fun _ => rfl⟩

theorem keepsRunning_filterStep (s : State) : KeepsRunning s (filterStep s) := by
  rw [filterStep_eq s rfl rfl]
  exact ⟨rfl, absurd rfl⟩

/-- A step of `INIT` or `CALIBRATE`, which differ in what they start with. -/
theorem keepsRunning_calibrating {i : Instr} {s t go : State}
    (h : controlStep true s (checked i s (.next go)) (.next (calibrationAttEnd s)) (.fault .strayControl)
      (.fault .strayControl) = .next t)
    (hgo : KeepsRunning s go) : KeepsRunning s t := by
  obtain ⟨-, e⟩ | ⟨-, ⟨⟩⟩ | ⟨-, ⟨⟩⟩ | ⟨-, ⟨⟩⟩ | same := controlStep_line_cases h
  · exact keepsRunning_checked e hgo
  · exact keepsRunning_calibrationAttEnd s
  · exact same.keepsRunning

/-- A step of `ACQUIRE` or `READ`, which differ in what they do with a valid frame. -/
theorem keepsRunning_acquiring {i : Instr} {m : BitVec 8} {r : BitVec 16} {success : State → State} {s t : State}
    {filter : Out}
    (h : controlStep false s (checked i s (.next (startAcquire s))) (.next (acquireAttEnd m success s))
      (.next (retryStep r s)) filter = .next t)
    (hsuccess : KeepsRunning s (success (attemptTail s))) (hfilter : filter = .next t → KeepsRunning s t) :
    KeepsRunning s t := by
  obtain ⟨-, e⟩ | ⟨-, ⟨⟩⟩ | ⟨-, ⟨⟩⟩ | ⟨-, e⟩ | same := controlStep_line_cases h
  · exact keepsRunning_checked e ⟨rfl, fun _ => rfl⟩
  · exact keepsRunning_acquireAttEnd m s hsuccess
  · exact ⟨rfl, fun _ => rfl⟩
  · exact hfilter e
  · exact same.keepsRunning

theorem keepsRunning_exec {i : Instr} {s t : State} (h : exec i s = .next t) : KeepsRunning s t := by
  cases i with
  | init v cap => exact keepsRunning_calibrating h ⟨rfl, fun _ => rfl⟩
  | calibrate => exact keepsRunning_calibrating h ⟨rfl, fun _ => rfl⟩
  | acquire m r => exact keepsRunning_acquiring h ⟨rfl, absurd rfl⟩ nofun
  | read m r =>
    exact keepsRunning_acquiring h ⟨rfl, fun _ => rfl⟩ fun e =>
      Host.Outcome.next.inj e ▸ keepsRunning_filterStep s
  | setdev q p =>
    obtain rfl | ⟨err, rfl⟩ | rfl := exec_setdev_cases h
    · exact ⟨rfl, fun _ => rfl⟩
    · exact keepsRunning_complete false err s
    · cases q <;> exact ⟨rfl, absurd rfl⟩

theorem keepsRunning_sequencerStep {s t : State} (h : sequencerStep s = .next t) : KeepsRunning s t := by
  obtain ⟨-, rfl⟩ | ⟨-, i, -, he⟩ | ⟨-, -, rfl⟩ := sequencerStep_cases h
  · exact ⟨rfl, fun _ => rfl⟩
  · exact keepsRunning_exec he
  · exact keepsRunning_complete _ _ s

/-! ### A host operation while a command runs -/

theorem hostStep_turns (s : State) : (hostStep s).turns = s.turns := by
  obtain e | ⟨_, _, e⟩ | ⟨addr, w, ops, e⟩ := hostStep_cases s <;> rw [e]
  · rfl
  · obtain ⟨-, e⟩ | ⟨-, -, e⟩ | ⟨-, -, e⟩ := memWrite_cases addr w { s with hostOps := ops } <;> rw [e]
    rfl

/-- It changes nothing of the block but `OVERRUN`. -/
theorem blockAlone_hostStep (turns : List Agent) {s : State} (busy : s.status.busy = true) :
    blockAlone turns (hostStep s) = blockAlone turns s := by
  obtain ⟨_, _, _, _, e⟩ := hostStep_busy s busy
  rw [e]
  rfl

end Sys2Proof.Machine

namespace Sys2Proof

open Sys2Proof.Machine

/-- Settles O18: the block, its turns kept, is the same after the host operation, so its step is. -/
theorem hostOperationsDoNotDisturbTheCommand : Obligations.HostOperationsDoNotDisturbTheCommand := by
  intro s t busy h
  obtain ⟨u, hu, alike⟩ := sequencerStep_alike (blockAlone_hostStep s.turns busy) h
  obtain ⟨turnsT, -⟩ := hostSide_eq_iff.mp (keepsRunning_sequencerStep h).1
  obtain ⟨turnsU, -⟩ := hostSide_eq_iff.mp (keepsRunning_sequencerStep hu).1
  refine ⟨u, hu, ?_⟩
  rwa [hostErased_eq_blockAlone, hostErased_eq_blockAlone, turnsU, hostStep_turns, turnsT]

end Sys2Proof
end

section
/-! PROOF. The sequencer ends where the command's procedure ends (45_sequencer.md R152), undisturbed and under every
interleaving of the host's turns. -/

namespace Sys2Proof

open Sys2Proof.Machine

/-- Settles O52: `reaches_procedure`, which fixes the control registers where the statement erases them. -/
theorem sequencerAgreesWithProcedures : Obligations.SequencerAgreesWithProcedures := by
  intro i s t fuel calm hq hw ht hp
  obtain ⟨p, k, run⟩ := reaches_procedure calm hq hw ht hp
  have idle := ((completesFrom_procedure hp).idleBlock calm).idle
  exact ⟨_, run, rfl, controlErased_inControl idle⟩

/-! ### A run beside an undisturbed one -/

/-- A calm block has no turn of another agent and no host operation before it. -/
structure Calm (c : State) : Prop where
  undisturbed : Undisturbed c
  noOps : c.hostOps = []

/-- Of a calm block each step is the sequencer's (log 3, log 17). -/
theorem step_calm {c : State} (h : Calm c) : step c = sequencerStep c := by
  obtain ⟨⟨turns, released⟩, noOps⟩ := h
  simp [step, machineStep, nextAgent, turns, released, noOps, passTurn_nil turns]

theorem Calm.of_hostSide {c d : State} (h : Calm c) (same : hostSide d = hostSide c) : Calm d := by
  obtain ⟨turns, released, noOps, -⟩ := hostSide_eq_iff.mp same
  exact ⟨⟨turns.trans h.undisturbed.1, released.trans h.undisturbed.2⟩, noOps.trans h.noOps⟩

/-- The turns left in `s` are the host's and the sequencer's, and its block is like that of `c`. -/
structure Beside (c s : State) : Prop where
  noReset : ∀ asserted, Agent.resetInput asserted ∉ s.turns
  alike : blockAlone [] s = blockAlone [] c

theorem Beside.congr {α : Type} {c s : State} (h : Beside c s) (f : State → α)
    (blind : ∀ x, f (blockAlone [] x) = f x) : f s = f c :=
  (blind s).symm.trans ((congrArg f h.alike).trans (blind c))

theorem Beside.resetAsserted {c s : State} (h : Beside c s) : s.resetAsserted = c.resetAsserted :=
  h.congr State.resetAsserted fun _ => rfl

theorem Beside.seq {c s : State} (h : Beside c s) : s.seq = c.seq := h.congr State.seq fun _ => rfl

theorem Beside.busy {c s : State} (h : Beside c s) : s.status.busy = c.status.busy :=
  h.congr (·.status.busy) fun _ => rfl

/-- The sequencer's turn, whether it is given or taken because no turn is left. -/
theorem Beside.sequencerTurn {c d s : State} (h : Beside c s) (released : c.resetAsserted = false)
    (agent : nextAgent s = .sequencer) (next : sequencerStep c = .next d) : ∃ t, Reaches s t ∧ Beside d t := by
  obtain ⟨t, ht, alike⟩ := sequencerStep_alike (s := passTurn s) h.alike next
  obtain ⟨turns, -⟩ := hostSide_eq_iff.mp (keepsRunning_sequencerStep ht).1
  refine ⟨t, .step ((step_sequencer agent (h.resetAsserted.trans released)).trans ht), fun asserted mem => ?_, alike⟩
  rw [turns] at mem
  exact h.noReset asserted (List.mem_of_mem_tail mem)

/-- The host's turn while the command runs changes nothing that counts here. -/
theorem Beside.hostTurn {c s : State} (h : Beside c s) (busy : c.status.busy = true) :
    Beside c (hostStep (passTurn s)) where
  noReset := fun asserted mem => by
    rw [hostStep_turns] at mem
    exact h.noReset asserted (List.mem_of_mem_tail mem)
  alike := (blockAlone_hostStep [] (s := passTurn s) (h.busy.trans busy)).trans h.alike

/-- While the command runs the host's turns come to an end, and the sequencer makes the step of the undisturbed block. -/
theorem Beside.running_step {c d s : State} (h : Beside c s) (released : c.resetAsserted = false)
    (running : c.seq ≠ .idle) (busy : c.status.busy = true) (next : sequencerStep c = .next d) :
    ∃ t, Reaches s t ∧ Beside d t := by
  induction turns : s.turns generalizing s with
  | nil => exact h.sequencerTurn released (by simp [nextAgent, turns, h.seq, running]) next
  | cons agent rest ih =>
    have first : nextAgent s = agent := by simp [nextAgent, turns]
    cases agent with
    | sequencer => exact h.sequencerTurn released first next
    | resetInput asserted => exact absurd (turns ▸ List.mem_cons_self) (h.noReset asserted)
    | host =>
      have hostFirst : step s = .next (hostStep (passTurn s)) := by
        simp [step, machineStep, first, holdReset, passTurn, h.resetAsserted, released]
      obtain ⟨t, run, ht⟩ := ih (h.hostTurn busy) (by rw [hostStep_turns, passTurn, turns, List.tail_cons])
      exact ⟨t, (Reaches.step hostFirst).trans run, ht⟩

/-- Whatever turns the host is given, the block gets where the undisturbed one gets. -/
theorem Beside.reaches {n : Nat} {c s u : State} (h : Beside c s) (calm : Calm c)
    (busy : c.seq ≠ .idle → c.status.busy = true) (run : core.run n c = .next u) : ∃ v, Reaches s v ∧ Beside u v := by
  induction n generalizing c s with
  | zero =>
    cases run
    exact ⟨s, .refl s, h⟩
  | succ n ih =>
    obtain ⟨d, next, run⟩ := run_succ_cases run
    rw [step_calm calm] at next
    by_cases hq : c.seq = .idle
    · have same : d = c := by simpa [sequencerStep, hq, eq_comm] using next
      exact ih h calm busy (same ▸ run)
    · obtain ⟨hostKept, busyKept⟩ := keepsRunning_sequencerStep next
      obtain ⟨t, first, ht⟩ := h.running_step calm.undisturbed.2 hq (busy hq) next
      obtain ⟨v, rest, hv⟩ := ih ht (calm.of_hostSide hostKept) (fun hd => (busyKept hd).trans (busy hq)) run
      exact ⟨v, first.trans rest, hv⟩

/-- Settles O53: `reaches_procedure` for the block undisturbed, and the run of the block itself beside that one. -/
theorem agreementUnderEveryInterleaving : Obligations.AgreementUnderEveryInterleaving := by
  intro i s t fuel noReset released hq busy hw ht hp
  have calm : Calm { s with turns := [], hostOps := [] } := ⟨⟨rfl, released⟩, rfl⟩
  obtain ⟨p, k, n, run⟩ := reaches_procedure calm.undisturbed hq hw (by cases i <;> exact ht) hp
  have idle := ((completesFrom_procedure hp).idleBlock calm.undisturbed).idle
  have beside : Beside { s with turns := [], hostOps := [] } s := ⟨noReset, rfl⟩
  obtain ⟨v, run', hv⟩ := beside.reaches calm (fun _ => busy) run
  refine ⟨v, run', hv.seq, ?_⟩
  rw [outsideErased_eq_blockAlone, hv.alike]
  exact congrArg (blockAlone []) (controlErased_inControl idle)

end Sys2Proof
end

section
/-! PROOF. Whose turn it is, and what it does (45_sequencer.md R145, R149); and the control states in which a command has
no step. -/

namespace Sys2Proof

open Sys2Proof.Machine

/-- The host's turn, on a block that is then reset while the reset input is asserted. -/
theorem step_hostTurn {s : State} (agent : nextAgent s = .host) :
    step s = .next (if s.resetAsserted = true then hardReset (hostStep (passTurn s)) else hostStep (passTurn s)) := by
  have held : (hostStep (passTurn s)).resetAsserted = s.resetAsserted := hostStep_resetAsserted (passTurn s)
  rw [step, machineStep, agent, ← held]
  rfl

theorem step_sequencerTurn_inReset {s : State} (agent : nextAgent s = .sequencer) (asserted : s.resetAsserted = true) :
    step s = .next (hardReset (passTurn s)) := by
  simp only [step, machineStep, agent, asserted, if_true]

theorem step_resetTurn {s : State} {asserted : Bool} (agent : nextAgent s = .resetInput asserted) :
    step s = .next (setResetInput asserted (passTurn s)) := by
  simp only [step, machineStep, agent]

theorem sequencerStep_idle {s : State} (idle : s.seq = .idle) : sequencerStep s = .next s := by
  simp only [sequencerStep, idle]

/-- With no turn left an idle block gives the host its turn, which does nothing when no operation is left. -/
theorem step_idle {s : State} (calm : Undisturbed s) (idle : s.seq = .idle) : step s = .next (hostStep s) := by
  by_cases pending : s.hostOps = []
  · rw [step_calm ⟨calm, pending⟩, sequencerStep_idle idle, hostStep, pending]
  · exact step_host calm idle pending

/-- Settles O7: the first turn left decides who moves, the first operation left what the host does. -/
theorem stepTakesTheNextTurn : Obligations.StepTakesTheNextTurn := by
  have first {s : State} {agent : Agent} {rest : List Agent} (h : s.turns = agent :: rest) :
      nextAgent s = agent ∧ passTurn s = { s with turns := rest } := by
    simp [nextAgent, passTurn, h]
  refine ⟨fun s rest h => ?_, fun s rest h => ?_, fun s asserted rest h => ?_, fun s => step_running, fun s => step_idle,
    fun s h => ?_, fun s addr rest h => ?_, fun s addr w rest h => ?_, fun s rest h => ⟨fun busy => ?_, fun idle => ?_⟩⟩
  · obtain ⟨agent, passed⟩ := first h
    rw [← passed, step_hostTurn agent]
    exact ⟨fun released => by simp [released], fun asserted => by simp [asserted]⟩
  · obtain ⟨agent, passed⟩ := first h
    rw [← passed]
    refine ⟨fun released => ⟨step_sequencer agent released, fun idle => ?_⟩, step_sequencerTurn_inReset agent⟩
    rw [step_sequencer agent released, sequencerStep_idle (s := passTurn s) idle]
  · obtain ⟨agent, passed⟩ := first h
    rw [step_resetTurn agent, passed]
    rfl
  · simp only [hostStep, h]
  · simp only [hostStep, h]
  · simp only [hostStep, h]
  · simp only [hostStep, h, busy, if_true]
    rw [← h]
  · simp [hostStep, h, idle]

/-- Settles O47: in these control states the command's own arm of its step is the fault. -/
theorem strayControlStops : Obligations.StrayControlStops := by
  refine fun s => ⟨fun q permille notIdle notDispatch => ?_, fun stray => ?_, fun atFilter maxatt retryMs => ?_⟩
  · cases hq : s.seq with
    | idle => exact absurd hq notIdle
    | dispatch => exact absurd hq notDispatch
    | _ => simp only [exec, execSetdev, hq]
  · obtain hq | hq := stray <;> simp [exec, execCalibrate, execInit, controlStep, hq]
  · simp only [exec, execAcquire, controlStep, atFilter]

end Sys2Proof
end

section
/-! PROOF. The control states of an attempt, step by step (45_sequencer.md R147, R150, R151). -/

namespace Sys2Proof.Machine

/-! ### What a command with an attempt does in the control states of a phase (R150) -/

section Phase

variable {i : Instr} (hi : ∀ q p, i ≠ .setdev q p) {s : State}
include hi

theorem exec_counting (hq : Counts s.seq = true) (a b c d : Out) : exec i s = controlStep (calibrates i) s a b c d := by
  have other {q : Seq} (own : Counts q = false) : s.seq ≠ q := fun e => by simp [e, own] at hq
  exact exec_line hi (other rfl) (other rfl) (other rfl) (other rfl) a b c d

theorem exec_poll (hq : s.seq = .poll) : exec i s = .next (pollStep s) := by
  rw [exec_counting hi (by rw [hq]; rfl) (.next s) (.next s) (.next s) (.next s)]
  simp only [controlStep, hq]

theorem exec_pdelay (hq : s.seq = .pdelay) : exec i s = .next (pdelayStep s) := by
  rw [exec_counting hi (by rw [hq]; rfl) (.next s) (.next s) (.next s) (.next s)]
  simp only [controlStep, hq]

theorem exec_phaseEnd (hq : s.seq = .phaseEnd) : exec i s = .next (phaseEndStep (calibrates i) s) := by
  rw [exec_counting hi (by rw [hq]; rfl) (.next s) (.next s) (.next s) (.next s)]
  simp only [controlStep, hq]

end Phase

theorem pdelayStep_timedOut {s : State} (h : s.count = s.timeout) :
    pdelayStep s = goto .phaseEnd (portDelayMicros s.params.pollUs s) := by
  rw [pdelayStep, if_pos h]

theorem pdelayStep_counting {s : State} (h : s.count ≠ s.timeout) :
    pdelayStep s = goto .poll (portDelayMicros s.params.pollUs s) := by
  rw [pdelayStep, if_neg h]

/-! ### The end of a bit slot (R85, R86, R88, R151) -/

theorem bitFails_iff {lo hi : Count} {s : State} : bitFails lo hi s = true ↔ lo = s.timeout ∨ hi = s.timeout := by
  rw [bitFails, Bool.or_eq_true, beq_iff_eq, beq_iff_eq]

/-- What a HIGH count is compared with (R86). -/
def bitReference (cal : Bool) (lo : Count) (s : State) : Count :=
  if cal = true ∧ s.params.calBitRule = .self then lo else s.threshold

theorem slotBit_iff {cal : Bool} {lo hi : Count} {s : State} :
    slotBit cal s lo hi = true ↔ bitFails lo hi s = false ∧ (bitReference cal lo s).toNat < hi.toNat := by
  rw [slotBit, Bool.and_eq_true, Bool.not_eq_true', bitValue_iff, bitReference, apply_ite BitVec.toNat]

theorem recordBit_shreg_eq_shiftConcat (cal : Bool) (s : State) :
    (recordBit cal s).shreg = s.shreg.shiftConcat (slotBit cal s s.loCnt s.count) := by
  refine BitVec.eq_of_getLsbD_eq fun k hk => ?_
  cases k with
  | zero =>
    rw [recordBit_shreg_newest]
    simp
  | succ k =>
    rw [recordBit_shreg_older cal s hk, BitVec.getLsbD_shiftConcat]
    simp [hk]

/-- Shifting in one bit doubles the register and adds the bit. -/
theorem recordBit_shreg_toNat (cal : Bool) (s : State) :
    (recordBit cal s).shreg.toNat = (2 * s.shreg.toNat + (slotBit cal s s.loCnt s.count).toNat) % 2 ^ 40 := by
  rw [recordBit_shreg_eq_shiftConcat, BitVec.toNat_shiftConcat, Nat.shiftLeft_eq, pow_one, Nat.mul_comm]

/-- The end of a HIGH phase ends the slot: the next one, or after bit 39 the end of the attempt. -/
theorem phaseEndStep_bitHigh (cal : Bool) {s : State} (hp : s.phase = .bitHigh) :
    phaseEndStep cal s = { recordBit cal s with
      bitIdx := if s.bitIdx.val < 39 then s.bitIdx + 1 else s.bitIdx
      phase := if s.bitIdx.val < 39 then .bitLow else .bitHigh
      count := if s.bitIdx.val < 39 then 0 else s.count
      seq := if s.bitIdx.val < 39 then .poll else .attEnd } := by
  simp only [phaseEndStep, hp, Fin.lt_def]
  by_cases more : s.bitIdx.val < 39
  · simp only [if_pos more]
    exact if_pos more
  · simp only [if_neg more]
    rw [← hp]
    exact if_neg more

end Sys2Proof.Machine

namespace Sys2Proof

open Sys2Proof.Machine

/-- Settles O20: by the level read at `POLL`, and by the count at `PDELAY`. -/
theorem pollCountsMatchingLevels : Obligations.PollCountsMatchingLevels := by
  refine fun s i hi => ⟨fun hq => ?_, fun hq => ?_⟩
  · rw [exec_poll hi hq, pollStep_eq]
    exact ⟨fun ends => by rw [if_neg ends]; rfl, fun counted => by rw [if_pos counted]; rfl⟩
  · rw [exec_pdelay hi hq]
    exact ⟨fun timedOut => by rw [pdelayStep_timedOut timedOut]; rfl,
      fun counting => by rw [pdelayStep_counting counting]; rfl⟩

/-- Settles O21: a bit slot ends with `recordBit`, whose sum, maximum, failure and bit are as the statement says. -/
theorem phaseEndMovesOn : Obligations.PhaseEndMovesOn := by
  intro s i hi hq
  rw [exec_phaseEnd hi hq]
  refine ⟨fun hp => ?_, fun hp => ?_, fun hp => ?_, fun hp failed b ref hfailed href hb => ?_⟩
  · simp only [phaseEndStep, hp]
    rfl
  · simp only [phaseEndStep, hp]
    rfl
  · simp only [phaseEndStep, hp]
    rfl
  · obtain rfl : failed = bitFails s.loCnt s.count s := by rw [Bool.eq_iff_iff, hfailed, bitFails_iff]
    have reference : ref = bitReference (calibrates i) s.loCnt s := by
      rw [href]
      cases i <;> cases hrule : s.params.calBitRule <;> simp [bitReference, calibrates, hrule]
    obtain rfl : b = slotBit (calibrates i) s s.loCnt s.count := by
      rw [Bool.eq_iff_iff, hb, slotBit_iff, reference]
    refine ⟨(recordBit (calibrates i) s).sumLow, (recordBit (calibrates i) s).shreg, ?_,
      recordBit_shreg_toNat _ s, ?_⟩
    · rw [recordBit_sumLow, BitVec.toNat_add, BitVec.toNat_setWidth, Nat.add_mod_mod]
    · rw [phaseEndStep_bitHigh _ hp]
      rfl

end Sys2Proof
end

section
/-! PROOF. The steps of each command before and after an attempt: the first attempt, the end of an attempt, the retry
(45_sequencer.md R147, R150, R153). -/

namespace Sys2Proof.Machine

/-! ### The attempt's tail (R88) -/

/-- How the statements say why an attempt failed (R88, 60_exceptions.md R169). -/
theorem attemptCause_of_failure {bitErr : Bool} {f : Frame} {cause : ErrorCode}
    (h : (bitErr = true ∨ checksumMatches f = false) ∧ cause = .checksumMismatch ∨
      bitErr = false ∧ f = 0 ∧ cause = .degenerateFrame) : attemptCause bitErr f = cause ∧ cause ≠ .none := by
  obtain ⟨mismatch, rfl⟩ | ⟨noErr, zero, rfl⟩ := h
  · exact ⟨attemptCause_checksum.mpr mismatch, nofun⟩
  · exact ⟨attemptCause_degenerate.mpr ⟨noErr, zero⟩, nofun⟩

theorem attemptTail_success {s : State} (h : attemptCause s.bitErr s.shreg = .none) :
    attemptTail s = { s with frame := s.shreg, cause := .none, status := { s.status with frameOk := true } } := by
  simp only [attemptTail, h, decide_true]

theorem attemptTail_failure {s : State} {cause : ErrorCode} (h : attemptCause s.bitErr s.shreg = cause)
    (failed : cause ≠ .none) :
    attemptTail s = { s with frame := s.shreg, cause := cause, status := { s.status with frameOk := false } } := by
  simp only [attemptTail, h, decide_eq_false failed]

/-! ### The end of an attempt of INIT and CALIBRATE (R100, R153) -/

theorem exec_attEnd_calibrating {i : Instr} {s : State} (hi : i = .calibrate ∨ ∃ v cap, i = .init v cap)
    (hq : s.seq = .attEnd) : exec i s = .next (calibrationAttEnd s) := by
  obtain rfl | ⟨v, cap, rfl⟩ := hi
  · exact exec_attEnd_calibrate s hq
  · exact exec_attEnd_init s hq

theorem calibrationAttEnd_success {s : State} (h : attemptCause s.bitErr s.shreg = .none) :
    calibrationAttEnd s = complete true .none (calibrateSuccess (attemptTail s)) := if_pos h

theorem calibrationAttEnd_failure {s : State} (h : attemptCause s.bitErr s.shreg ≠ .none) :
    calibrationAttEnd s =
      if (s.calN + 1).val = 5 then
        complete false .calibrationFallback (calibrateFallback (countCalFailure (attemptTail s)))
      else goto .hs0 (countCalFailure (attemptTail s)) := if_neg h

/-! ### The end of an attempt of ACQUIRE and READ (R110, R153) -/

/-- After a failed attempt with this cause, `n` failures counted. -/
def failedAttempt (cause : ErrorCode) (n : Fin 128) (s : State) : State :=
  { s with frame := s.shreg, cause := cause, attN := n, status := { s.status with frameOk := false } }

section Acquire

variable {m : BitVec 8} {success : State → State} {s : State}

theorem budgetExhausted_iff : budgetExhausted m s = true ↔ 0 < m.toInt ∧ (s.attN.val : Int) = m.toInt :=
  decide_eq_true_iff

theorem acquireAttEnd_success (h : attemptCause s.bitErr s.shreg = .none) :
    acquireAttEnd m success s = success (attemptTail s) := if_pos h

/-- A failure is counted, and completes the command with its cause or leads to a retry. -/
theorem acquireAttEnd_failure {cause : ErrorCode} (h : attemptCause s.bitErr s.shreg = cause) (failed : cause ≠ .none)
    {n : Fin 128} (counted : (countAttempt m s).attN = n) :
    acquireAttEnd m success s =
      if 0 < m.toInt ∧ (n.val : Int) = m.toInt then complete false cause (failedAttempt cause n s)
      else goto .retry (failedAttempt cause n s) := by
  subst counted
  obtain ⟨valid, -⟩ | ⟨-, exhausted, e⟩ | ⟨-, left, e⟩ := acquireAttEnd_cases m success s
  · exact absurd (h.symm.trans valid) failed
  · rw [e, if_pos (budgetExhausted_iff.mp exhausted), attemptTail_failure h failed, h]
    rfl
  · rw [e, if_neg (mt budgetExhausted_iff.mpr (Bool.eq_false_iff.mp left)), attemptTail_failure h failed]
    rfl

theorem countAttempt_attN_of_pos (pos : 0 < m.toInt) : (countAttempt m s).attN = s.attN + 1 := if_pos pos

theorem countAttempt_attN_of_zero (zero : m.toInt = 0) : (countAttempt m s).attN = s.attN :=
  if_neg zero.not_gt

/-- The clauses about a failed attempt, which `ACQUIRE` and `READ` share: with a budget, `att_n` grows by one and the
command completes when that is `maxatt`; without one, `att_n` stays and there is always a retry. -/
theorem acquireAttEnd_failure_clauses {cause : ErrorCode} {out : Out} (hout : out = .next (acquireAttEnd m success s))
    (h : attemptCause s.bitErr s.shreg = cause) (failed : cause ≠ .none) :
    (0 < m.toInt → s.attN.val < 127 → ∃ n : Fin 128, n.val = s.attN.val + 1 ∧
      ((n.val : Int) = m.toInt → out = .next (complete false cause (failedAttempt cause n s))) ∧
      ((n.val : Int) ≠ m.toInt → out = .next (goto .retry (failedAttempt cause n s)))) ∧
    (m.toInt = 0 → out = .next (goto .retry (failedAttempt cause s.attN s))) := by
  subst hout
  constructor
  · intro pos small
    rw [acquireAttEnd_failure h failed (countAttempt_attN_of_pos pos)]
    exact ⟨s.attN + 1, Fin.val_add_one_of_lt (Fin.lt_def.mpr small), fun exhausted => by rw [if_pos ⟨pos, exhausted⟩],
      fun left => by rw [if_neg fun e => left e.2]⟩
  · intro zero
    rw [acquireAttEnd_failure h failed (countAttempt_attN_of_zero zero), if_neg fun e => zero.not_gt e.1]

end Acquire

end Sys2Proof.Machine

namespace Sys2Proof

open Sys2Proof.Machine

/-- Settles O12: the checks pass. -/
theorem commandsStartTheirFirstAttempt : Obligations.CommandsStartTheirFirstAttempt := by
  refine fun s hq inited => ⟨?_, fun m r hm => ⟨?_, ?_⟩⟩
  · rw [exec_dispatch_calibrate hq, checked_pass _ wellFormed_calibrate fun _ => inited]
    rfl
  · rw [exec_dispatch_acquire hq, checked_pass _ (wellFormed_acquire.mpr hm) fun _ => inited]
    rfl
  · rw [exec_dispatch_read hq, checked_pass _ (wellFormed_read.mpr hm) fun _ => inited]
    rfl

/-- Settles O32: the retry step is the delay and the move to `HS0`. -/
theorem retryWaitsBetweenAttempts : Obligations.RetryWaitsBetweenAttempts :=
  fun s _ _ hq => ⟨exec_retry_acquire s hq, exec_retry_read s hq⟩

/-- Settles O28: the attempt's tail, then the results, whose quotient fits 16 bits. -/
theorem calibrationAttemptSucceeds : Obligations.CalibrationAttemptSucceeds := by
  intro s i hi hq noErr valid bound
  have received := attemptCause_none.mpr ⟨noErr, valid⟩
  refine ⟨calThreshold s.sumLow, calTimeout s.maxHigh, calThreshold_toNat bound, calTimeout_toNat s.maxHigh, ?_⟩
  rw [exec_attEnd_calibrating hi hq, calibrationAttEnd_success received, attemptTail_success received]
  rfl

/-- Settles O29: the failure is counted, which takes `cal_n` to 5 or leaves an attempt. -/
theorem calibrationAttemptFails : Obligations.CalibrationAttemptFails := by
  intro s i cause hi hq within hcause
  obtain ⟨h, failed⟩ := attemptCause_of_failure hcause
  have counted : (s.calN + 1).val = s.calN.val + 1 := Fin.val_add_one_of_lt (Fin.lt_def.mpr within)
  rw [exec_attEnd_calibrating hi hq, calibrationAttEnd_failure (h ▸ failed), attemptTail_failure h failed]
  refine ⟨fun last => ?_, fun more => ⟨s.calN + 1, counted, ?_⟩⟩
  · have five : s.calN + 1 = 5 := Fin.ext (counted.trans (congrArg (· + 1) last))
    rw [if_pos (by omega), ← five]
    rfl
  · rw [if_neg (by omega)]
    rfl

/-- Settles O30: success completes the command, failure is as for `READ`. -/
theorem acquireAttemptEnds : Obligations.AcquireAttemptEnds := by
  refine fun s m r hq => ⟨fun noErr valid => ?_, fun cause hcause => ?_⟩
  · have received := attemptCause_none.mpr ⟨noErr, valid⟩
    rw [exec_attEnd_acquire s hq, acquireAttEnd_success received, attemptTail_success received]
    rfl
  · obtain ⟨h, failed⟩ := attemptCause_of_failure hcause
    exact acquireAttEnd_failure_clauses (exec_attEnd_acquire s hq) h failed

/-- Settles O31: success leads to `FILTER`, failure is as for `ACQUIRE`. -/
theorem readAttemptEnds : Obligations.ReadAttemptEnds := by
  refine fun s m r hq => ⟨fun noErr valid => ?_, fun cause hcause => ?_⟩
  · have received := attemptCause_none.mpr ⟨noErr, valid⟩
    rw [exec_attEnd_read s hq, acquireAttEnd_success received, attemptTail_success received]
    rfl
  · obtain ⟨h, failed⟩ := attemptCause_of_failure hcause
    exact acquireAttEnd_failure_clauses (exec_attEnd_read s hq) h failed

end Sys2Proof
end

section
/-! PROOF. Where the invariant holds no step faults or is refused (60_exceptions.md R166, R170, R171). -/

namespace Sys2Proof

open Sys2Proof.Machine

/-! ### A command's step -/

/-- The operand checks answer a next state whatever they find (60_exceptions.md R166). -/
theorem checked_goesOn (i : Instr) (s u : State) : ∃ t, checked i s (.next u) = .next t := by
  obtain ⟨-, e⟩ | ⟨-, -, -, e⟩ | ⟨-, -, e⟩ := checked_cases i s (.next u)
  all_goals exact ⟨_, e⟩

/-- Of the four outcomes that are a command's own, only the one in the present control state decides whether its step
goes on. -/
theorem controlStep_goesOn {cal : Bool} {s : State} {dispatch attEnd retry filter : Out}
    (atDispatch : s.seq = .dispatch → ∃ t, dispatch = .next t) (atAttEnd : s.seq = .attEnd → ∃ t, attEnd = .next t)
    (atRetry : s.seq = .retry → ∃ t, retry = .next t) (atFilter : s.seq = .filter → ∃ t, filter = .next t) :
    ∃ t, controlStep cal s dispatch attEnd retry filter = .next t := by
  cases hq : s.seq with
  | dispatch => simpa only [controlStep, hq] using atDispatch hq
  | attEnd => simpa only [controlStep, hq] using atAttEnd hq
  | retry => simpa only [controlStep, hq] using atRetry hq
  | filter => simpa only [controlStep, hq] using atFilter hq
  | _ => simp only [controlStep, hq, Host.Outcome.next.injEq, exists_eq']

/-- `INIT` and `CALIBRATE` have no step of their own in `RETRY` and `FILTER`, and go on in all other control states. -/
theorem calibration_goesOn {i : Instr} {s u : State} (running : s.seq ≠ .dispatch → s.seq ≠ .retry ∧ s.seq ≠ .filter) :
    ∃ t, controlStep true s (checked i s (.next u)) (.next (calibrationAttEnd s)) (.fault .strayControl)
      (.fault .strayControl) = .next t := by
  refine controlStep_goesOn (fun _ => checked_goesOn i s u) (fun _ => ⟨_, rfl⟩) (fun hq => ?_) fun hq => ?_
  all_goals obtain ⟨noRetry, noFilter⟩ := running (hq ▸ nofun)
  · exact absurd hq noRetry
  · exact absurd hq noFilter

/-- A command goes on in every control state in which it can be: `INIT` and `CALIBRATE` have no `RETRY` and no `FILTER`,
`ACQUIRE` no `FILTER`, `SETDEV` nothing after `DISPATCH` (45_sequencer.md R147, R153). -/
theorem exec_goesOn {i : Instr} {s : State} (running : s.seq ≠ .dispatch → RunsIn i s) : ∃ t, exec i s = .next t := by
  cases i with
  | init v cap =>
    refine calibration_goesOn fun later => ?_
    obtain ⟨-, -, noRetry, noFilter, -⟩ := running later
    exact ⟨noRetry, noFilter⟩
  | calibrate =>
    refine calibration_goesOn fun later => ?_
    obtain ⟨-, -, noRetry, noFilter, -⟩ := running later
    exact ⟨noRetry, noFilter⟩
  | acquire m r =>
    refine controlStep_goesOn (fun _ => checked_goesOn _ s _) (fun _ => ⟨_, rfl⟩) (fun _ => ⟨_, rfl⟩) fun hq => ?_
    obtain ⟨-, -, noFilter, -⟩ := running (hq ▸ nofun)
    exact absurd hq noFilter
  | read m r =>
    exact controlStep_goesOn (fun _ => checked_goesOn _ s _) (fun _ => ⟨_, rfl⟩) (fun _ => ⟨_, rfl⟩) fun _ => ⟨_, rfl⟩
  | setdev q p =>
    by_cases hd : s.seq = .dispatch
    · rw [exec_dispatch_setdev hd]
      exact checked_goesOn _ s _
    · obtain ⟨-, -, never⟩ := running hd
      exact never.elim

/-! ### The sequencer's step -/

/-- Only at `DISPATCH` can the latched word be no command, and there it completes with IllegalCommand (30_encoding.md
R66). -/
theorem Inv.sequencerStep_goesOn {s : State} (h : Inv s) : ∃ t, Machine.sequencerStep s = .next t := by
  by_cases idle : s.seq = .idle
  · exact ⟨s, sequencerStep_idle idle⟩
  · cases hw : decode s.cmdW with
    | ok i =>
      rw [sequencerStep_exec hw idle]
      exact exec_goesOn (h.runsIn hw rfl idle)
    | error e =>
      by_cases hd : s.seq = .dispatch
      · exact ⟨_, sequencerStep_dispatch_illegal hd hw⟩
      · obtain ⟨i, hi, -⟩ := h.running idle hd
        cases hw.symm.trans hi

/-! ### The statement -/

/-- Settles O51: the turns of the host and of the reset input always go on, and so does the sequencer's, in reset as
out of it. -/
theorem everyStepGoesOn : Obligations.EveryStepGoesOn := by
  intro s h
  cases agent : nextAgent s with
  | host => exact ⟨_, step_hostTurn agent⟩
  | resetInput asserted => exact ⟨_, step_resetTurn agent⟩
  | sequencer =>
    cases hr : s.resetAsserted with
    | true => exact ⟨_, step_sequencerTurn_inReset agent hr⟩
    | false =>
      rw [step_sequencer agent hr]
      exact h.passTurn.sequencerStep_goesOn

end Sys2Proof
end

section
/-! PROOF. Every command but `ACQUIRE` and `READ` with `maxatt = 0` completes, within its attempts and retry delays
(70_reset_and_hazards.md R192): its procedure returns with as much fuel as it may make attempts, and the sequencer gets
where the procedure ends (45_sequencer.md R152). -/

namespace Sys2Proof

open Sys2Proof.Machine

/-- From `s` to `t` the port trace has grown by so many start pulses, each with its own millisecond delay (R83), and so
many retry delays. -/
structure Spends (attempts retries : Nat) (s t : State) : Prop where
  starts : t.trace.countP isStart = s.trace.countP isStart + attempts
  delays : t.trace.countP isDelayMs = s.trace.countP isDelayMs + attempts + retries

theorem spends_of_trace_eq {s t : State} (same : t.trace = s.trace) : Spends 0 0 s t where
  starts := by rw [same, Nat.add_zero]
  delays := by rw [same, Nat.add_zero]

theorem spends_attempt (cal : Bool) (s : State) : Spends 1 0 s (attempt cal s) where
  starts := attempt_countP_isStart cal s
  delays := attempt_countP_isDelayMs cal s

theorem Spends.trans {a r a' r' : Nat} {s t u : State} (h : Spends a r s t) (h' : Spends a' r' t u) :
    Spends (a + a') (r + r') s u where
  starts := by rw [h'.starts, h.starts]; omega
  delays := by rw [h'.delays, h.delays]; omega

/-- `Spends` depends on the traces only. -/
theorem Spends.of_trace_eq {a r : Nat} {s t u : State} (h : Spends a r s t) (same : u.trace = t.trace) :
    Spends a r s u :=
  h.trans (spends_of_trace_eq same)

/-- A command that began in `s` and ended in `t` has kept to its limits. -/
def KeepsLimits (i : Instr) (s t : State) : Prop :=
  ∃ attempts retries, attempts ≤ attemptLimit i ∧ retries ≤ retryLimit i ∧ Spends attempts retries s t

/-! ### Calibration (41_calibrator.md R100) -/

/-- The loop makes at most the attempts it has left, with no delay between them. -/
theorem spends_calibrateLoop (n : Nat) (s : State) : ∃ attempts ≤ n, Spends attempts 0 s (calibrateLoop n s) := by
  induction n generalizing s with
  | zero => exact ⟨0, Nat.le_refl 0, spends_of_trace_eq rfl⟩
  | succ n ih =>
    by_cases hcause : (attempt true s).cause = .none
    · rw [calibrateLoop_success hcause]
      exact ⟨1, Nat.le_add_left 1 n, (spends_attempt true s).of_trace_eq (by simp)⟩
    · rw [calibrateLoop_failure hcause]
      obtain ⟨attempts, atMost, later⟩ := ih (countCalFailure (attempt true s))
      exact ⟨1 + attempts, by omega, ((spends_attempt true s).of_trace_eq (countCalFailure_trace _)).trans later⟩

/-- `s` is the state before the assignments of `INIT`, which put nothing on the trace. -/
theorem keepsLimits_calibrate {i : Instr} {s x : State} (limit : attemptLimit i = 5) (same : x.trace = s.trace) :
    KeepsLimits i s (calibrateAndComplete x) := by
  obtain ⟨attempts, atMost, spent⟩ := spends_calibrateLoop Config.calAttempts (clearCalN x)
  have started : Spends 0 0 s (clearCalN x) := spends_of_trace_eq same
  exact ⟨0 + attempts, 0, by rw [limit, Nat.zero_add]; exact atMost, Nat.zero_le _, started.trans spent⟩

/-! ### The retry loop (42_frame_acquirer.md R110, R111) -/

/-- With a positive budget the loop returns once it may make the attempts that are left. -/
theorem acquireLoop_returns {m : BitVec 8} {r : BitVec 16} {fuel : Nat} {s : State} (hm : 0 < maxattValue m)
    (hb : BudgetOpen m s) (enough : maxattValue m ≤ s.attN.val + fuel) : ∃ t, acquireLoop m r fuel s = some t := by
  induction fuel generalizing s with
  | zero =>
    have left := hb.1 hm
    omega
  | succ fuel ih =>
    by_cases hcause : (attempt false s).cause = .none
    · exact ⟨_, acquireLoop_success hcause⟩
    rw [acquireLoop_failure hcause]
    cases spent : budgetExhausted m (countAttempt m (attempt false s)) with
    | true => exact ⟨_, if_pos rfl⟩
    | false =>
      rw [if_neg Bool.false_ne_true]
      refine ih (budgetOpen_retry hb spent _) ?_
      rw [portDelayMillis_attN, countAttempt_attN_val (budgetOpen_attempt hb) hm, attempt_attN]
      omega

/-- A call with `maxatt > 0` returns within `maxatt` attempts and one retry delay less. -/
theorem acquireFrame_returns_within {m : BitVec 8} (r : BitVec 16) (s : State) (hm : 0 < m.toInt) :
    ∃ a, acquireFrame m.toInt.toNat m r s = some a ∧
      ∃ k, k ≤ m.toInt.toNat ∧ Spends k (k - 1) s a := by
  obtain ⟨a, call⟩ := acquireLoop_returns (r := r) (fuel := m.toInt.toNat) (s := clearAttN s) hm (budgetOpen_zero m rfl)
    (by simp [maxattValue])
  obtain ⟨k, -, within, -, starts, delays, -⟩ := retryLoopCountsAttempts _ m r s a hm.le call
  exact ⟨a, call, k, by have := within hm; omega, starts, delays⟩

/-- `ACQUIRE` and `READ`: what they do after the call, `finish`, puts nothing on the trace. -/
theorem acquisition_returns {i : Instr} {m : BitVec 8} (r : BitVec 16) (s : State) {finish : State → State}
    (hm : 0 < m.toInt) (attempts : attemptLimit i = m.toInt.toNat) (retries : retryLimit i = m.toInt.toNat - 1)
    (silent : ∀ a, (finish a).trace = a.trace) :
    ∃ t, (acquireFrame (attemptLimit i) m r s).map finish = some t ∧ KeepsLimits i s t := by
  obtain ⟨a, call, k, atMost, spent⟩ := acquireFrame_returns_within r s hm
  rw [attempts, call]
  exact ⟨finish a, rfl, k, k - 1, by omega, by omega, spent.of_trace_eq (silent a)⟩

theorem filterStep_trace (s : State) : (filterStep s).trace = s.trace := by
  obtain ⟨-, -, e⟩ | ⟨-, e⟩ := filterStep_cases s
  all_goals rw [e]; rfl

/-! ### Whole commands -/

/-- A refused command returns at once (60_exceptions.md R166); of the others only those with operands in range matter. -/
theorem checkedProcedure_returns {i : Instr} {s : State} {result : Option State}
    (go : i.wellFormed = true → ∃ t, result = some t ∧ KeepsLimits i s t) :
    ∃ t, checkedProcedure i s result = some t ∧ KeepsLimits i s t := by
  have refused (err : ErrorCode) : KeepsLimits i s (raise err s) :=
    ⟨0, 0, Nat.zero_le _, Nat.zero_le _, spends_of_trace_eq rfl⟩
  unfold checkedProcedure
  split
  · exact ⟨_, rfl, refused _⟩
  · next wf =>
    split
    · exact ⟨_, rfl, refused _⟩
    · exact go (Bool.eq_true_of_not_eq_false wf)

/-- Every procedure with a bound on its attempts returns within it, whatever the line answers (R192). -/
theorem procedure_returns {i : Instr} (s : State)
    (bounded : ∀ m r, i = .acquire m r ∨ i = .read m r → m.toInt ≠ 0) :
    ∃ t, procedure (attemptLimit i) i s = some t ∧ KeepsLimits i s t := by
  refine checkedProcedure_returns fun wf => ?_
  cases i with
  | init v cap => exact ⟨_, rfl, keepsLimits_calibrate rfl (initAssign_trace v cap s)⟩
  | calibrate => exact ⟨_, rfl, keepsLimits_calibrate rfl rfl⟩
  | acquire m r =>
    have hm : 0 < m.toInt := lt_of_le_of_ne (wellFormed_acquire.mp wf) (bounded m r (.inl rfl)).symm
    exact acquisition_returns r s hm rfl rfl fun _ => rfl
  | read m r =>
    have hm : 0 < m.toInt := lt_of_le_of_ne (wellFormed_read.mp wf) (bounded m r (.inr rfl)).symm
    refine acquisition_returns r s hm rfl rfl fun a => ?_
    split
    · exact filterStep_trace a
    · rfl
  | setdev q permille =>
    refine ⟨_, rfl, 0, 0, Nat.le_refl 0, Nat.le_refl 0, spends_of_trace_eq ?_⟩
    cases q <;> rfl

/-- Settles O59: the command's procedure returns within its limits, and the run reaches the state it ends in. -/
theorem boundedCommandsComplete : Obligations.BoundedCommandsComplete := by
  intro i s calm hq hw ht bounded
  obtain ⟨t, returns, attempts, retries, atMost, atMostRetries, starts, delays⟩ := procedure_returns s bounded
  obtain ⟨p, k, run⟩ := reaches_procedure calm hq hw ht returns
  have done := (completesFrom_procedure returns).idleBlock calm
  have isDone : t.status.done = true := by
    obtain ⟨ok, err, x, rfl, -⟩ := completesFrom_procedure returns
    rfl
  exact ⟨_, attempts, retries, run, rfl, done.notBusy, isDone, atMost, atMostRetries, starts, delays⟩

end Sys2Proof
end
